-- ==== Sys2Proof/Word.lean ====
section
/-! DEFINITION. The word types of the machine (10_state.md R20): the 8-bit byte of A, X, Y, SP and of a
memory location, and the 16-bit word of PC and of a 16-bit operand. An ADDRESS PRESENTED TO MEMORY is a plain
`Nat`, because the address sums of this hardware are not reduced to 16 bits (00_scope.md R13, R14). -/

namespace Sys2Proof

/-- A byte, 0 to 255 (00_scope.md R9). -/
abbrev Byte := BitVec 8

/-- A 16-bit word: the contents of PC, or a 16-bit operand (00_scope.md R9). -/
abbrev Addr := BitVec 16

end Sys2Proof
end

