-- ==== Sys2Proof/Syntax.lean ====
section
/-! DEFINITION. The instructions as syntax: one constructor of `Instr` for each of the 59 rows of
spec/opcode_table.json (30_encoding.md R86), in the table's order, with the mnemonics and the addressing-mode tags
(30_encoding.md R83). A one-byte operand is the byte `b1` as it stands after the opcode; a two-byte operand is the
16-bit word `WORD(b1, b2)` (30_encoding.md R84). -/

namespace Sys2Proof

/-- The 24 instructions (30_encoding.md R86). `aslA` is the table's `ASL_A`, the spec's "ASL A". -/
inductive Mnemonic where
  | lda | ldx | ldy | sta
  | sec | clc | sei | cli | clv | sed | cld
  | cmp | cpx | cpy
  | asl | aslA
  | bcc | bne | bcs | beq | bmi | bpl | bvc | bvs
deriving DecidableEq, Repr

/-- The thirteen addressing-mode tags (30_encoding.md R83). No opcode selects `indirect`. -/
inductive Mode where
  | implied | accumulator | immediate
  | zeroPage | zeroPageX | zeroPageY
  | absolute | absoluteX | absoluteY
  | indexedIndirect | indirectIndexed
  | relative | indirect
deriving DecidableEq, Repr

/-- One constructor per row of the opcode table. -/
inductive Instr where
  -- LDA (41_load_store.md R140)
  | ldaImmediate (value : Byte)
  | ldaZeroPage (zp : Byte)
  | ldaZeroPageX (zp : Byte)
  | ldaAbsolute (addr : Addr)
  | ldaAbsoluteX (addr : Addr)
  | ldaAbsoluteY (addr : Addr)
  | ldaIndexedIndirect (zp : Byte)
  | ldaIndirectIndexed (zp : Byte)
  -- LDX (R141)
  | ldxImmediate (value : Byte)
  | ldxZeroPage (zp : Byte)
  | ldxZeroPageY (zp : Byte)
  | ldxAbsolute (addr : Addr)
  | ldxAbsoluteY (addr : Addr)
  -- LDY (R142)
  | ldyImmediate (value : Byte)
  | ldyZeroPage (zp : Byte)
  | ldyZeroPageX (zp : Byte)
  | ldyAbsolute (addr : Addr)
  | ldyAbsoluteX (addr : Addr)
  -- STA (R143)
  | staZeroPage (zp : Byte)
  | staZeroPageX (zp : Byte)
  | staAbsolute (addr : Addr)
  | staAbsoluteX (addr : Addr)
  | staAbsoluteY (addr : Addr)
  | staIndexedIndirect (zp : Byte)
  | staIndirectIndexed (zp : Byte)
  -- flag set and clear (42_flag_ops.md R150 to R156)
  | sec
  | clc
  | sei
  | cli
  | clv
  | sed
  | cld
  -- CMP (43_compare.md R160)
  | cmpImmediate (value : Byte)
  | cmpZeroPage (zp : Byte)
  | cmpZeroPageX (zp : Byte)
  | cmpAbsolute (addr : Addr)
  | cmpAbsoluteX (addr : Addr)
  | cmpAbsoluteY (addr : Addr)
  | cmpIndexedIndirect (zp : Byte)
  | cmpIndirectIndexed (zp : Byte)
  -- CPX (R161)
  | cpxImmediate (value : Byte)
  | cpxZeroPage (zp : Byte)
  | cpxAbsolute (addr : Addr)
  -- CPY (R162)
  | cpyImmediate (value : Byte)
  | cpyZeroPage (zp : Byte)
  | cpyAbsolute (addr : Addr)
  -- ASL (44_shift.md R170, R171)
  | aslZeroPage (zp : Byte)
  | aslZeroPageX (zp : Byte)
  | aslAbsolute (addr : Addr)
  | aslAbsoluteX (addr : Addr)
  | aslA
  -- branches (45_branch.md R181 to R188); the operand is the raw offset byte
  | bcc (offset : Byte)
  | bne (offset : Byte)
  | bcs (offset : Byte)
  | beq (offset : Byte)
  | bmi (offset : Byte)
  | bpl (offset : Byte)
  | bvc (offset : Byte)
  | bvs (offset : Byte)
deriving DecidableEq, Repr

/-- An operand that names a byte of memory: the addressing modes with an effective address, with their operand
(40_cycle_and_addressing.md R118 to R125, R127). -/
inductive MemOperand where
  | zeroPage (zp : Byte)
  | zeroPageX (zp : Byte)
  | zeroPageY (zp : Byte)
  | absolute (addr : Addr)
  | absoluteX (addr : Addr)
  | absoluteY (addr : Addr)
  | indexedIndirect (zp : Byte)
  | indirectIndexed (zp : Byte)
  | indirect (addr : Addr)
deriving DecidableEq, Repr

/-- A source operand of a load or a compare: the operand byte itself (R117), or a byte of memory (R115). -/
inductive Operand where
  | immediate (value : Byte)
  | memory (m : MemOperand)
deriving DecidableEq, Repr

namespace Instr

/-- The instruction a constructor belongs to (30_encoding.md R86). -/
def mnemonic : Instr → Mnemonic
  | ldaImmediate _ | ldaZeroPage _ | ldaZeroPageX _ | ldaAbsolute _ | ldaAbsoluteX _ | ldaAbsoluteY _
  | ldaIndexedIndirect _ | ldaIndirectIndexed _ => .lda
  | ldxImmediate _ | ldxZeroPage _ | ldxZeroPageY _ | ldxAbsolute _ | ldxAbsoluteY _ => .ldx
  | ldyImmediate _ | ldyZeroPage _ | ldyZeroPageX _ | ldyAbsolute _ | ldyAbsoluteX _ => .ldy
  | staZeroPage _ | staZeroPageX _ | staAbsolute _ | staAbsoluteX _ | staAbsoluteY _
  | staIndexedIndirect _ | staIndirectIndexed _ => .sta
  | sec => .sec
  | clc => .clc
  | sei => .sei
  | cli => .cli
  | clv => .clv
  | sed => .sed
  | cld => .cld
  | cmpImmediate _ | cmpZeroPage _ | cmpZeroPageX _ | cmpAbsolute _ | cmpAbsoluteX _ | cmpAbsoluteY _
  | cmpIndexedIndirect _ | cmpIndirectIndexed _ => .cmp
  | cpxImmediate _ | cpxZeroPage _ | cpxAbsolute _ => .cpx
  | cpyImmediate _ | cpyZeroPage _ | cpyAbsolute _ => .cpy
  | aslZeroPage _ | aslZeroPageX _ | aslAbsolute _ | aslAbsoluteX _ => .asl
  | aslA => .aslA
  | bcc _ => .bcc
  | bne _ => .bne
  | bcs _ => .bcs
  | beq _ => .beq
  | bmi _ => .bmi
  | bpl _ => .bpl
  | bvc _ => .bvc
  | bvs _ => .bvs

/-- The addressing mode of a constructor (30_encoding.md R86). -/
def mode : Instr → Mode
  | ldaImmediate _ | ldxImmediate _ | ldyImmediate _ | cmpImmediate _ | cpxImmediate _ | cpyImmediate _ => .immediate
  | ldaZeroPage _ | ldxZeroPage _ | ldyZeroPage _ | staZeroPage _ | cmpZeroPage _ | cpxZeroPage _ | cpyZeroPage _
  | aslZeroPage _ => .zeroPage
  | ldaZeroPageX _ | ldyZeroPageX _ | staZeroPageX _ | cmpZeroPageX _ | aslZeroPageX _ => .zeroPageX
  | ldxZeroPageY _ => .zeroPageY
  | ldaAbsolute _ | ldxAbsolute _ | ldyAbsolute _ | staAbsolute _ | cmpAbsolute _ | cpxAbsolute _ | cpyAbsolute _
  | aslAbsolute _ => .absolute
  | ldaAbsoluteX _ | ldyAbsoluteX _ | staAbsoluteX _ | cmpAbsoluteX _ | aslAbsoluteX _ => .absoluteX
  | ldaAbsoluteY _ | ldxAbsoluteY _ | staAbsoluteY _ | cmpAbsoluteY _ => .absoluteY
  | ldaIndexedIndirect _ | staIndexedIndirect _ | cmpIndexedIndirect _ => .indexedIndirect
  | ldaIndirectIndexed _ | staIndirectIndexed _ | cmpIndirectIndexed _ => .indirectIndexed
  | sec | clc | sei | cli | clv | sed | cld => .implied
  | aslA => .accumulator
  | bcc _ | bne _ | bcs _ | beq _ | bmi _ | bpl _ | bvc _ | bvs _ => .relative

/-- The byte of memory an instruction names as its operand, where its mode has an effective address
(40_cycle_and_addressing.md R115). -/
def memOperand : Instr → Option MemOperand
  | ldaZeroPage zp | ldxZeroPage zp | ldyZeroPage zp | staZeroPage zp | cmpZeroPage zp | cpxZeroPage zp
  | cpyZeroPage zp | aslZeroPage zp => some (.zeroPage zp)
  | ldaZeroPageX zp | ldyZeroPageX zp | staZeroPageX zp | cmpZeroPageX zp | aslZeroPageX zp => some (.zeroPageX zp)
  | ldxZeroPageY zp => some (.zeroPageY zp)
  | ldaAbsolute w | ldxAbsolute w | ldyAbsolute w | staAbsolute w | cmpAbsolute w | cpxAbsolute w | cpyAbsolute w
  | aslAbsolute w => some (.absolute w)
  | ldaAbsoluteX w | ldyAbsoluteX w | staAbsoluteX w | cmpAbsoluteX w | aslAbsoluteX w => some (.absoluteX w)
  | ldaAbsoluteY w | ldxAbsoluteY w | staAbsoluteY w | cmpAbsoluteY w => some (.absoluteY w)
  | ldaIndexedIndirect zp | staIndexedIndirect zp | cmpIndexedIndirect zp => some (.indexedIndirect zp)
  | ldaIndirectIndexed zp | staIndirectIndexed zp | cmpIndirectIndexed zp => some (.indirectIndexed zp)
  | ldaImmediate _ | ldxImmediate _ | ldyImmediate _ | cmpImmediate _ | cpxImmediate _ | cpyImmediate _
  | sec | clc | sei | cli | clv | sed | cld | aslA
  | bcc _ | bne _ | bcs _ | beq _ | bmi _ | bpl _ | bvc _ | bvs _ => none

end Instr

end Sys2Proof
end

