-- ==== Sys2Proof/WellFormed.lean ====
section
/-! DEFINITION. Which instruction has which addressing mode (the "Encoding" line of each rule of 41_load_store.md to
45_branch.md). Every operand VALUE is legal for every admitted opcode (30_encoding.md R89), so the one check there is
to make on an instruction is that its mode is one its mnemonic has: STA has no IMMEDIATE form, the indexed forms of
LDX use Y and those of LDY use X, CPX and CPY have no indexed form, ASL has no ABSOLUTE_Y and no indirect form. -/

namespace Sys2Proof

/-- The addressing modes of each instruction. -/
def Mnemonic.modes : Mnemonic → List Mode
  | .lda => [.immediate, .zeroPage, .zeroPageX, .absolute, .absoluteX, .absoluteY, .indexedIndirect, .indirectIndexed]
  | .ldx => [.immediate, .zeroPage, .zeroPageY, .absolute, .absoluteY]
  | .ldy => [.immediate, .zeroPage, .zeroPageX, .absolute, .absoluteX]
  | .sta => [.zeroPage, .zeroPageX, .absolute, .absoluteX, .absoluteY, .indexedIndirect, .indirectIndexed]
  | .sec | .clc | .sei | .cli | .clv | .sed | .cld => [.implied]
  | .cmp => [.immediate, .zeroPage, .zeroPageX, .absolute, .absoluteX, .absoluteY, .indexedIndirect, .indirectIndexed]
  | .cpx | .cpy => [.immediate, .zeroPage, .absolute]
  | .asl => [.zeroPage, .zeroPageX, .absolute, .absoluteX]
  | .aslA => [.accumulator]
  | .bcc | .bne | .bcs | .beq | .bmi | .bpl | .bvc | .bvs => [.relative]

/-- A mnemonic and a mode go together. -/
def admits (m : Mnemonic) (mode : Mode) : Bool := m.modes.contains mode

/-- The check on an instruction: its mode is one of its mnemonic's. Every term of `Instr` passes it
(Laws/PerInstr.lean); a row of the opcode table, which is a free pair, may fail it. -/
def Instr.wellFormed (i : Instr) : Bool := admits i.mnemonic i.mode

end Sys2Proof
end

