-- ==== Sys2Proof/Decode.lean ====
section
/-! DEFINITION. The opcode table (30_encoding.md R86), the decoder from bytes (R80 to R85, R88), and after it the
encoder. The opcode byte alone decides the instruction, the mode and the number of operand bytes (R80, R82); a byte
without a row is an unknown opcode (R88). -/

namespace Sys2Proof

/-! ## Byte order and lengths -/

/-- `WORD(lo, hi) = hi * 256 + lo` (00_scope.md R13; little-endian, 20_memory.md R56). -/
def word (lo hi : Byte) : Addr := BitVec.ofNat 16 (hi.toNat * 256 + lo.toNat)

/-- Bits 7 to 0 of a 16-bit operand: the byte that stands first in memory (20_memory.md R56). -/
def lowByte (w : Addr) : Byte := BitVec.ofNat 8 (w.toNat % 256)

/-- Bits 15 to 8 of a 16-bit operand: the byte that stands second in memory (20_memory.md R56). -/
def highByte (w : Addr) : Byte := BitVec.ofNat 8 (w.toNat / 256)

/-- The number of operand bytes of each addressing mode (30_encoding.md R83). -/
def Mode.operandBytes : Mode → Nat
  | .implied | .accumulator => 0
  | .immediate | .zeroPage | .zeroPageX | .zeroPageY | .indexedIndirect | .indirectIndexed | .relative => 1
  | .absolute | .absoluteX | .absoluteY | .indirect => 2

/-- `len = 1 + operand byte count` (30_encoding.md R82). -/
def Mode.length (m : Mode) : Nat := 1 + m.operandBytes

/-- The length of an instruction in bytes, 1, 2 or 3 (30_encoding.md R82). -/
def Instr.length (i : Instr) : Nat := i.mode.length

/-! ## The opcode table -/

/-- A row of `OPCODE_TABLE`. -/
structure Row where
  opcode : Byte
  mnemonic : Mnemonic
  mode : Mode
deriving DecidableEq, Repr

/-- The rows of LDA, LDX, LDY and STA. -/
def loadStoreRows : List Row :=
  [⟨0xA9#8, .lda, .immediate⟩, ⟨0xA5#8, .lda, .zeroPage⟩, ⟨0xB5#8, .lda, .zeroPageX⟩, ⟨0xAD#8, .lda, .absolute⟩,
   ⟨0xBD#8, .lda, .absoluteX⟩, ⟨0xB9#8, .lda, .absoluteY⟩, ⟨0xA1#8, .lda, .indexedIndirect⟩,
   ⟨0xB1#8, .lda, .indirectIndexed⟩] ++
  [⟨0xA2#8, .ldx, .immediate⟩, ⟨0xA6#8, .ldx, .zeroPage⟩, ⟨0xB6#8, .ldx, .zeroPageY⟩, ⟨0xAE#8, .ldx, .absolute⟩,
   ⟨0xBE#8, .ldx, .absoluteY⟩] ++
  [⟨0xA0#8, .ldy, .immediate⟩, ⟨0xA4#8, .ldy, .zeroPage⟩, ⟨0xB4#8, .ldy, .zeroPageX⟩, ⟨0xAC#8, .ldy, .absolute⟩,
   ⟨0xBC#8, .ldy, .absoluteX⟩] ++
  [⟨0x85#8, .sta, .zeroPage⟩, ⟨0x95#8, .sta, .zeroPageX⟩, ⟨0x8D#8, .sta, .absolute⟩, ⟨0x9D#8, .sta, .absoluteX⟩,
   ⟨0x99#8, .sta, .absoluteY⟩, ⟨0x81#8, .sta, .indexedIndirect⟩, ⟨0x91#8, .sta, .indirectIndexed⟩]

/-- The rows of the flag instructions. -/
def flagRows : List Row :=
  [⟨0x38#8, .sec, .implied⟩, ⟨0x18#8, .clc, .implied⟩, ⟨0x78#8, .sei, .implied⟩, ⟨0x58#8, .cli, .implied⟩,
   ⟨0xB8#8, .clv, .implied⟩, ⟨0xF8#8, .sed, .implied⟩, ⟨0xD8#8, .cld, .implied⟩]

/-- The rows of CMP, CPX and CPY. -/
def compareRows : List Row :=
  [⟨0xC9#8, .cmp, .immediate⟩, ⟨0xC5#8, .cmp, .zeroPage⟩, ⟨0xD5#8, .cmp, .zeroPageX⟩, ⟨0xCD#8, .cmp, .absolute⟩,
   ⟨0xDD#8, .cmp, .absoluteX⟩, ⟨0xD9#8, .cmp, .absoluteY⟩, ⟨0xC1#8, .cmp, .indexedIndirect⟩,
   ⟨0xD1#8, .cmp, .indirectIndexed⟩] ++
  [⟨0xE0#8, .cpx, .immediate⟩, ⟨0xE4#8, .cpx, .zeroPage⟩, ⟨0xEC#8, .cpx, .absolute⟩] ++
  [⟨0xC0#8, .cpy, .immediate⟩, ⟨0xC4#8, .cpy, .zeroPage⟩, ⟨0xCC#8, .cpy, .absolute⟩]

/-- The rows of ASL and ASL A. -/
def shiftRows : List Row :=
  [⟨0x06#8, .asl, .zeroPage⟩, ⟨0x16#8, .asl, .zeroPageX⟩, ⟨0x0E#8, .asl, .absolute⟩, ⟨0x1E#8, .asl, .absoluteX⟩,
   ⟨0x0A#8, .aslA, .accumulator⟩]

/-- The rows of the branches. -/
def branchRows : List Row :=
  [⟨0x90#8, .bcc, .relative⟩, ⟨0xD0#8, .bne, .relative⟩, ⟨0xB0#8, .bcs, .relative⟩, ⟨0xF0#8, .beq, .relative⟩,
   ⟨0x30#8, .bmi, .relative⟩, ⟨0x10#8, .bpl, .relative⟩, ⟨0x50#8, .bvc, .relative⟩, ⟨0x70#8, .bvs, .relative⟩]

/-- `OPCODE_TABLE`: the 59 admitted opcodes, in the order of 30_encoding.md R86. DESIGN CHOICE: the table is fixed,
not an argument of the model, unsafe (log 15). -/
def opcodeTable : List Row := loadStoreRows ++ flagRows ++ compareRows ++ shiftRows ++ branchRows

/-- The row of an opcode byte, if it is admitted (30_encoding.md R85). -/
def lookupOpcode (op : Byte) : Option Row := opcodeTable.find? fun r => r.opcode == op

/-- The instruction of a mnemonic and a mode with its operand bytes; `none` for a pair that does not exist. The
operand bytes a mode does not have are ignored (30_encoding.md R84). -/
def Instr.ofParts (m : Mnemonic) (mode : Mode) (b1 b2 : Byte) : Option Instr :=
  match m, mode with
  | .lda, .immediate => some (.ldaImmediate b1)
  | .lda, .zeroPage => some (.ldaZeroPage b1)
  | .lda, .zeroPageX => some (.ldaZeroPageX b1)
  | .lda, .absolute => some (.ldaAbsolute (word b1 b2))
  | .lda, .absoluteX => some (.ldaAbsoluteX (word b1 b2))
  | .lda, .absoluteY => some (.ldaAbsoluteY (word b1 b2))
  | .lda, .indexedIndirect => some (.ldaIndexedIndirect b1)
  | .lda, .indirectIndexed => some (.ldaIndirectIndexed b1)
  | .ldx, .immediate => some (.ldxImmediate b1)
  | .ldx, .zeroPage => some (.ldxZeroPage b1)
  | .ldx, .zeroPageY => some (.ldxZeroPageY b1)
  | .ldx, .absolute => some (.ldxAbsolute (word b1 b2))
  | .ldx, .absoluteY => some (.ldxAbsoluteY (word b1 b2))
  | .ldy, .immediate => some (.ldyImmediate b1)
  | .ldy, .zeroPage => some (.ldyZeroPage b1)
  | .ldy, .zeroPageX => some (.ldyZeroPageX b1)
  | .ldy, .absolute => some (.ldyAbsolute (word b1 b2))
  | .ldy, .absoluteX => some (.ldyAbsoluteX (word b1 b2))
  | .sta, .zeroPage => some (.staZeroPage b1)
  | .sta, .zeroPageX => some (.staZeroPageX b1)
  | .sta, .absolute => some (.staAbsolute (word b1 b2))
  | .sta, .absoluteX => some (.staAbsoluteX (word b1 b2))
  | .sta, .absoluteY => some (.staAbsoluteY (word b1 b2))
  | .sta, .indexedIndirect => some (.staIndexedIndirect b1)
  | .sta, .indirectIndexed => some (.staIndirectIndexed b1)
  | .sec, .implied => some .sec
  | .clc, .implied => some .clc
  | .sei, .implied => some .sei
  | .cli, .implied => some .cli
  | .clv, .implied => some .clv
  | .sed, .implied => some .sed
  | .cld, .implied => some .cld
  | .cmp, .immediate => some (.cmpImmediate b1)
  | .cmp, .zeroPage => some (.cmpZeroPage b1)
  | .cmp, .zeroPageX => some (.cmpZeroPageX b1)
  | .cmp, .absolute => some (.cmpAbsolute (word b1 b2))
  | .cmp, .absoluteX => some (.cmpAbsoluteX (word b1 b2))
  | .cmp, .absoluteY => some (.cmpAbsoluteY (word b1 b2))
  | .cmp, .indexedIndirect => some (.cmpIndexedIndirect b1)
  | .cmp, .indirectIndexed => some (.cmpIndirectIndexed b1)
  | .cpx, .immediate => some (.cpxImmediate b1)
  | .cpx, .zeroPage => some (.cpxZeroPage b1)
  | .cpx, .absolute => some (.cpxAbsolute (word b1 b2))
  | .cpy, .immediate => some (.cpyImmediate b1)
  | .cpy, .zeroPage => some (.cpyZeroPage b1)
  | .cpy, .absolute => some (.cpyAbsolute (word b1 b2))
  | .asl, .zeroPage => some (.aslZeroPage b1)
  | .asl, .zeroPageX => some (.aslZeroPageX b1)
  | .asl, .absolute => some (.aslAbsolute (word b1 b2))
  | .asl, .absoluteX => some (.aslAbsoluteX (word b1 b2))
  | .aslA, .accumulator => some .aslA
  | .bcc, .relative => some (.bcc b1)
  | .bne, .relative => some (.bne b1)
  | .bcs, .relative => some (.bcs b1)
  | .beq, .relative => some (.beq b1)
  | .bmi, .relative => some (.bmi b1)
  | .bpl, .relative => some (.bpl b1)
  | .bvc, .relative => some (.bvc b1)
  | .bvs, .relative => some (.bvs b1)
  | _, _ => none

/-! ## Decoding bytes -/

/-- Why a list of bytes is no instruction. -/
inductive DecodeError where
  /-- There is no byte at all. -/
  | noBytes
  /-- The first byte has no row (30_encoding.md R88). -/
  | unknownOpcode (op : Byte)
  /-- The row of the first byte has more operand bytes than the list holds. -/
  | truncated (op : Byte)
deriving DecidableEq, Repr

/-- The instruction of a row with its operand bytes. A row of `opcodeTable` always gives one (Laws/PerInstr.lean). -/
def Row.instr (r : Row) (b1 b2 : Byte) (rest : List Byte) : Except DecodeError (Instr × List Byte) :=
  match Instr.ofParts r.mnemonic r.mode b1 b2 with
  | some i => .ok (i, rest)
  | none => .error (.unknownOpcode r.opcode)

/-- Take the operand bytes a row asks for from the bytes after the opcode (30_encoding.md R81, R83). -/
def decodeOperands (r : Row) (rest : List Byte) : Except DecodeError (Instr × List Byte) :=
  match r.mode.operandBytes, rest with
  | 0, rest => r.instr 0#8 0#8 rest
  | 1, b1 :: rest => r.instr b1 0#8 rest
  | 2, b1 :: b2 :: rest => r.instr b1 b2 rest
  | _, _ => .error (.truncated r.opcode)

/-- Decode the instruction at the head of a list of bytes, and give the bytes after it (30_encoding.md R85). -/
def decode : List Byte → Except DecodeError (Instr × List Byte)
  | [] => .error .noBytes
  | op :: rest =>
    match lookupOpcode op with
    | none => .error (.unknownOpcode op)
    | some r => decodeOperands r rest

/-- The bytes of an instruction whose bits are `w`, bit 0 the least significant bit of the first byte; bits at or
above `nbits` are 0. Three bytes, the longest instruction (30_encoding.md R80). -/
def tableBytes (nbits w : Nat) : List Byte :=
  let v := w % 2 ^ nbits
  [BitVec.ofNat 8 (v % 256), BitVec.ofNat 8 (v / 256 % 256), BitVec.ofNat 8 (v / 65536 % 256)]

/-- The instruction the decoder reads from a word numbered as spec/opcode_table.json numbers its bits. -/
def decodeTableWord (nbits w : Nat) : Option Instr :=
  match decode (tableBytes nbits w) with
  | .ok (i, _) => some i
  | .error _ => none

/-! ## The encoder -/

/-- The opcode byte of an instruction (30_encoding.md R86, the "Encoding" lines of R140 to R188). -/
def Instr.opcode : Instr → Byte
  | .ldaImmediate _ => 0xA9#8
  | .ldaZeroPage _ => 0xA5#8
  | .ldaZeroPageX _ => 0xB5#8
  | .ldaAbsolute _ => 0xAD#8
  | .ldaAbsoluteX _ => 0xBD#8
  | .ldaAbsoluteY _ => 0xB9#8
  | .ldaIndexedIndirect _ => 0xA1#8
  | .ldaIndirectIndexed _ => 0xB1#8
  | .ldxImmediate _ => 0xA2#8
  | .ldxZeroPage _ => 0xA6#8
  | .ldxZeroPageY _ => 0xB6#8
  | .ldxAbsolute _ => 0xAE#8
  | .ldxAbsoluteY _ => 0xBE#8
  | .ldyImmediate _ => 0xA0#8
  | .ldyZeroPage _ => 0xA4#8
  | .ldyZeroPageX _ => 0xB4#8
  | .ldyAbsolute _ => 0xAC#8
  | .ldyAbsoluteX _ => 0xBC#8
  | .staZeroPage _ => 0x85#8
  | .staZeroPageX _ => 0x95#8
  | .staAbsolute _ => 0x8D#8
  | .staAbsoluteX _ => 0x9D#8
  | .staAbsoluteY _ => 0x99#8
  | .staIndexedIndirect _ => 0x81#8
  | .staIndirectIndexed _ => 0x91#8
  | .sec => 0x38#8
  | .clc => 0x18#8
  | .sei => 0x78#8
  | .cli => 0x58#8
  | .clv => 0xB8#8
  | .sed => 0xF8#8
  | .cld => 0xD8#8
  | .cmpImmediate _ => 0xC9#8
  | .cmpZeroPage _ => 0xC5#8
  | .cmpZeroPageX _ => 0xD5#8
  | .cmpAbsolute _ => 0xCD#8
  | .cmpAbsoluteX _ => 0xDD#8
  | .cmpAbsoluteY _ => 0xD9#8
  | .cmpIndexedIndirect _ => 0xC1#8
  | .cmpIndirectIndexed _ => 0xD1#8
  | .cpxImmediate _ => 0xE0#8
  | .cpxZeroPage _ => 0xE4#8
  | .cpxAbsolute _ => 0xEC#8
  | .cpyImmediate _ => 0xC0#8
  | .cpyZeroPage _ => 0xC4#8
  | .cpyAbsolute _ => 0xCC#8
  | .aslZeroPage _ => 0x06#8
  | .aslZeroPageX _ => 0x16#8
  | .aslAbsolute _ => 0x0E#8
  | .aslAbsoluteX _ => 0x1E#8
  | .aslA => 0x0A#8
  | .bcc _ => 0x90#8
  | .bne _ => 0xD0#8
  | .bcs _ => 0xB0#8
  | .beq _ => 0xF0#8
  | .bmi _ => 0x30#8
  | .bpl _ => 0x10#8
  | .bvc _ => 0x50#8
  | .bvs _ => 0x70#8

/-- The operand bytes of an instruction, the one at the lower address first (30_encoding.md R81, R84). -/
def Instr.operands : Instr → List Byte
  | .ldaImmediate b | .ldaZeroPage b | .ldaZeroPageX b | .ldaIndexedIndirect b | .ldaIndirectIndexed b
  | .ldxImmediate b | .ldxZeroPage b | .ldxZeroPageY b
  | .ldyImmediate b | .ldyZeroPage b | .ldyZeroPageX b
  | .staZeroPage b | .staZeroPageX b | .staIndexedIndirect b | .staIndirectIndexed b
  | .cmpImmediate b | .cmpZeroPage b | .cmpZeroPageX b | .cmpIndexedIndirect b | .cmpIndirectIndexed b
  | .cpxImmediate b | .cpxZeroPage b
  | .cpyImmediate b | .cpyZeroPage b
  | .aslZeroPage b | .aslZeroPageX b
  | .bcc b | .bne b | .bcs b | .beq b | .bmi b | .bpl b | .bvc b | .bvs b => [b]
  | .ldaAbsolute w | .ldaAbsoluteX w | .ldaAbsoluteY w | .ldxAbsolute w | .ldxAbsoluteY w
  | .ldyAbsolute w | .ldyAbsoluteX w | .staAbsolute w | .staAbsoluteX w | .staAbsoluteY w
  | .cmpAbsolute w | .cmpAbsoluteX w | .cmpAbsoluteY w | .cpxAbsolute w | .cpyAbsolute w
  | .aslAbsolute w | .aslAbsoluteX w => [lowByte w, highByte w]
  | .sec | .clc | .sei | .cli | .clv | .sed | .cld | .aslA => []

/-- The bytes of an instruction as they stand in memory: the opcode, then the operand bytes (30_encoding.md R80). -/
def encode (i : Instr) : List Byte := i.opcode :: i.operands

end Sys2Proof
end

