-- ==== Sys2Proof/Config.lean ====
section
/-! DEFINITION. The parameters of 00_scope.md R8, and the free values of what the spec leaves open. A value the spec
fixes is a plain definition. A value it leaves OPEN or calls unspecified is an `opaque` constant without a body:
no proof can see what it is, so a claim about it holds for every value. `OPCODE_TABLE` is in Decode.lean. -/

namespace Sys2Proof.Config

/-- `MEM_SIZE`: the number of bytes of Memory (20_memory.md R51). -/
def memSize : Nat := 65536

/-- `MEM_INIT`: what a byte of memory that nothing has written reads as (10_state.md R39). -/
def memInit : Byte := 0x00#8

/-- `RESET_PC` (10_state.md R45). -/
def resetPc : Addr := 0x0600#16

/-- `RESET_A` (10_state.md R45). -/
def resetA : Byte := 0x00#8

/-- `RESET_X` (10_state.md R45). -/
def resetX : Byte := 0x00#8

/-- `RESET_Y` (10_state.md R45). -/
def resetY : Byte := 0x00#8

/-- `RESET_FLAGS`: every flag after reset (10_state.md R45). -/
def resetFlag : Bool := false

/-- `RESET_SP`, OPEN: the stack pointer after reset (10_state.md R25, R45). DESIGN CHOICE, safe (log 2). -/
opaque resetSp : Byte

/-- `CMP_CARRY_ON_EQUAL`, OPEN: C after a compare of equal values (43_compare.md R163).
DESIGN CHOICE, safe (log 3). -/
opaque cmpCarryOnEqual : Bool

/-- A byte the spec calls unspecified, a fresh one for each index (10_state.md R38, 70_reset_and_hazards.md R249).
DESIGN CHOICE, safe (logs 4 and 9). -/
opaque freeByte : Nat → Byte

/-- A 16-bit word the spec calls unspecified (10_state.md R38, 70_reset_and_hazards.md R249).
DESIGN CHOICE, safe (logs 4 and 9). -/
opaque freeAddr : Nat → Addr

/-- A flag value the spec calls unspecified (70_reset_and_hazards.md R249). DESIGN CHOICE, safe (log 9). -/
opaque freeFlag : Nat → Bool

/-- An integer address the spec calls unspecified (10_state.md R38). DESIGN CHOICE, safe (log 4). -/
opaque freeNat : Nat → Nat

/-- The choice of 60_exceptions.md R214: `true` when the core observes a pending stop request before it executes
another instruction, `false` when it executes exactly one more first. DESIGN CHOICE, safe (log 5). -/
opaque stopSeenAtOnce : Nat → Bool

end Sys2Proof.Config
end

