-- ==== Sys2Proof/Machine/State.lean ====
section
/-! DEFINITION. The state of the machine as plain data (10_state.md), the host's moves and the answers to them
(00_scope.md R7, 70_reset_and_hazards.md R250), the reasons a step can stop, and the state after reset (R45). -/

namespace Sys2Proof.Machine

/-- RUN_STATE (10_state.md R36). `stopping` IS the pending stop request (R37). -/
inductive RunState where
  | idle | running | stopping | stopped
deriving DecidableEq, Repr

/-- STOP_CAUSE (10_state.md R38). -/
inductive StopCause where
  | none | unknownOpcode | addressOutOfRange | stopRequested
deriving DecidableEq, Repr

/-- A condition the core raises while it executes an instruction, with what it reports (60_exceptions.md R201, R202).
InvalidStateTransition is not one: it is an answer to the host (R204). -/
inductive Abort where
  | unknownOpcode (op : Byte)
  | addressOutOfRange (addr : Nat)
deriving DecidableEq, Repr

/-- The 8-bit registers (10_state.md R20). -/
inductive Reg where
  | a | x | y | sp
deriving DecidableEq, Repr

/-- The seven flags (10_state.md R29). -/
inductive Flag where
  | c | z | i | d | b | v | n
deriving DecidableEq, Repr

/-- The host's moves (70_reset_and_hazards.md R250). Values written are integers: the register or the memory byte
masks them (R248, 10_state.md R21, 20_memory.md R53). -/
inductive HostMove where
  | reset
  | setReg (r : Reg) (v : Int)
  | setPc (v : Int)
  | setFlag (f : Flag) (v : Bool)
  | setByte (addr : Nat) (v : Int)
  | loadBinaries (bytes : List Int) (loadAddress : Nat)
  | loadAndExecute (bytes : List Int) (loadAddress : Nat)
  | start
  | stopRequest
  | getRunState
  | getStopCause
  | getReg (r : Reg)
  | getPc
  | getFlag (f : Flag)
  | getByte (addr : Nat)
  | waitStopped
deriving DecidableEq, Repr

/-- What the machine answers to a host move (00_scope.md R7: CTRL.state, CTRL.stop_cause, CTRL.rejected, HOST.get). -/
inductive Answer where
  /-- The move was carried out and has nothing to report. -/
  | accepted
  /-- CTRL.rejected: InvalidStateTransition (60_exceptions.md R204). -/
  | rejected
  /-- AddressOutOfRange, reported to the caller of a host operation (70_reset_and_hazards.md R246). -/
  | addressOutOfRange (addr : Nat)
  /-- RUN_STATE (CTRL.state). -/
  | runState (r : RunState)
  /-- STOP_CAUSE with STOP_INFO (CTRL.stop_cause). -/
  | stopCause (c : StopCause) (pc : Addr) (opcode : Byte) (addr : Nat)
  /-- The value of an 8-bit register or of a memory byte. -/
  | byte (v : Byte)
  /-- The value of PC. -/
  | word (v : Addr)
  /-- The value of a flag. -/
  | flag (v : Bool)
  /-- A wait has ended: RUN_STATE is Stopped (60_exceptions.md R217). -/
  | stopped
deriving DecidableEq, Repr

/-- Whose turn it is (00_scope.md R6): the core's, or the host's with its move. -/
inductive Turn where
  | core
  | host (m : HostMove)
deriving DecidableEq, Repr

/-- Memory as a list of addresses and bytes, in the canonical form `Memory.wf` (Machine/Ops.lean): addresses strictly
rising, and no entry equal to what an unlisted address reads as (log 1). -/
abbrev Memory := List Host.Cell

/-- Everything the spec gives the machine (10_state.md R20 to R39), and, last, three fields of the model's own. -/
structure State where
  /-- A, the accumulator (R22). -/
  a : Byte
  /-- X, index register (R23). -/
  x : Byte
  /-- Y, index register (R24). -/
  y : Byte
  /-- SP, the stack pointer, which no instruction reads or writes (R25). -/
  sp : Byte
  /-- PC, the program counter (R26). -/
  pc : Addr
  /-- C, Carry (R30). -/
  flagC : Bool
  /-- Z, Zero (R31). -/
  flagZ : Bool
  /-- I, InterruptDisable (R32). -/
  flagI : Bool
  /-- D, Decimal (R32). -/
  flagD : Bool
  /-- B, Break (R33). -/
  flagB : Bool
  /-- V, Overflow (R33). -/
  flagV : Bool
  /-- N, Negative (R34). -/
  flagN : Bool
  /-- RUN_STATE (R36). -/
  runState : RunState
  /-- STOP_CAUSE (R38). -/
  stopCause : StopCause
  /-- STOP_INFO.pc (R38). -/
  stopInfoPc : Addr
  /-- STOP_INFO.opcode (R38). -/
  stopInfoOpcode : Byte
  /-- STOP_INFO.address (R38). -/
  stopInfoAddress : Nat
  /-- Memory (R39). -/
  mem : Memory
  /-- The model's own: the turns to come; when there is none left, it is the core's turn (log 6). -/
  turns : List Turn
  /-- The model's own: the last answer given to the host (log 12). -/
  answer : Option Answer
  /-- The model's own: the index of the next free value (logs 4, 5 and 9). -/
  freeIndex : Nat
deriving DecidableEq, Repr

/-- The reasons a step stops with a fault: NONE. UnknownOpcode and AddressOutOfRange are taken as the spec describes
them, and the machine then stands in Stopped (60_exceptions.md R205); the spec names no other error that ends the
core's execution (R200). No one raises a value of this type. -/
inductive Fault where
deriving DecidableEq, Repr

/-- The reasons a step has no meaning. -/
inductive Refusal where
  /-- Raised by `exec`'s arm of an instruction that has no meaning yet (no arm of this model). Safe. -/
  | notModelled (mnemonic : String)
  /-- Raised by `hostMove` for a host write, a load or a RESET while the core is Running or Stopping: "outside the
  contract; this spec gives it no meaning" (70_reset_and_hazards.md R240, R251; U9, U10). Safe (log 8). -/
  | hostMoveOutsideContract
deriving DecidableEq, Repr

/-- The machine right after RESET (10_state.md R45, 70_reset_and_hazards.md R240). SP is the open parameter (log 2),
STOP_INFO is unspecified (log 4), and the last three fields are the model's own (log 17). -/
def State.reset : State where
  a := Config.resetA
  x := Config.resetX
  y := Config.resetY
  sp := Config.resetSp
  pc := Config.resetPc
  flagC := Config.resetFlag
  flagZ := Config.resetFlag
  flagI := Config.resetFlag
  flagD := Config.resetFlag
  flagB := Config.resetFlag
  flagV := Config.resetFlag
  flagN := Config.resetFlag
  runState := .idle
  stopCause := .none
  stopInfoPc := Config.freeAddr 0
  stopInfoOpcode := Config.freeByte 0
  stopInfoAddress := Config.freeNat 0
  mem := []
  turns := []
  answer := none
  freeIndex := 1

end Sys2Proof.Machine
end

