-- ==== Sys2Proof/Machine/Ops.lean ====
section
/-! DEFINITION. The named operations over memory, registers, flags and PC, and the two ways the core comes to Stopped:
an ABORT, which is the only "trap" of this machine (60_exceptions.md R205, R221), and the observation of a stop request
(R214). There is NO return from an abort: Stopped is final (R215, R222), and RESET, which is a host move
(Machine/HostMoves.lean), is the only way out. -/

namespace Sys2Proof.Machine

/-! ## Memory -/

/-- The byte at an address: the listed one, or what an unlisted address reads as (10_state.md R39, 20_memory.md R61). -/
def Memory.read : Memory → Nat → Byte
  | [], _ => Config.memInit
  | (k, b) :: m, a => if a = k then b else Memory.read m a

/-- Store a byte and keep the canonical form: storing what an unlisted address reads as removes the entry
(20_memory.md R53; log 1). -/
def Memory.write : Memory → Nat → Byte → Memory
  | [], a, v => if v = Config.memInit then [] else [(a, v)]
  | (k, b) :: m, a, v =>
    if a < k then (if v = Config.memInit then (k, b) :: m else (a, v) :: (k, b) :: m)
    else if a = k then (if v = Config.memInit then m else (a, v) :: m)
    else (k, b) :: Memory.write m a v

/-- The canonical form: addresses below `MEM_SIZE` and strictly rising, no entry equal to what an unlisted address
reads as. -/
def Memory.wf : Memory → Bool
  | [] => true
  | (k, b) :: m =>
    decide (k < Config.memSize) && (b != Config.memInit) && m.all (fun cell => decide (k < cell.1)) && Memory.wf m

/-- Put another memory in the state; nothing else changes. -/
def State.setMem (s : State) (m : Memory) : State := { s with mem := m }

/-- Put another list of turns in the state; nothing else changes (log 6). -/
def State.setTurns (s : State) (ts : List Turn) : State := { s with turns := ts }

/-- Go on to the next free value; nothing else changes (logs 4, 5 and 9). -/
def State.drawFree (s : State) : State := { s with freeIndex := s.freeIndex + 1 }

/-- `MemRead(addr, 1)` (20_memory.md R52, R54). -/
def memRead (s : State) (addr : Nat) : Except Abort Byte :=
  if addr < Config.memSize then .ok (s.mem.read addr) else .error (.addressOutOfRange addr)

/-- `MemWrite(addr, 1, v)` (20_memory.md R53, R54). -/
def memWrite (s : State) (addr : Nat) (v : Byte) : Except Abort State :=
  if addr < Config.memSize then .ok (s.setMem (s.mem.write addr v)) else .error (.addressOutOfRange addr)

/-- `v mod 256`, what a byte of memory or an 8-bit register holds after the integer `v` is written to it
(10_state.md R21, 20_memory.md R53). -/
def maskByte (v : Int) : Byte := BitVec.ofInt 8 v

/-! ## Registers, flags, PC -/

/-- Read an 8-bit register. -/
def State.reg (s : State) : Reg → Byte
  | .a => s.a
  | .x => s.x
  | .y => s.y
  | .sp => s.sp

/-- Write an 8-bit register; no other state changes (10_state.md R21). -/
def State.setReg (s : State) (r : Reg) (v : Byte) : State :=
  match r with
  | .a => { s with a := v }
  | .x => { s with x := v }
  | .y => { s with y := v }
  | .sp => { s with sp := v }

/-- Read a flag. -/
def State.flag (s : State) : Flag → Bool
  | .c => s.flagC
  | .z => s.flagZ
  | .i => s.flagI
  | .d => s.flagD
  | .b => s.flagB
  | .v => s.flagV
  | .n => s.flagN

/-- Write one flag and no other (10_state.md R29, 00_scope.md R10). -/
def State.setFlag (s : State) (f : Flag) (v : Bool) : State :=
  match f with
  | .c => { s with flagC := v }
  | .z => { s with flagZ := v }
  | .i => { s with flagI := v }
  | .d => { s with flagD := v }
  | .b => { s with flagB := v }
  | .v => { s with flagV := v }
  | .n => { s with flagN := v }

/-- `PC <- v`, stored mod 65536 (10_state.md R21, R28). -/
def State.writePc (s : State) (v : Int) : State := { s with pc := BitVec.ofInt 16 v }

/-- `PC <- PC + len`, the last phase of the cycle (40_cycle_and_addressing.md R112; `NEXT` of 00_scope.md R13). -/
def State.advance (s : State) (len : Nat) : State := s.writePc ((s.pc.toNat + len : Nat) : Int)

/-! ## Coming to Stopped -/

/-- The number of STOP_CAUSE and of the error names (10_state.md R38, 60_exceptions.md R200; arbitrary labels, D15). -/
def StopCause.code : StopCause → Nat
  | .none => 0
  | .unknownOpcode => 1
  | .addressOutOfRange => 2
  | .stopRequested => 4

/-- The number of RUN_STATE (10_state.md R36; arbitrary labels, D15). -/
def RunState.code : RunState → Nat
  | .idle => 0
  | .running => 1
  | .stopping => 2
  | .stopped => 3

/-- The number of InvalidStateTransition, which is never a stop cause (10_state.md R38, 60_exceptions.md R200). -/
def invalidStateTransitionCode : Nat := 3

/-- The number of an answer that reports an error (60_exceptions.md R200). -/
def Answer.errorCode : Answer → Option Nat
  | .rejected => some invalidStateTransitionCode
  | .addressOutOfRange _ => some StopCause.addressOutOfRange.code
  | _ => Option.none

/-- The abort of an instruction (60_exceptions.md R205): RUN_STATE, STOP_CAUSE and STOP_INFO are written as R201 and
R202 say, and NOTHING else changes: PC keeps the address of the instruction's opcode byte. The STOP_INFO field that
does not apply takes a free value (10_state.md R38; log 4). -/
def State.abort (s : State) : Abort → State
  | .unknownOpcode op =>
    { s with
      runState := .stopped
      stopCause := .unknownOpcode
      stopInfoPc := s.pc
      stopInfoOpcode := op
      stopInfoAddress := Config.freeNat s.freeIndex
      freeIndex := s.freeIndex + 1 }
  | .addressOutOfRange addr =>
    { s with
      runState := .stopped
      stopCause := .addressOutOfRange
      stopInfoPc := s.pc
      stopInfoOpcode := Config.freeByte s.freeIndex
      stopInfoAddress := addr
      freeIndex := s.freeIndex + 1 }

/-- The core observes a stop request at an instruction boundary (60_exceptions.md R214(a)): STOP_INFO.pc is the address
of the next instruction, its other fields do not apply and take free values (10_state.md R38; log 4). -/
def State.observeStop (s : State) : State :=
  { s with
    runState := .stopped
    stopCause := .stopRequested
    stopInfoPc := s.pc
    stopInfoOpcode := Config.freeByte s.freeIndex
    stopInfoAddress := Config.freeNat s.freeIndex
    freeIndex := s.freeIndex + 1 }

/-- The end of every instruction: it completes with the state its effect gives, or it aborts, and then every register,
flag and memory write of it is discarded (00_scope.md R11, 60_exceptions.md R205). Both are next states. -/
def finish (s : State) : Except Abort State → Host.Outcome State Fault Refusal
  | .ok t => .next t
  | .error e => .next (s.abort e)

/-- Store bytes at an address and the ones after it, below `MEM_SIZE` only (what `State.withFetchWord` stands on). -/
def storeBytes (m : Memory) (addr : Nat) : List Byte → Memory
  | [] => m
  | b :: bs => storeBytes (if addr < Config.memSize then m.write addr b else m) (addr + 1) bs

end Sys2Proof.Machine
end

