-- ==== Sys2Proof/Machine/Operands.lean ====
section
/-! DEFINITION. The 16-bit address path (00_scope.md R12 to R14) and the addressing-mode resolvers
(40_cycle_and_addressing.md R115 to R127). Address sums are plain natural numbers with exactly the reductions the spec
writes. Resolution reads the state and never changes it (R114): a resolver gives no state. -/

namespace Sys2Proof.Machine

/-- `ADD8W(a, b) = (a + b) mod 256` (00_scope.md R12). -/
def add8w (a b : Byte) : Byte := a + b

/-- `IDX(base, i) = base + i`, NOT reduced mod 65536 (00_scope.md R13). -/
def idx (base : Addr) (i : Byte) : Nat := base.toNat + i.toNat

/-- `sext_8(v)`: `v` when `v < 128`, `v - 256` otherwise (00_scope.md R9). -/
def sext8 (v : Byte) : Int := if v.toNat < 128 then (v.toNat : Int) else (v.toNat : Int) - 256

/-- `REL(base, off) = base + sext_8(off)`, an unbounded integer (00_scope.md R13). -/
def rel (base : Nat) (off : Byte) : Int := (base : Int) + sext8 off

/-- A pointer in memory: the low byte at `p`, then the high byte at `p + 1`, which is NOT reduced to the page or to 16
bits (40_cycle_and_addressing.md R124, R125, R127; 20_memory.md R56). -/
def readPointer (p : Nat) (s : State) : Except Abort Addr :=
  match memRead s p with
  | .error e => .error e
  | .ok lo =>
    match memRead s (p + 1) with
    | .error e => .error e
    | .ok hi => .ok (word lo hi)

/-- The effective address of each mode that has one (40_cycle_and_addressing.md R118 to R125, R127). It may lie at or
above `MEM_SIZE`: then the ACCESS that uses it raises (20_memory.md R54). -/
def effectiveAddress (m : MemOperand) (s : State) : Except Abort Nat :=
  match m with
  | .zeroPage zp => .ok zp.toNat
  | .zeroPageX zp => .ok (add8w zp s.x).toNat
  | .zeroPageY zp => .ok (add8w zp s.y).toNat
  | .absolute w => .ok w.toNat
  | .absoluteX w => .ok (idx w s.x)
  | .absoluteY w => .ok (idx w s.y)
  | .indexedIndirect zp =>
    match readPointer (add8w zp s.x).toNat s with
    | .error e => .error e
    | .ok ea => .ok ea.toNat
  | .indirectIndexed zp =>
    match readPointer zp.toNat s with
    | .error e => .error e
    | .ok base => .ok (idx base s.y)
  | .indirect w =>
    match readPointer w.toNat s with
    | .error e => .error e
    | .ok ea => .ok ea.toNat

/-- The byte at the effective address (40_cycle_and_addressing.md R115). -/
def readMemOperand (m : MemOperand) (s : State) : Except Abort Byte :=
  match effectiveAddress m s with
  | .error e => .error e
  | .ok ea => memRead s ea

/-- The resolved value of a source operand: the operand byte itself (R117), or the byte at the effective address
(R115). -/
def readOperand (o : Operand) (s : State) : Except Abort Byte :=
  match o with
  | .immediate v => .ok v
  | .memory m => readMemOperand m s

/-- Store a byte at the effective address; the old byte is not read (41_load_store.md R143). -/
def writeMemOperand (m : MemOperand) (v : Byte) (s : State) : Except Abort State :=
  match effectiveAddress m s with
  | .error e => .error e
  | .ok ea => memWrite s ea v

end Sys2Proof.Machine
end

