-- ==== Sys2Proof/Machine/Branch.lean ====
section
/-! DEFINITION. Conditional branches: BCC, BNE, BCS, BEQ, BMI, BPL, BVC, BVS (45_branch.md R180 to R188, R190). -/

namespace Sys2Proof.Machine

/-- The effect of a branch with condition `cond` and offset byte `off`: the base of the offset is the post-fetch position
`PC + 2`, and the sum is reduced mod 65536 only by the write to PC (R180). -/
def branchIf (cond : Bool) (off : Byte) (s : State) : Except Abort State :=
  .ok (if cond then s.writePc (rel (s.pc.toNat + 2) off) else s.advance 2)

/-- BCC: branch if C is clear (R181). -/
def execBcc (offset : Byte) (s : State) : Host.Outcome State Fault Refusal :=
  finish s (branchIf (!s.flagC) offset s)

/-- BNE: branch if Z is clear (R182). -/
def execBne (offset : Byte) (s : State) : Host.Outcome State Fault Refusal :=
  finish s (branchIf (!s.flagZ) offset s)

/-- BCS: branch if C is set (R183). -/
def execBcs (offset : Byte) (s : State) : Host.Outcome State Fault Refusal :=
  finish s (branchIf s.flagC offset s)

/-- BEQ: branch if Z is set (R184). -/
def execBeq (offset : Byte) (s : State) : Host.Outcome State Fault Refusal :=
  finish s (branchIf s.flagZ offset s)

/-- BMI: branch if N is set (R185). -/
def execBmi (offset : Byte) (s : State) : Host.Outcome State Fault Refusal :=
  finish s (branchIf s.flagN offset s)

/-- BPL: branch if N is clear (R186). -/
def execBpl (offset : Byte) (s : State) : Host.Outcome State Fault Refusal :=
  finish s (branchIf (!s.flagN) offset s)

/-- BVC: branch if V is clear (R187). -/
def execBvc (offset : Byte) (s : State) : Host.Outcome State Fault Refusal :=
  finish s (branchIf (!s.flagV) offset s)

/-- BVS: branch if V is set (R188). -/
def execBvs (offset : Byte) (s : State) : Host.Outcome State Fault Refusal :=
  finish s (branchIf s.flagV offset s)

end Sys2Proof.Machine
end

