-- ==== Sys2Proof/Machine/Flags.lean ====
section
/-! DEFINITION. The 8-bit path (00_scope.md R12) and every flag computation: Z and N from a byte (41_load_store.md),
Z and C of a compare (43_compare.md R163, R164), C, Z and N of a shift (44_shift.md). -/

namespace Sys2Proof.Machine

/-- `z` of `PASS8` and `SHL8`: the byte is 0 (00_scope.md R12). -/
def isZero (v : Byte) : Bool := v == 0#8

/-- `n` of `PASS8` and `SHL8`: bit 7 of the byte (00_scope.md R12). -/
def bit7 (v : Byte) : Bool := v.getLsbD 7

/-- `SHL8`: `(v * 2) mod 256` (00_scope.md R12). -/
def shl8 (v : Byte) : Byte := BitVec.ofNat 8 (v.toNat * 2 % 256)

/-- `CMPU8.eq` (00_scope.md R12). -/
def cmpEq (r m : Byte) : Bool := r == m

/-- `CMPU8.ge`, on the unsigned values (00_scope.md R12). `cmpCarry` is this but for equal bytes. -/
def cmpGe (r m : Byte) : Bool := decide (m.toNat ≤ r.toNat)

/-- `cmp_carry` (43_compare.md R163): open for equal bytes (log 3). -/
def cmpCarry (r m : Byte) : Bool := if cmpEq r m then Config.cmpCarryOnEqual else cmpGe r m

/-- Z and N from a byte, no other flag (10_state.md R31, R34). -/
def State.setZN (s : State) (v : Byte) : State := (s.setFlag .z (isZero v)).setFlag .n (bit7 v)

/-- The flags of a compare of register `r` with operand `m`: Z and C, and NOT N (43_compare.md R164). -/
def State.setCompare (s : State) (r m : Byte) : State := (s.setFlag .z (cmpEq r m)).setFlag .c (cmpCarry r m)

/-- The flags of a shift of the byte `v`: C is the bit shifted out, Z and N are the result's (44_shift.md R170). -/
def State.setShift (s : State) (v : Byte) : State := (s.setFlag .c (bit7 v)).setZN (shl8 v)

end Sys2Proof.Machine
end

