-- ==== Sys2Proof/Machine/Compare.lean ====
section
/-! DEFINITION. Compares: CMP, CPX, CPY (43_compare.md R160 to R165). -/

namespace Sys2Proof.Machine

/-- The effect of a compare of register `r` with the operand `o`, for an instruction of `len` bytes: Z and C and PC, and
nothing else (R160 to R164). -/
def compareReg (r : Reg) (o : Operand) (len : Nat) (s : State) : Except Abort State :=
  match readOperand o s with
  | .error e => .error e
  | .ok m => .ok ((s.setCompare (s.reg r) m).advance len)

/-- CMP IMMEDIATE (R160; R117). -/
def execCmpImmediate (value : Byte) (s : State) : Host.Outcome State Fault Refusal :=
  finish s (compareReg .a (.immediate value) 2 s)

/-- CMP ZERO_PAGE (R160; R118). -/
def execCmpZeroPage (zp : Byte) (s : State) : Host.Outcome State Fault Refusal :=
  finish s (compareReg .a (.memory (.zeroPage zp)) 2 s)

/-- CMP ZERO_PAGE_X (R160; R119). -/
def execCmpZeroPageX (zp : Byte) (s : State) : Host.Outcome State Fault Refusal :=
  finish s (compareReg .a (.memory (.zeroPageX zp)) 2 s)

/-- CMP ABSOLUTE (R160; R121). -/
def execCmpAbsolute (addr : Addr) (s : State) : Host.Outcome State Fault Refusal :=
  finish s (compareReg .a (.memory (.absolute addr)) 3 s)

/-- CMP ABSOLUTE_X (R160; R122). -/
def execCmpAbsoluteX (addr : Addr) (s : State) : Host.Outcome State Fault Refusal :=
  finish s (compareReg .a (.memory (.absoluteX addr)) 3 s)

/-- CMP ABSOLUTE_Y (R160; R123). -/
def execCmpAbsoluteY (addr : Addr) (s : State) : Host.Outcome State Fault Refusal :=
  finish s (compareReg .a (.memory (.absoluteY addr)) 3 s)

/-- CMP INDEXED_INDIRECT (R160; R124). -/
def execCmpIndexedIndirect (zp : Byte) (s : State) : Host.Outcome State Fault Refusal :=
  finish s (compareReg .a (.memory (.indexedIndirect zp)) 2 s)

/-- CMP INDIRECT_INDEXED (R160; R125). -/
def execCmpIndirectIndexed (zp : Byte) (s : State) : Host.Outcome State Fault Refusal :=
  finish s (compareReg .a (.memory (.indirectIndexed zp)) 2 s)

/-- CPX IMMEDIATE (R161; R117). -/
def execCpxImmediate (value : Byte) (s : State) : Host.Outcome State Fault Refusal :=
  finish s (compareReg .x (.immediate value) 2 s)

/-- CPX ZERO_PAGE (R161; R118). -/
def execCpxZeroPage (zp : Byte) (s : State) : Host.Outcome State Fault Refusal :=
  finish s (compareReg .x (.memory (.zeroPage zp)) 2 s)

/-- CPX ABSOLUTE (R161; R121). -/
def execCpxAbsolute (addr : Addr) (s : State) : Host.Outcome State Fault Refusal :=
  finish s (compareReg .x (.memory (.absolute addr)) 3 s)

/-- CPY IMMEDIATE (R162; R117). -/
def execCpyImmediate (value : Byte) (s : State) : Host.Outcome State Fault Refusal :=
  finish s (compareReg .y (.immediate value) 2 s)

/-- CPY ZERO_PAGE (R162; R118). -/
def execCpyZeroPage (zp : Byte) (s : State) : Host.Outcome State Fault Refusal :=
  finish s (compareReg .y (.memory (.zeroPage zp)) 2 s)

/-- CPY ABSOLUTE (R162; R121). -/
def execCpyAbsolute (addr : Addr) (s : State) : Host.Outcome State Fault Refusal :=
  finish s (compareReg .y (.memory (.absolute addr)) 3 s)

end Sys2Proof.Machine
end

