-- ==== Sys2Proof/Machine/FlagOps.lean ====
section
/-! DEFINITION. Flag set and clear: SEC, CLC, SEI, CLI, CLV, SED, CLD (42_flag_ops.md R150 to R156). -/

namespace Sys2Proof.Machine

/-- The effect of a flag instruction: one flag, and PC past the one byte (R150 to R156). -/
def writeFlag (f : Flag) (v : Bool) (s : State) : Except Abort State := .ok ((s.setFlag f v).advance 1)

/-- SEC (R150). -/
def execSec (s : State) : Host.Outcome State Fault Refusal :=
  finish s (writeFlag .c true s)

/-- CLC (R151). -/
def execClc (s : State) : Host.Outcome State Fault Refusal :=
  finish s (writeFlag .c false s)

/-- SEI (R152). -/
def execSei (s : State) : Host.Outcome State Fault Refusal :=
  finish s (writeFlag .i true s)

/-- CLI (R153). -/
def execCli (s : State) : Host.Outcome State Fault Refusal :=
  finish s (writeFlag .i false s)

/-- CLV (R154). -/
def execClv (s : State) : Host.Outcome State Fault Refusal :=
  finish s (writeFlag .v false s)

/-- SED (R155). -/
def execSed (s : State) : Host.Outcome State Fault Refusal :=
  finish s (writeFlag .d true s)

/-- CLD (R156). -/
def execCld (s : State) : Host.Outcome State Fault Refusal :=
  finish s (writeFlag .d false s)

end Sys2Proof.Machine
end

