-- ==== Sys2Proof/Machine/Load.lean ====
section
/-! DEFINITION. Register loads: LDA, LDX, LDY (41_load_store.md R140 to R142). -/

namespace Sys2Proof.Machine

/-- The effect of a load of register `r` from the operand `o`, for an instruction of `len` bytes: the operand is
resolved first, with the old registers; then the register, Z and N, and PC are written (R140 to R142). -/
def loadReg (r : Reg) (o : Operand) (len : Nat) (s : State) : Except Abort State :=
  match readOperand o s with
  | .error e => .error e
  | .ok v => .ok (((s.setReg r v).setZN v).advance len)

/-- LDA IMMEDIATE (R140; R117). -/
def execLdaImmediate (value : Byte) (s : State) : Host.Outcome State Fault Refusal :=
  finish s (loadReg .a (.immediate value) 2 s)

/-- LDA ZERO_PAGE (R140; R118). -/
def execLdaZeroPage (zp : Byte) (s : State) : Host.Outcome State Fault Refusal :=
  finish s (loadReg .a (.memory (.zeroPage zp)) 2 s)

/-- LDA ZERO_PAGE_X (R140; R119). -/
def execLdaZeroPageX (zp : Byte) (s : State) : Host.Outcome State Fault Refusal :=
  finish s (loadReg .a (.memory (.zeroPageX zp)) 2 s)

/-- LDA ABSOLUTE (R140; R121). -/
def execLdaAbsolute (addr : Addr) (s : State) : Host.Outcome State Fault Refusal :=
  finish s (loadReg .a (.memory (.absolute addr)) 3 s)

/-- LDA ABSOLUTE_X (R140; R122). -/
def execLdaAbsoluteX (addr : Addr) (s : State) : Host.Outcome State Fault Refusal :=
  finish s (loadReg .a (.memory (.absoluteX addr)) 3 s)

/-- LDA ABSOLUTE_Y (R140; R123). -/
def execLdaAbsoluteY (addr : Addr) (s : State) : Host.Outcome State Fault Refusal :=
  finish s (loadReg .a (.memory (.absoluteY addr)) 3 s)

/-- LDA INDEXED_INDIRECT (R140; R124). -/
def execLdaIndexedIndirect (zp : Byte) (s : State) : Host.Outcome State Fault Refusal :=
  finish s (loadReg .a (.memory (.indexedIndirect zp)) 2 s)

/-- LDA INDIRECT_INDEXED (R140; R125). -/
def execLdaIndirectIndexed (zp : Byte) (s : State) : Host.Outcome State Fault Refusal :=
  finish s (loadReg .a (.memory (.indirectIndexed zp)) 2 s)

/-- LDX IMMEDIATE (R141; R117). -/
def execLdxImmediate (value : Byte) (s : State) : Host.Outcome State Fault Refusal :=
  finish s (loadReg .x (.immediate value) 2 s)

/-- LDX ZERO_PAGE (R141; R118). -/
def execLdxZeroPage (zp : Byte) (s : State) : Host.Outcome State Fault Refusal :=
  finish s (loadReg .x (.memory (.zeroPage zp)) 2 s)

/-- LDX ZERO_PAGE_Y (R141; R120). -/
def execLdxZeroPageY (zp : Byte) (s : State) : Host.Outcome State Fault Refusal :=
  finish s (loadReg .x (.memory (.zeroPageY zp)) 2 s)

/-- LDX ABSOLUTE (R141; R121). -/
def execLdxAbsolute (addr : Addr) (s : State) : Host.Outcome State Fault Refusal :=
  finish s (loadReg .x (.memory (.absolute addr)) 3 s)

/-- LDX ABSOLUTE_Y (R141; R123). -/
def execLdxAbsoluteY (addr : Addr) (s : State) : Host.Outcome State Fault Refusal :=
  finish s (loadReg .x (.memory (.absoluteY addr)) 3 s)

/-- LDY IMMEDIATE (R142; R117). -/
def execLdyImmediate (value : Byte) (s : State) : Host.Outcome State Fault Refusal :=
  finish s (loadReg .y (.immediate value) 2 s)

/-- LDY ZERO_PAGE (R142; R118). -/
def execLdyZeroPage (zp : Byte) (s : State) : Host.Outcome State Fault Refusal :=
  finish s (loadReg .y (.memory (.zeroPage zp)) 2 s)

/-- LDY ZERO_PAGE_X (R142; R119). -/
def execLdyZeroPageX (zp : Byte) (s : State) : Host.Outcome State Fault Refusal :=
  finish s (loadReg .y (.memory (.zeroPageX zp)) 2 s)

/-- LDY ABSOLUTE (R142; R121). -/
def execLdyAbsolute (addr : Addr) (s : State) : Host.Outcome State Fault Refusal :=
  finish s (loadReg .y (.memory (.absolute addr)) 3 s)

/-- LDY ABSOLUTE_X (R142; R122). -/
def execLdyAbsoluteX (addr : Addr) (s : State) : Host.Outcome State Fault Refusal :=
  finish s (loadReg .y (.memory (.absoluteX addr)) 3 s)

end Sys2Proof.Machine
end

