-- ==== Sys2Proof/Machine/Shift.lean ====
section
/-! DEFINITION. Shift left: ASL and ASL A (44_shift.md R170, R171). -/

namespace Sys2Proof.Machine

/-- The effect of ASL on the memory operand `m`, for an instruction of `len` bytes: the byte is read once and the result
written once, to the same address, before the flags and PC are written (R170; 40_cycle_and_addressing.md R113, R129). -/
def shiftMemory (m : MemOperand) (len : Nat) (s : State) : Except Abort State :=
  match effectiveAddress m s with
  | .error e => .error e
  | .ok ea =>
    match memRead s ea with
    | .error e => .error e
    | .ok v =>
      match memWrite s ea (shl8 v) with
      | .error e => .error e
      | .ok t => .ok ((t.setShift v).advance len)

/-- ASL ZERO_PAGE (R170; R118). -/
def execAslZeroPage (zp : Byte) (s : State) : Host.Outcome State Fault Refusal :=
  finish s (shiftMemory (.zeroPage zp) 2 s)

/-- ASL ZERO_PAGE_X (R170; R119). -/
def execAslZeroPageX (zp : Byte) (s : State) : Host.Outcome State Fault Refusal :=
  finish s (shiftMemory (.zeroPageX zp) 2 s)

/-- ASL ABSOLUTE (R170; R121). -/
def execAslAbsolute (addr : Addr) (s : State) : Host.Outcome State Fault Refusal :=
  finish s (shiftMemory (.absolute addr) 3 s)

/-- ASL ABSOLUTE_X (R170; R122). -/
def execAslAbsoluteX (addr : Addr) (s : State) : Host.Outcome State Fault Refusal :=
  finish s (shiftMemory (.absoluteX addr) 3 s)

/-- ASL A (R171; R116). -/
def execAslA (s : State) : Host.Outcome State Fault Refusal :=
  finish s (.ok (((s.setReg .a (shl8 s.a)).setShift s.a).advance 1))

end Sys2Proof.Machine
end

