-- ==== Sys2Proof/Machine/Store.lean ====
section
/-! DEFINITION. Store accumulator: STA (41_load_store.md R143). -/

namespace Sys2Proof.Machine

/-- The effect of STA to the memory operand `m`, for an instruction of `len` bytes: one byte is written, no register but
PC and no flag (R143). -/
def storeA (m : MemOperand) (len : Nat) (s : State) : Except Abort State :=
  match writeMemOperand m s.a s with
  | .error e => .error e
  | .ok t => .ok (t.advance len)

/-- STA ZERO_PAGE (R143; R118). -/
def execStaZeroPage (zp : Byte) (s : State) : Host.Outcome State Fault Refusal :=
  finish s (storeA (.zeroPage zp) 2 s)

/-- STA ZERO_PAGE_X (R143; R119). -/
def execStaZeroPageX (zp : Byte) (s : State) : Host.Outcome State Fault Refusal :=
  finish s (storeA (.zeroPageX zp) 2 s)

/-- STA ABSOLUTE (R143; R121). -/
def execStaAbsolute (addr : Addr) (s : State) : Host.Outcome State Fault Refusal :=
  finish s (storeA (.absolute addr) 3 s)

/-- STA ABSOLUTE_X (R143; R122). -/
def execStaAbsoluteX (addr : Addr) (s : State) : Host.Outcome State Fault Refusal :=
  finish s (storeA (.absoluteX addr) 3 s)

/-- STA ABSOLUTE_Y (R143; R123). -/
def execStaAbsoluteY (addr : Addr) (s : State) : Host.Outcome State Fault Refusal :=
  finish s (storeA (.absoluteY addr) 3 s)

/-- STA INDEXED_INDIRECT (R143; R124). -/
def execStaIndexedIndirect (zp : Byte) (s : State) : Host.Outcome State Fault Refusal :=
  finish s (storeA (.indexedIndirect zp) 2 s)

/-- STA INDIRECT_INDEXED (R143; R125). -/
def execStaIndirectIndexed (zp : Byte) (s : State) : Host.Outcome State Fault Refusal :=
  finish s (storeA (.indirectIndexed zp) 2 s)

end Sys2Proof.Machine
end

