-- ==== Sys2Proof/Machine/Dispatch.lean ====
section
/-! DEFINITION. The dispatch: one arm per instruction, each a direct call of its meaning. -/

namespace Sys2Proof.Machine

def exec (i : Instr) (s : State) : Host.Outcome State Fault Refusal :=
  match i with
  | .ldaImmediate value => Sys2Proof.Machine.execLdaImmediate value s
  | .ldaZeroPage zp => Sys2Proof.Machine.execLdaZeroPage zp s
  | .ldaZeroPageX zp => Sys2Proof.Machine.execLdaZeroPageX zp s
  | .ldaAbsolute addr => Sys2Proof.Machine.execLdaAbsolute addr s
  | .ldaAbsoluteX addr => Sys2Proof.Machine.execLdaAbsoluteX addr s
  | .ldaAbsoluteY addr => Sys2Proof.Machine.execLdaAbsoluteY addr s
  | .ldaIndexedIndirect zp => Sys2Proof.Machine.execLdaIndexedIndirect zp s
  | .ldaIndirectIndexed zp => Sys2Proof.Machine.execLdaIndirectIndexed zp s
  | .ldxImmediate value => Sys2Proof.Machine.execLdxImmediate value s
  | .ldxZeroPage zp => Sys2Proof.Machine.execLdxZeroPage zp s
  | .ldxZeroPageY zp => Sys2Proof.Machine.execLdxZeroPageY zp s
  | .ldxAbsolute addr => Sys2Proof.Machine.execLdxAbsolute addr s
  | .ldxAbsoluteY addr => Sys2Proof.Machine.execLdxAbsoluteY addr s
  | .ldyImmediate value => Sys2Proof.Machine.execLdyImmediate value s
  | .ldyZeroPage zp => Sys2Proof.Machine.execLdyZeroPage zp s
  | .ldyZeroPageX zp => Sys2Proof.Machine.execLdyZeroPageX zp s
  | .ldyAbsolute addr => Sys2Proof.Machine.execLdyAbsolute addr s
  | .ldyAbsoluteX addr => Sys2Proof.Machine.execLdyAbsoluteX addr s
  | .staZeroPage zp => Sys2Proof.Machine.execStaZeroPage zp s
  | .staZeroPageX zp => Sys2Proof.Machine.execStaZeroPageX zp s
  | .staAbsolute addr => Sys2Proof.Machine.execStaAbsolute addr s
  | .staAbsoluteX addr => Sys2Proof.Machine.execStaAbsoluteX addr s
  | .staAbsoluteY addr => Sys2Proof.Machine.execStaAbsoluteY addr s
  | .staIndexedIndirect zp => Sys2Proof.Machine.execStaIndexedIndirect zp s
  | .staIndirectIndexed zp => Sys2Proof.Machine.execStaIndirectIndexed zp s
  | .sec => Sys2Proof.Machine.execSec s
  | .clc => Sys2Proof.Machine.execClc s
  | .sei => Sys2Proof.Machine.execSei s
  | .cli => Sys2Proof.Machine.execCli s
  | .clv => Sys2Proof.Machine.execClv s
  | .sed => Sys2Proof.Machine.execSed s
  | .cld => Sys2Proof.Machine.execCld s
  | .cmpImmediate value => Sys2Proof.Machine.execCmpImmediate value s
  | .cmpZeroPage zp => Sys2Proof.Machine.execCmpZeroPage zp s
  | .cmpZeroPageX zp => Sys2Proof.Machine.execCmpZeroPageX zp s
  | .cmpAbsolute addr => Sys2Proof.Machine.execCmpAbsolute addr s
  | .cmpAbsoluteX addr => Sys2Proof.Machine.execCmpAbsoluteX addr s
  | .cmpAbsoluteY addr => Sys2Proof.Machine.execCmpAbsoluteY addr s
  | .cmpIndexedIndirect zp => Sys2Proof.Machine.execCmpIndexedIndirect zp s
  | .cmpIndirectIndexed zp => Sys2Proof.Machine.execCmpIndirectIndexed zp s
  | .cpxImmediate value => Sys2Proof.Machine.execCpxImmediate value s
  | .cpxZeroPage zp => Sys2Proof.Machine.execCpxZeroPage zp s
  | .cpxAbsolute addr => Sys2Proof.Machine.execCpxAbsolute addr s
  | .cpyImmediate value => Sys2Proof.Machine.execCpyImmediate value s
  | .cpyZeroPage zp => Sys2Proof.Machine.execCpyZeroPage zp s
  | .cpyAbsolute addr => Sys2Proof.Machine.execCpyAbsolute addr s
  | .aslZeroPage zp => Sys2Proof.Machine.execAslZeroPage zp s
  | .aslZeroPageX zp => Sys2Proof.Machine.execAslZeroPageX zp s
  | .aslAbsolute addr => Sys2Proof.Machine.execAslAbsolute addr s
  | .aslAbsoluteX addr => Sys2Proof.Machine.execAslAbsoluteX addr s
  | .aslA => Sys2Proof.Machine.execAslA s
  | .bcc offset => Sys2Proof.Machine.execBcc offset s
  | .bne offset => Sys2Proof.Machine.execBne offset s
  | .bcs offset => Sys2Proof.Machine.execBcs offset s
  | .beq offset => Sys2Proof.Machine.execBeq offset s
  | .bmi offset => Sys2Proof.Machine.execBmi offset s
  | .bpl offset => Sys2Proof.Machine.execBpl offset s
  | .bvc offset => Sys2Proof.Machine.execBvc offset s
  | .bvs offset => Sys2Proof.Machine.execBvs offset s

end Sys2Proof.Machine
end

