-- ==== Sys2Proof/Machine/Fetch.lean ====
section
/-! DEFINITION. Phases 1 and 2 of the cycle: fetching the opcode at PC and the operand bytes its row asks for
(40_cycle_and_addressing.md R110, R111; 30_encoding.md R85). The fetch changes no state. -/

namespace Sys2Proof.Machine

/-- The instruction of a row with the operand bytes fetched for it. -/
def assemble (r : Row) (b1 b2 : Byte) : Except Abort Instr :=
  match Instr.ofParts r.mnemonic r.mode b1 b2 with
  | some i => .ok i
  | none => .error (.unknownOpcode r.opcode)

/-- Read the operand bytes of a row at `PC + 1` and `PC + 2`, in this order, no more of them than the row has. The
addresses are not wrapped to 16 bits (40_cycle_and_addressing.md R111). -/
def fetchOperands (r : Row) (s : State) : Except Abort Instr :=
  match r.mode.operandBytes with
  | 0 => assemble r 0#8 0#8
  | 1 =>
    match memRead s (s.pc.toNat + 1) with
    | .error e => .error e
    | .ok b1 => assemble r b1 0#8
  | _ =>
    match memRead s (s.pc.toNat + 1) with
    | .error e => .error e
    | .ok b1 =>
      match memRead s (s.pc.toNat + 2) with
      | .error e => .error e
      | .ok b2 => assemble r b1 b2

/-- Fetch the instruction at PC: its opcode byte, the row of it, then the operand bytes. A byte without a row raises
UnknownOpcode before any operand byte is read (30_encoding.md R85, R88). -/
def fetch (s : State) : Except Abort Instr :=
  match memRead s s.pc.toNat with
  | .error e => .error e
  | .ok op =>
    match lookupOpcode op with
    | none => .error (.unknownOpcode op)
    | some r => fetchOperands r s

end Sys2Proof.Machine
end

