-- ==== Sys2Proof/Machine/RunControl.lean ====
section
/-! DEFINITION. The core's step in each run state (60_exceptions.md R210, R213 to R215). -/

namespace Sys2Proof.Machine

/-- One instruction, whole and atomic: fetched and executed, or aborted in its fetch
(40_cycle_and_addressing.md R110, 60_exceptions.md R205). -/
def runInstruction (s : State) : Host.Outcome State Fault Refusal :=
  match fetch s with
  | .error e => .next (s.abort e)
  | .ok i => exec i s

/-- After the one more instruction of R214(b): Stopped with cause StopRequested if it completed, and the abort's own
cause if it aborted (60_exceptions.md R206, R214). -/
def stopAfter (t : State) : State := if t.runState = .stopped then t else t.observeStop

/-- The core's step in Stopping when it does not observe the request at once: exactly one more instruction, then
Stopped (60_exceptions.md R214(b)). -/
def runLastInstruction (s : State) : Host.Outcome State Fault Refusal :=
  match runInstruction s with
  | .next t => .next (stopAfter t)
  | .fault r => .fault r
  | .refused r => .refused r

/-- The core's step. In Idle and Stopped the core takes none: nothing changes (R210; DESIGN CHOICE: such a turn is a
step of the model that leaves the state as it is, safe, log 7). In Running it executes one instruction (R213). In
Stopping it observes the request at once or after exactly one more instruction; which of the two is a free choice
(R214; log 5). -/
def coreStep (s : State) : Host.Outcome State Fault Refusal :=
  match s.runState with
  | .idle => .next s
  | .stopped => .next s
  | .running => runInstruction s
  | .stopping =>
    if Config.stopSeenAtOnce s.freeIndex then .next s.drawFree.observeStop
    else runLastInstruction s.drawFree

end Sys2Proof.Machine
end

