-- ==== Sys2Proof/Machine/HostMoves.lean ====
section
/-! DEFINITION. The host's moves (70_reset_and_hazards.md R240, R246 to R251; 60_exceptions.md R204, R210 to R212,
R217). Every move that has a meaning leaves an answer in `State.answer` (log 12). A write, a load or a RESET while the
core is Running or Stopping has no meaning and is refused by name (log 8). -/

namespace Sys2Proof.Machine

/-- Answer the host; nothing else changes. -/
def State.reply (s : State) (ans : Answer) : State := { s with answer := some ans }

/-- The core is Idle or Stopped: the host may write, and what it reads is authoritative (10_state.md R43, R44). -/
def State.atRest (s : State) : Bool := s.runState == .idle || s.runState == .stopped

/-- A move that has a meaning in Idle and Stopped only (70_reset_and_hazards.md R250, R251). -/
def whenAtRest (s t : State) : Host.Outcome State Fault Refusal :=
  if s.atRest then .next t else .refused .hostMoveOutsideContract

/-- RESET: every register, every flag, RUN_STATE, STOP_CAUSE and every byte of Memory take their reset values
(70_reset_and_hazards.md R240, 10_state.md R45); STOP_INFO is unspecified (log 4). The turns to come stay, and the
free values go on (log 18). -/
def hostReset (s : State) : State :=
  { State.reset with
    stopInfoPc := Config.freeAddr s.freeIndex
    stopInfoOpcode := Config.freeByte s.freeIndex
    stopInfoAddress := Config.freeNat s.freeIndex
    turns := s.turns
    answer := some .accepted
    freeIndex := s.freeIndex + 1 }

/-- `start()`: Idle to Running, nothing else; rejected elsewhere (60_exceptions.md R204, R210, R211). -/
def hostStart (s : State) : State :=
  match s.runState with
  | .idle => ({ s with runState := .running }).reply .accepted
  | .running => s.reply .rejected
  | .stopping => s.reply .rejected
  | .stopped => s.reply .rejected

/-- The stop request: Running to Stopping, nothing else; rejected elsewhere (60_exceptions.md R204, R210, R212). -/
def hostStopRequest (s : State) : State :=
  match s.runState with
  | .running => ({ s with runState := .stopping }).reply .accepted
  | .idle => s.reply .rejected
  | .stopping => s.reply .rejected
  | .stopped => s.reply .rejected

/-- The writes of a load, one after another, up to the first address that does not exist: the memory after them, and
that address if there is one (70_reset_and_hazards.md R246). -/
def loadBytes (m : Memory) (addr : Nat) : List Int → Memory × Option Nat
  | [] => (m, none)
  | v :: vs => if addr < Config.memSize then loadBytes (m.write addr (maskByte v)) (addr + 1) vs else (m, some addr)

/-- `loadBinaries(bytes, loadAddress)`: the bytes are written, then PC is set; where the sequence leaves Memory, the
bytes before stay written, PC is not set and the caller is told (70_reset_and_hazards.md R246). -/
def hostLoad (bytes : List Int) (loadAddress : Nat) (s : State) : State :=
  match loadBytes s.mem loadAddress bytes with
  | (m, none) => ((s.setMem m).writePc loadAddress).reply .accepted
  | (m, some bad) => (s.setMem m).reply (.addressOutOfRange bad)

/-- `loadAndExecuteBinaries`: the load, then `start()`; no start where the load reports AddressOutOfRange
(70_reset_and_hazards.md R247). -/
def hostLoadAndExecute (bytes : List Int) (loadAddress : Nat) (s : State) : State :=
  match loadBytes s.mem loadAddress bytes with
  | (m, none) => hostStart ((s.setMem m).writePc loadAddress)
  | (m, some bad) => (s.setMem m).reply (.addressOutOfRange bad)

/-- HOST.set of a memory byte, stored mod 256 (70_reset_and_hazards.md R248). An address at or above `MEM_SIZE` names
no byte: the write does not happen and the caller is told (DEDUCED from 20_memory.md R53, unsafe, log 10). -/
def hostSetByte (addr : Nat) (v : Int) (s : State) : State :=
  match memWrite s addr (maskByte v) with
  | .ok t => t.reply .accepted
  | .error _ => s.reply (.addressOutOfRange addr)

/-- HOST.get of a value: the current one in Idle and Stopped, any value in Running and Stopping
(70_reset_and_hazards.md R249; log 9). -/
def hostGet (s : State) (current free : Answer) : State :=
  if s.atRest then s.reply current else s.drawFree.reply free

/-- HOST.get of a memory byte; an address at or above `MEM_SIZE` names no byte (DEDUCED from 20_memory.md R52, unsafe,
log 10). -/
def hostGetByte (addr : Nat) (s : State) : State :=
  match memRead s addr with
  | .ok v => hostGet s (.byte v) (.byte (Config.freeByte s.freeIndex))
  | .error _ => s.reply (.addressOutOfRange addr)

/-- One move of the host (70_reset_and_hazards.md R250), in a state whose `turns` no longer hold it. A wait that has
not ended stays the next turn, and the core goes on (60_exceptions.md R217; log 13). -/
def hostMove (m : HostMove) (s : State) : Host.Outcome State Fault Refusal :=
  match m with
  | .reset => whenAtRest s (hostReset s)
  | .setReg r v => whenAtRest s ((s.setReg r (maskByte v)).reply .accepted)
  | .setPc v => whenAtRest s ((s.writePc v).reply .accepted)
  | .setFlag f v => whenAtRest s ((s.setFlag f v).reply .accepted)
  | .setByte addr v => whenAtRest s (hostSetByte addr v s)
  | .loadBinaries bytes loadAddress => whenAtRest s (hostLoad bytes loadAddress s)
  | .loadAndExecute bytes loadAddress => whenAtRest s (hostLoadAndExecute bytes loadAddress s)
  | .start => .next (hostStart s)
  | .stopRequest => .next (hostStopRequest s)
  | .getRunState => .next (s.reply (.runState s.runState))
  | .getStopCause => .next (s.reply (.stopCause s.stopCause s.stopInfoPc s.stopInfoOpcode s.stopInfoAddress))
  | .getReg r => .next (hostGet s (.byte (s.reg r)) (.byte (Config.freeByte s.freeIndex)))
  | .getPc => .next (hostGet s (.word s.pc) (.word (Config.freeAddr s.freeIndex)))
  | .getFlag f => .next (hostGet s (.flag (s.flag f)) (.flag (Config.freeFlag s.freeIndex)))
  | .getByte addr => .next (hostGetByte addr s)
  | .waitStopped =>
    if s.runState = .stopped then .next (s.reply .stopped)
    else coreStep (s.setTurns (.host .waitStopped :: s.turns))

/-- One step of the machine: the turn that is next, the core's when no turn is left (00_scope.md R6,
70_reset_and_hazards.md R254; log 6). -/
def takeTurn (s : State) : Host.Outcome State Fault Refusal :=
  match s.turns with
  | [] => coreStep s
  | .core :: rest => coreStep (s.setTurns rest)
  | .host m :: rest => hostMove m (s.setTurns rest)

end Sys2Proof.Machine
end

