-- ==== Sys2Proof/Machine/Step.lean ====
section
/-! DEFINITION. The step, and a state in which the next step runs a given instruction. -/

namespace Sys2Proof.Machine

/-- One step of the machine. -/
def step (s : State) : Host.Outcome State Fault Refusal := takeTurn s

/-- `s` with an instruction stored at PC, Running, and with the core's turn next: what `loadBinaries` at PC and
`start()` come to (log 11). The instruction's bits are `w`, zero at and above `nbits`. -/
def State.withFetchWord (s : State) (nbits w : Nat) : State :=
  { s with mem := storeBytes s.mem s.pc.toNat (tableBytes nbits w), runState := .running, turns := [] }

end Sys2Proof.Machine
end

