-- ==== Sys2Proof/Safety.lean ====
section
/-! DEFINITION. The terms claims are stated in: the invariant of the machine, what it is for a step to be the core's, and
the bytes of memory an instruction reads. Nothing here is part of the machine. -/

namespace Sys2Proof.Machine

/-- What every run keeps. Memory is in canonical form (log 1); a stop cause is recorded exactly in Stopped
(10_state.md R38, 60_exceptions.md R210); a recorded AddressOutOfRange reports an address in 0x10000 to 0x100FE
(40_cycle_and_addressing.md R128); a recorded UnknownOpcode reports a byte without a row (30_encoding.md R88). -/
structure State.Inv (s : State) : Prop where
  mem_wf : s.mem.wf = true
  cause_iff_stopped : s.stopCause ≠ .none ↔ s.runState = .stopped
  address_range : s.stopCause = .addressOutOfRange → 0x10000 ≤ s.stopInfoAddress ∧ s.stopInfoAddress ≤ 0x100FE
  opcode_unknown : s.stopCause = .unknownOpcode → lookupOpcode s.stopInfoOpcode = none

/-- The state the core's turn starts from: the turn is taken off the list (log 6). `none` when it is the host's turn. -/
def State.coreTurn (s : State) : Option State :=
  match s.turns with
  | [] => some s
  | .core :: rest => some (s.setTurns rest)
  | .host _ :: _ => none

/-- The state the host's turn starts from, with the move. `none` when it is the core's turn. -/
def State.hostTurn (s : State) : Option (HostMove × State) :=
  match s.turns with
  | [] => none
  | .core :: _ => none
  | .host m :: rest => some (m, s.setTurns rest)

/-- The bytes of an instruction stand in memory at PC, inside memory (40_cycle_and_addressing.md R111). -/
def State.HoldsAtPc (s : State) (i : Instr) : Prop :=
  s.pc.toNat + i.length ≤ Config.memSize ∧
    ∀ k, k < i.length → some (s.mem.read (s.pc.toNat + k)) = (encode i)[k]?

/-- From `s` the instruction aborts with AddressOutOfRange(`n`): RUN_STATE, STOP_CAUSE and STOP_INFO are written, and
nothing else of the spec's state changes (60_exceptions.md R202, R205). The STOP_INFO field that does not apply holds some
value, and the index of the free values goes on. -/
def RaisesOutOfRange (s : State) (o : Host.Outcome State Fault Refusal) (n : Nat) : Prop :=
  ∃ free : Byte, o = .next
    { s with
      runState := .stopped
      stopCause := .addressOutOfRange
      stopInfoPc := s.pc
      stopInfoOpcode := free
      stopInfoAddress := n
      freeIndex := s.freeIndex + 1 }

/-- From `s` the instruction aborts with UnknownOpcode(`op`) (60_exceptions.md R201, R205). -/
def RaisesUnknownOpcode (s : State) (o : Host.Outcome State Fault Refusal) (op : Byte) : Prop :=
  ∃ free : Nat, o = .next
    { s with
      runState := .stopped
      stopCause := .unknownOpcode
      stopInfoPc := s.pc
      stopInfoOpcode := op
      stopInfoAddress := free
      freeIndex := s.freeIndex + 1 }

/-- `t` is `s` after the core observed the stop request: Stopped with cause StopRequested and the address of the next
instruction, nothing else of the spec's state changed (60_exceptions.md R214, 10_state.md R38). -/
def StoppedByRequest (s t : State) : Prop :=
  ∃ (freeOpcode : Byte) (freeAddress : Nat), t =
    { s with
      runState := .stopped
      stopCause := .stopRequested
      stopInfoPc := s.pc
      stopInfoOpcode := freeOpcode
      stopInfoAddress := freeAddress
      freeIndex := s.freeIndex + 1 }

/-- `new` is `old` with the byte at `ea` replaced by `v`: read there it is `v`, and EVERY other address reads as before.
The premise on `old` says that it is in canonical form, which every step keeps (`State.Inv`). -/
def ByteStored (old new : Memory) (ea : Nat) (v : Byte) : Prop :=
  (old.wf = true → new.read ea = v ∧ new.wf = true) ∧ ∀ addr, addr ≠ ea → new.read addr = old.read addr

/-- An opcode with `n` operand bytes raises AddressOutOfRange(0x10000) in its fetch when the instruction lies across the
top of memory (40_cycle_and_addressing.md R111). -/
def OperandFetchRaises (op : Byte) (n : Nat) : Prop :=
  ∀ s u, s.coreTurn = some u → u.runState = .running → u.mem.read u.pc.toNat = op →
    65536 < u.pc.toNat + 1 + n → RaisesOutOfRange u (step s) 0x10000

/-- The addresses of the bytes a memory operand reads to form its effective address (20_memory.md R65, "pointer
reads"). -/
def pointerReads (m : MemOperand) (s : State) : List Nat :=
  match m with
  | .zeroPage _ => []
  | .zeroPageX _ => []
  | .zeroPageY _ => []
  | .absolute _ => []
  | .absoluteX _ => []
  | .absoluteY _ => []
  | .indexedIndirect zp => [(zp.toNat + s.x.toNat) % 256, (zp.toNat + s.x.toNat) % 256 + 1]
  | .indirectIndexed zp => [zp.toNat, zp.toNat + 1]
  | .indirect w => [w.toNat, w.toNat + 1]

/-- The instruction reads the byte at its effective address: all with a memory operand but STA (20_memory.md R65). -/
def readsTarget (i : Instr) : Bool := i.mnemonic != .sta

/-- The data addresses an instruction reads, after the fetch of its own bytes: the table of 20_memory.md R65. -/
def dataReads (i : Instr) (s : State) : List Nat :=
  match i.memOperand with
  | none => []
  | some m =>
    pointerReads m s ++
      (if readsTarget i then
        match effectiveAddress m s with
        | .ok ea => [ea]
        | .error _ => []
      else [])

/-- The one address an instruction writes, if any: STA and ASL in a memory mode (20_memory.md R65). -/
def dataWrite (i : Instr) (s : State) : Option Nat :=
  if i.mnemonic = .sta ∨ i.mnemonic = .asl then
    match i.memOperand with
    | none => none
    | some m =>
      match effectiveAddress m s with
      | .ok ea => some ea
      | .error _ => none
  else none

end Sys2Proof.Machine
end

