-- ==== Sys2Proof/Certificates/Slice0/Obligations.lean ====
section
/-! DEFINITION. The statements for the provers. Each docstring says which rule or section of spec/ the statement
formalises; `RaisesOutOfRange`, `RaisesUnknownOpcode`, `StoppedByRequest`, `ByteStored`, `OperandFetchRaises`,
`State.coreTurn`, `State.hostTurn`, `State.HoldsAtPc`, `dataReads` and `dataWrite` are written out in Safety.lean. -/

open Sys2Proof Sys2Proof.Machine

/-- From 30_encoding.md section 1, Formats; 30_encoding.md section 2, Operand assembly; 30_encoding.md section 3, The
opcode map. For every instruction of every family, with every operand value, decoding its encoded bytes followed by
any other bytes gives the instruction and exactly those other bytes; the encoded bytes are as many as the
instruction is long. -/
def Obligations.DecodeOfEncodeGivesTheInstructionBack : Prop :=
  ∀ (i : Instr) (rest : List Byte), decode (encode i ++ rest) = .ok (i, rest) ∧ (encode i).length = i.length

/-- From 30_encoding.md section 1, Formats; 30_encoding.md section 3, The opcode map. If a list of bytes decodes to an
instruction with some bytes left, the list is the instruction's encoded bytes followed by the bytes left: no two
encodings share an instruction. -/
def Obligations.EncodeOfDecodeGivesTheBytesBack : Prop :=
  ∀ (bytes : List Byte) (i : Instr) (rest : List Byte), decode bytes = .ok (i, rest) → bytes = encode i ++ rest

/-- From 30_encoding.md section 5, Assembler syntax (the table of examples); 95_test_vectors.md section 2. The example
bytes of the spec's table of addressing modes, and one word of the compare and of the shift family, decode to the
instructions the spec writes beside them, operand bytes and byte order included. -/
def Obligations.ExampleWordsDecodeAsTheSpecWritesThem : Prop :=
  decode [0x38#8] = .ok (.sec, []) ∧
    decode [0x0A#8] = .ok (.aslA, []) ∧
    decode [0xA9#8, 0x80#8] = .ok (.ldaImmediate 0x80#8, []) ∧
    decode [0xA5#8, 0x10#8] = .ok (.ldaZeroPage 0x10#8, []) ∧
    decode [0xB5#8, 0x0F#8] = .ok (.ldaZeroPageX 0x0F#8, []) ∧
    decode [0xB6#8, 0x10#8] = .ok (.ldxZeroPageY 0x10#8, []) ∧
    decode [0x8D#8, 0x05#8, 0x06#8] = .ok (.staAbsolute 0x0605#16, []) ∧
    decode [0xBD#8, 0x80#8, 0xFF#8] = .ok (.ldaAbsoluteX 0xFF80#16, []) ∧
    decode [0x99#8, 0x34#8, 0x12#8] = .ok (.staAbsoluteY 0x1234#16, []) ∧
    decode [0xA1#8, 0x40#8] = .ok (.ldaIndexedIndirect 0x40#8, []) ∧
    decode [0x91#8, 0x40#8] = .ok (.staIndirectIndexed 0x40#8, []) ∧
    decode [0x90#8, 0xFC#8] = .ok (.bcc 0xFC#8, []) ∧
    decode [0xC9#8, 0x80#8] = .ok (.cmpImmediate 0x80#8, []) ∧
    decode [0x06#8, 0x20#8] = .ok (.aslZeroPage 0x20#8, [])

/-- From 30_encoding.md section 3, The opcode map (the admitted bytes by high nibble); 30_encoding.md section 4,
Unknown, reserved and hint encodings. A byte is one of the 59 the spec lists by high nibble exactly when it has one
row in the opcode table; every other byte has none, and a list of bytes that begins with it does not decode. -/
def Obligations.EachByteHasOneRowOrIsUnknown : Prop :=
  ∀ op : Byte,
    let admitted : List Nat :=
      [0x06, 0x0A, 0x0E, 0x10, 0x16, 0x18, 0x1E, 0x30, 0x38, 0x50, 0x58, 0x70,
        0x78, 0x81, 0x85, 0x8D, 0x90, 0x91, 0x95, 0x99, 0x9D, 0xA0, 0xA1, 0xA2,
        0xA4, 0xA5, 0xA6, 0xA9, 0xAC, 0xAD, 0xAE, 0xB0, 0xB1, 0xB4, 0xB5, 0xB6,
        0xB8, 0xB9, 0xBC, 0xBD, 0xBE, 0xC0, 0xC1, 0xC4, 0xC5, 0xC9, 0xCC, 0xCD,
        0xD0, 0xD1, 0xD5, 0xD8, 0xD9, 0xDD, 0xE0, 0xE4, 0xEC, 0xF0, 0xF8]
    (op.toNat ∈ admitted ∧ (opcodeTable.filter fun r => r.opcode == op).length = 1) ∨
      (op.toNat ∉ admitted ∧ (opcodeTable.filter fun r => r.opcode == op).length = 0 ∧
        ∀ rest, decode (op :: rest) = .error (.unknownOpcode op))

/-- Rule R82. Two lists of bytes with the same first byte that both decode give instructions of the same mnemonic, mode
and length, whatever the later bytes are; the length is 1 plus the operand byte count of the mode, 1 to 3, and it is
the number of bytes taken. -/
def Obligations.FirstByteAloneFixesModeAndLength : Prop :=
  ∀ (op : Byte) (rest rest' left left' : List Byte) (i i' : Instr),
    decode (op :: rest) = .ok (i, left) → decode (op :: rest') = .ok (i', left') →
      i.mnemonic = i'.mnemonic ∧ i.mode = i'.mode ∧ i.length = i'.length ∧
        i.length = 1 + i.mode.operandBytes ∧ 1 ≤ i.length ∧ i.length ≤ 3 ∧
        (op :: rest).length = i.length + left.length

/-- Rule R12. For all bytes: the zero and negative outputs, the shifted value with its carry, zero and negative outputs,
the two outputs of the unsigned compare, and the sum modulo 256 are the numbers rule R12 gives. -/
def Obligations.EightBitPathResults : Prop :=
  ∀ v r m a b : Byte,
    (isZero v = decide (v.toNat = 0) ∧ bit7 v = decide (128 ≤ v.toNat)) ∧
    ((shl8 v).toNat = v.toNat * 2 % 256 ∧ isZero (shl8 v) = decide (v.toNat * 2 % 256 = 0) ∧
      bit7 (shl8 v) = decide (128 ≤ v.toNat * 2 % 256)) ∧
    (cmpEq r m = decide (r.toNat = m.toNat) ∧ cmpGe r m = decide (r.toNat ≥ m.toNat)) ∧
    (add8w a b).toNat = (a.toNat + b.toNat) % 256

/-- Rule R13. For all operands: WORD is hi * 256 + lo; IDX is the unreduced sum; REL adds the signed offset; NEXT is PC
+ len, reduced mod 65536 only when it is written to PC. -/
def Obligations.SixteenBitPathResults : Prop :=
  ∀ (lo hi off i : Byte) (base : Addr) (pc len : Nat) (s : State),
    (word lo hi).toNat = hi.toNat * 256 + lo.toNat ∧
    idx base i = base.toNat + i.toNat ∧
    rel pc off = (pc : Int) + (if off.toNat < 128 then (off.toNat : Int) else (off.toNat : Int) - 256) ∧
    ((s.writePc (rel pc off)).pc.toNat : Int) =
      ((pc : Int) + (if off.toNat < 128 then (off.toNat : Int) else (off.toNat : Int) - 256)) % 65536 ∧
    (s.advance len).pc.toNat = (s.pc.toNat + len) % 65536

/-- Rule R21. Writing any integer to A, X, Y or SP gives the state with that register at the integer mod 256 and EVERY
other field as before; writing any integer to PC gives the state with PC at the integer mod 65536 and every other
field as before; a register reads as what was written to it. -/
def Obligations.RegisterWritesAreMasked : Prop :=
  ∀ (s : State) (v : Int),
    (∃ b : Byte, (b.toNat : Int) = v % 256 ∧
      s.setReg .a (maskByte v) = { s with a := b } ∧ s.setReg .x (maskByte v) = { s with x := b } ∧
      s.setReg .y (maskByte v) = { s with y := b } ∧ s.setReg .sp (maskByte v) = { s with sp := b } ∧
      ∀ r : Reg, (s.setReg r (maskByte v)).reg r = b) ∧
    ∃ w : Addr, (w.toNat : Int) = v % 65536 ∧ s.writePc v = { s with pc := w }

/-- Rule R52. A read below MEM_SIZE gives the byte of memory at that address; a read at or above MEM_SIZE gives no byte
and raises AddressOutOfRange with the address presented. A read gives no state: it changes nothing. -/
def Obligations.MemReadGivesTheByteOrRaises : Prop :=
  ∀ (s : State) (addr : Nat),
    (addr < 65536 → memRead s addr = .ok (s.mem.read addr)) ∧
      (65536 ≤ addr → memRead s addr = .error (.addressOutOfRange addr))

/-- Rule R53. From a memory in canonical form, writing any integer below MEM_SIZE makes the byte there the integer mod
256, leaves every other address as it reads, changes no other field of the state and keeps the canonical form; at or
above MEM_SIZE nothing is written and AddressOutOfRange is raised. -/
def Obligations.MemWriteStoresOneByteOrRaises : Prop :=
  ∀ (s : State) (addr : Nat) (v : Int), s.mem.wf = true →
    (addr < 65536 → ∃ t, memWrite s addr (maskByte v) = .ok t ∧ ((t.mem.read addr).toNat : Int) = v % 256 ∧
        (∀ other, other ≠ addr → t.mem.read other = s.mem.read other) ∧ t = { s with mem := t.mem } ∧
        t.mem.wf = true) ∧
      (65536 ≤ addr → memWrite s addr (maskByte v) = .error (.addressOutOfRange addr))

/-- From 20_memory.md section 4, Ordering; 41_load_store.md, the corner cases of STA. If A holds the whole encoding of a
one-byte instruction and STA absolute stores it at the address of the next instruction, then the step after the
store runs that instruction. -/
def Obligations.StoreIntoTheInstructionStreamIsFetchedNext : Prop :=
  ∀ (s : State) (w : Addr) (i : Instr), s.mem.wf = true → s.runState = .running → s.turns = [] →
    w = s.pc + 3#16 → encode i = [s.a] →
      ∃ t, exec (.staAbsolute w) s = .next t ∧ step t = exec i t

/-- Rules R118, R119, R120. The effective address is the operand, or the operand plus X or Y modulo 256, always below
256; the value is the byte there, and the access cannot raise. -/
def Obligations.ZeroPageResolversStayInPageZero : Prop :=
  ∀ (zp : Byte) (s : State),
    (effectiveAddress (.zeroPage zp) s = .ok zp.toNat ∧ readMemOperand (.zeroPage zp) s = .ok (s.mem.read zp.toNat)) ∧
    (effectiveAddress (.zeroPageX zp) s = .ok ((zp.toNat + s.x.toNat) % 256) ∧
      readMemOperand (.zeroPageX zp) s = .ok (s.mem.read ((zp.toNat + s.x.toNat) % 256))) ∧
    (effectiveAddress (.zeroPageY zp) s = .ok ((zp.toNat + s.y.toNat) % 256) ∧
      readMemOperand (.zeroPageY zp) s = .ok (s.mem.read ((zp.toNat + s.y.toNat) % 256)))

/-- Rules R121, R122, R123. The effective address is the 16-bit operand, or the operand plus X or Y without reduction to
16 bits; the value is the byte there, and the access raises AddressOutOfRange with the sum when it is 65536 or more
(the spec's decision D3). -/
def Obligations.AbsoluteResolversDoNotWrap : Prop :=
  ∀ (b1 b2 : Byte) (s : State),
    let w := b2.toNat * 256 + b1.toNat
    (effectiveAddress (.absolute (word b1 b2)) s = .ok w ∧
      readMemOperand (.absolute (word b1 b2)) s = .ok (s.mem.read w)) ∧
    (effectiveAddress (.absoluteX (word b1 b2)) s = .ok (w + s.x.toNat) ∧
      readMemOperand (.absoluteX (word b1 b2)) s =
        if w + s.x.toNat < 65536 then .ok (s.mem.read (w + s.x.toNat))
        else .error (.addressOutOfRange (w + s.x.toNat))) ∧
    (effectiveAddress (.absoluteY (word b1 b2)) s = .ok (w + s.y.toNat) ∧
      readMemOperand (.absoluteY (word b1 b2)) s =
        if w + s.y.toNat < 65536 then .ok (s.mem.read (w + s.y.toNat))
        else .error (.addressOutOfRange (w + s.y.toNat)))

/-- Rules R124, R125, R127. The pointer is read low byte first, its high byte from the next address without wrapping
into the page (0x0100 after 0x00FF); INDEXED_INDIRECT adds X to the operand modulo 256 before, INDIRECT_INDEXED adds
Y to the pointer after, without wrapping; INDIRECT takes the pointer at its 16-bit operand; the value is the byte at
the effective address; the accesses raise exactly where the address they present is 65536 or more (the spec's
decisions D3, D4, D13). -/
def Obligations.IndirectResolversFollowThePointer : Prop :=
  ∀ (zp : Byte) (w : Addr) (s : State),
    let ptr := fun (p : Nat) => (s.mem.read (p + 1)).toNat * 256 + (s.mem.read p).toNat
    let px := ptr ((zp.toNat + s.x.toNat) % 256)
    let py := ptr zp.toNat + s.y.toNat
    (effectiveAddress (.indexedIndirect zp) s = .ok px ∧
      readMemOperand (.indexedIndirect zp) s = .ok (s.mem.read px)) ∧
    (effectiveAddress (.indirectIndexed zp) s = .ok py ∧
      readMemOperand (.indirectIndexed zp) s =
        if py < 65536 then .ok (s.mem.read py) else .error (.addressOutOfRange py)) ∧
    (effectiveAddress (.indirect w) s =
        (if w.toNat + 1 < 65536 then .ok (ptr w.toNat) else .error (.addressOutOfRange 0x10000)) ∧
      readMemOperand (.indirect w) s =
        if w.toNat + 1 < 65536 then .ok (s.mem.read (ptr w.toNat)) else .error (.addressOutOfRange 0x10000))

/-- From 40_cycle_and_addressing.md section 3, Ranges and faults. For every memory operand and every state the resolver
gives an address of at most 0x100FE, but for INDIRECT of 0xFFFF, which raises AddressOutOfRange(0x10000) and which
no instruction has as its operand. -/
def Obligations.ResolversPresentNoAddressAbove100FE : Prop :=
  (∀ (m : MemOperand) (s : State), m ≠ .indirect 0xFFFF#16 →
      ∃ ea, effectiveAddress m s = .ok ea ∧ ea ≤ 0x100FE) ∧
    (∀ s : State, effectiveAddress (.indirect 0xFFFF#16) s = .error (.addressOutOfRange 0x10000)) ∧
    ∀ (i : Instr) (w : Addr), i.memOperand ≠ some (.indirect w)

/-- Rule R140. Every LDA form decodes from its opcode; from every state in which the effective address lies in memory it
completes with A the operand's byte, Z and N from that byte, PC past the instruction, and EVERY other register,
flag, status field and byte of memory unchanged; it raises AddressOutOfRange with the address, with no other effect,
where the effective address is 65536 or more, and AddressOutOfRange(0x10000) where its operand bytes lie across the
top of memory. -/
def Obligations.LdaLoadsAccumulatorInEveryMode : Prop :=
  (∀ b1 b2 : Byte,
      decode [0xA9#8, b1] = .ok (.ldaImmediate b1, []) ∧
      decode [0xA5#8, b1] = .ok (.ldaZeroPage b1, []) ∧
      decode [0xB5#8, b1] = .ok (.ldaZeroPageX b1, []) ∧
      decode [0xAD#8, b1, b2] = .ok (.ldaAbsolute (word b1 b2), []) ∧
      decode [0xBD#8, b1, b2] = .ok (.ldaAbsoluteX (word b1 b2), []) ∧
      decode [0xB9#8, b1, b2] = .ok (.ldaAbsoluteY (word b1 b2), []) ∧
      decode [0xA1#8, b1] = .ok (.ldaIndexedIndirect b1, []) ∧
      decode [0xB1#8, b1] = .ok (.ldaIndirectIndexed b1, [])) ∧
    (OperandFetchRaises 0xA9#8 1 ∧ OperandFetchRaises 0xA5#8 1 ∧ OperandFetchRaises 0xB5#8 1 ∧
      OperandFetchRaises 0xAD#8 2 ∧ OperandFetchRaises 0xBD#8 2 ∧ OperandFetchRaises 0xB9#8 2 ∧
      OperandFetchRaises 0xA1#8 1 ∧ OperandFetchRaises 0xB1#8 1) ∧
    ∀ s : State,
      let ptr := fun (p : Nat) => (s.mem.read (p + 1)).toNat * 256 + (s.mem.read p).toNat
      let done := fun (v : Byte) (len : Addr) =>
        ({ s with a := v, flagZ := decide (v = 0#8), flagN := decide (128 ≤ v.toNat), pc := s.pc + len } : State)
      (∀ v, exec (.ldaImmediate v) s = .next (done v 2#16)) ∧
      (∀ zp : Byte, exec (.ldaZeroPage zp) s = .next (done (s.mem.read zp.toNat) 2#16)) ∧
      (∀ zp : Byte, exec (.ldaZeroPageX zp) s = .next (done (s.mem.read ((zp.toNat + s.x.toNat) % 256)) 2#16)) ∧
      (∀ w : Addr, exec (.ldaAbsolute w) s = .next (done (s.mem.read w.toNat) 3#16)) ∧
      (∀ w : Addr,
        (w.toNat + s.x.toNat < 65536 → exec (.ldaAbsoluteX w) s = .next (done (s.mem.read (w.toNat + s.x.toNat)) 3#16)) ∧
        (65536 ≤ w.toNat + s.x.toNat → RaisesOutOfRange s (exec (.ldaAbsoluteX w) s) (w.toNat + s.x.toNat))) ∧
      (∀ w : Addr,
        (w.toNat + s.y.toNat < 65536 → exec (.ldaAbsoluteY w) s = .next (done (s.mem.read (w.toNat + s.y.toNat)) 3#16)) ∧
        (65536 ≤ w.toNat + s.y.toNat → RaisesOutOfRange s (exec (.ldaAbsoluteY w) s) (w.toNat + s.y.toNat))) ∧
      (∀ zp : Byte, exec (.ldaIndexedIndirect zp) s = .next (done (s.mem.read (ptr ((zp.toNat + s.x.toNat) % 256))) 2#16)) ∧
      (∀ zp : Byte,
        (ptr zp.toNat + s.y.toNat < 65536 → exec (.ldaIndirectIndexed zp) s = .next (done (s.mem.read (ptr zp.toNat + s.y.toNat)) 2#16)) ∧
        (65536 ≤ ptr zp.toNat + s.y.toNat → RaisesOutOfRange s (exec (.ldaIndirectIndexed zp) s) (ptr zp.toNat + s.y.toNat)))

/-- Rule R141. Every LDX form decodes from its opcode; from every state in which the effective address lies in memory it
completes with X the operand's byte, Z and N from that byte, PC past the instruction, and EVERY other register,
flag, status field and byte of memory unchanged; it raises AddressOutOfRange with the address, with no other effect,
where the effective address is 65536 or more, and AddressOutOfRange(0x10000) where its operand bytes lie across the
top of memory. -/
def Obligations.LdxLoadsXInEveryMode : Prop :=
  (∀ b1 b2 : Byte,
      decode [0xA2#8, b1] = .ok (.ldxImmediate b1, []) ∧
      decode [0xA6#8, b1] = .ok (.ldxZeroPage b1, []) ∧
      decode [0xB6#8, b1] = .ok (.ldxZeroPageY b1, []) ∧
      decode [0xAE#8, b1, b2] = .ok (.ldxAbsolute (word b1 b2), []) ∧
      decode [0xBE#8, b1, b2] = .ok (.ldxAbsoluteY (word b1 b2), [])) ∧
    (OperandFetchRaises 0xA2#8 1 ∧ OperandFetchRaises 0xA6#8 1 ∧ OperandFetchRaises 0xB6#8 1 ∧
      OperandFetchRaises 0xAE#8 2 ∧ OperandFetchRaises 0xBE#8 2) ∧
    ∀ s : State,
      let done := fun (v : Byte) (len : Addr) =>
        ({ s with x := v, flagZ := decide (v = 0#8), flagN := decide (128 ≤ v.toNat), pc := s.pc + len } : State)
      (∀ v, exec (.ldxImmediate v) s = .next (done v 2#16)) ∧
      (∀ zp : Byte, exec (.ldxZeroPage zp) s = .next (done (s.mem.read zp.toNat) 2#16)) ∧
      (∀ zp : Byte, exec (.ldxZeroPageY zp) s = .next (done (s.mem.read ((zp.toNat + s.y.toNat) % 256)) 2#16)) ∧
      (∀ w : Addr, exec (.ldxAbsolute w) s = .next (done (s.mem.read w.toNat) 3#16)) ∧
      (∀ w : Addr,
        (w.toNat + s.y.toNat < 65536 → exec (.ldxAbsoluteY w) s = .next (done (s.mem.read (w.toNat + s.y.toNat)) 3#16)) ∧
        (65536 ≤ w.toNat + s.y.toNat → RaisesOutOfRange s (exec (.ldxAbsoluteY w) s) (w.toNat + s.y.toNat)))

/-- Rule R142. Every LDY form decodes from its opcode; from every state in which the effective address lies in memory it
completes with Y the operand's byte, Z and N from that byte, PC past the instruction, and EVERY other register,
flag, status field and byte of memory unchanged; it raises AddressOutOfRange with the address, with no other effect,
where the effective address is 65536 or more, and AddressOutOfRange(0x10000) where its operand bytes lie across the
top of memory. -/
def Obligations.LdyLoadsYInEveryMode : Prop :=
  (∀ b1 b2 : Byte,
      decode [0xA0#8, b1] = .ok (.ldyImmediate b1, []) ∧
      decode [0xA4#8, b1] = .ok (.ldyZeroPage b1, []) ∧
      decode [0xB4#8, b1] = .ok (.ldyZeroPageX b1, []) ∧
      decode [0xAC#8, b1, b2] = .ok (.ldyAbsolute (word b1 b2), []) ∧
      decode [0xBC#8, b1, b2] = .ok (.ldyAbsoluteX (word b1 b2), [])) ∧
    (OperandFetchRaises 0xA0#8 1 ∧ OperandFetchRaises 0xA4#8 1 ∧ OperandFetchRaises 0xB4#8 1 ∧
      OperandFetchRaises 0xAC#8 2 ∧ OperandFetchRaises 0xBC#8 2) ∧
    ∀ s : State,
      let done := fun (v : Byte) (len : Addr) =>
        ({ s with y := v, flagZ := decide (v = 0#8), flagN := decide (128 ≤ v.toNat), pc := s.pc + len } : State)
      (∀ v, exec (.ldyImmediate v) s = .next (done v 2#16)) ∧
      (∀ zp : Byte, exec (.ldyZeroPage zp) s = .next (done (s.mem.read zp.toNat) 2#16)) ∧
      (∀ zp : Byte, exec (.ldyZeroPageX zp) s = .next (done (s.mem.read ((zp.toNat + s.x.toNat) % 256)) 2#16)) ∧
      (∀ w : Addr, exec (.ldyAbsolute w) s = .next (done (s.mem.read w.toNat) 3#16)) ∧
      (∀ w : Addr,
        (w.toNat + s.x.toNat < 65536 → exec (.ldyAbsoluteX w) s = .next (done (s.mem.read (w.toNat + s.x.toNat)) 3#16)) ∧
        (65536 ≤ w.toNat + s.x.toNat → RaisesOutOfRange s (exec (.ldyAbsoluteX w) s) (w.toNat + s.x.toNat)))

/-- Rule R143. Every STA form decodes from its opcode; from every state in which the effective address lies in memory it
completes with the byte there equal to A, EVERY other byte of memory, every register but PC, every flag and every
status field unchanged, and PC past the instruction; it raises AddressOutOfRange with the address, storing nothing,
where the effective address is 65536 or more, and AddressOutOfRange(0x10000) where its operand bytes lie across the
top of memory. -/
def Obligations.StaStoresAccumulatorInEveryMode : Prop :=
  (∀ b1 b2 : Byte,
      decode [0x85#8, b1] = .ok (.staZeroPage b1, []) ∧
      decode [0x95#8, b1] = .ok (.staZeroPageX b1, []) ∧
      decode [0x8D#8, b1, b2] = .ok (.staAbsolute (word b1 b2), []) ∧
      decode [0x9D#8, b1, b2] = .ok (.staAbsoluteX (word b1 b2), []) ∧
      decode [0x99#8, b1, b2] = .ok (.staAbsoluteY (word b1 b2), []) ∧
      decode [0x81#8, b1] = .ok (.staIndexedIndirect b1, []) ∧
      decode [0x91#8, b1] = .ok (.staIndirectIndexed b1, [])) ∧
    (OperandFetchRaises 0x85#8 1 ∧ OperandFetchRaises 0x95#8 1 ∧ OperandFetchRaises 0x8D#8 2 ∧
      OperandFetchRaises 0x9D#8 2 ∧ OperandFetchRaises 0x99#8 2 ∧ OperandFetchRaises 0x81#8 1 ∧
      OperandFetchRaises 0x91#8 1) ∧
    ∀ s : State,
      let ptr := fun (p : Nat) => (s.mem.read (p + 1)).toNat * 256 + (s.mem.read p).toNat
      let done := fun (m : Memory) (len : Addr) => ({ s with mem := m, pc := s.pc + len } : State)
      (∀ zp : Byte, ∃ m, exec (.staZeroPage zp) s = .next (done m 2#16) ∧ ByteStored s.mem m zp.toNat s.a) ∧
      (∀ zp : Byte, ∃ m, exec (.staZeroPageX zp) s = .next (done m 2#16) ∧ ByteStored s.mem m ((zp.toNat + s.x.toNat) % 256) s.a) ∧
      (∀ w : Addr, ∃ m, exec (.staAbsolute w) s = .next (done m 3#16) ∧ ByteStored s.mem m w.toNat s.a) ∧
      (∀ w : Addr,
        (w.toNat + s.x.toNat < 65536 → ∃ m, exec (.staAbsoluteX w) s = .next (done m 3#16) ∧ ByteStored s.mem m (w.toNat + s.x.toNat) s.a) ∧
        (65536 ≤ w.toNat + s.x.toNat → RaisesOutOfRange s (exec (.staAbsoluteX w) s) (w.toNat + s.x.toNat))) ∧
      (∀ w : Addr,
        (w.toNat + s.y.toNat < 65536 → ∃ m, exec (.staAbsoluteY w) s = .next (done m 3#16) ∧ ByteStored s.mem m (w.toNat + s.y.toNat) s.a) ∧
        (65536 ≤ w.toNat + s.y.toNat → RaisesOutOfRange s (exec (.staAbsoluteY w) s) (w.toNat + s.y.toNat))) ∧
      (∀ zp : Byte, ∃ m, exec (.staIndexedIndirect zp) s = .next (done m 2#16) ∧ ByteStored s.mem m (ptr ((zp.toNat + s.x.toNat) % 256)) s.a) ∧
      (∀ zp : Byte,
        (ptr zp.toNat + s.y.toNat < 65536 → ∃ m, exec (.staIndirectIndexed zp) s = .next (done m 2#16) ∧ ByteStored s.mem m (ptr zp.toNat + s.y.toNat) s.a) ∧
        (65536 ≤ ptr zp.toNat + s.y.toNat → RaisesOutOfRange s (exec (.staIndirectIndexed zp) s) (ptr zp.toNat + s.y.toNat)))

/-- Rules R150, R151, R152, R153, R154, R155, R156. Each of the seven decodes from its one byte and, from every state,
completes with its flag at the value it names, whatever the flag was, PC one further (wrapping at the top), and
everything else unchanged; none of them raises. -/
def Obligations.FlagInstructionsWriteExactlyTheirFlag : Prop :=
  (decode [0x38#8] = .ok (.sec, []) ∧
      decode [0x18#8] = .ok (.clc, []) ∧
      decode [0x78#8] = .ok (.sei, []) ∧
      decode [0x58#8] = .ok (.cli, []) ∧
      decode [0xB8#8] = .ok (.clv, []) ∧
      decode [0xF8#8] = .ok (.sed, []) ∧
      decode [0xD8#8] = .ok (.cld, [])) ∧
    ∀ s : State,
      exec .sec s = .next { s with flagC := true, pc := s.pc + 1#16 } ∧
      exec .clc s = .next { s with flagC := false, pc := s.pc + 1#16 } ∧
      exec .sei s = .next { s with flagI := true, pc := s.pc + 1#16 } ∧
      exec .cli s = .next { s with flagI := false, pc := s.pc + 1#16 } ∧
      exec .clv s = .next { s with flagV := false, pc := s.pc + 1#16 } ∧
      exec .sed s = .next { s with flagD := true, pc := s.pc + 1#16 } ∧
      exec .cld s = .next { s with flagD := false, pc := s.pc + 1#16 }

/-- Rule R160. Every CMP form decodes from its opcode; from every state in which the effective address lies in memory it
completes with Z set exactly when A equals the operand, C by the unsigned order (the open parameter when they are
equal), PC past the instruction, and everything else unchanged, N included; it raises where the effective address is
65536 or more and where its operand bytes lie across the top of memory. -/
def Obligations.CmpComparesAccumulatorInEveryMode : Prop :=
  (∀ b1 b2 : Byte,
      decode [0xC9#8, b1] = .ok (.cmpImmediate b1, []) ∧
      decode [0xC5#8, b1] = .ok (.cmpZeroPage b1, []) ∧
      decode [0xD5#8, b1] = .ok (.cmpZeroPageX b1, []) ∧
      decode [0xCD#8, b1, b2] = .ok (.cmpAbsolute (word b1 b2), []) ∧
      decode [0xDD#8, b1, b2] = .ok (.cmpAbsoluteX (word b1 b2), []) ∧
      decode [0xD9#8, b1, b2] = .ok (.cmpAbsoluteY (word b1 b2), []) ∧
      decode [0xC1#8, b1] = .ok (.cmpIndexedIndirect b1, []) ∧
      decode [0xD1#8, b1] = .ok (.cmpIndirectIndexed b1, [])) ∧
    (OperandFetchRaises 0xC9#8 1 ∧ OperandFetchRaises 0xC5#8 1 ∧ OperandFetchRaises 0xD5#8 1 ∧
      OperandFetchRaises 0xCD#8 2 ∧ OperandFetchRaises 0xDD#8 2 ∧ OperandFetchRaises 0xD9#8 2 ∧
      OperandFetchRaises 0xC1#8 1 ∧ OperandFetchRaises 0xD1#8 1) ∧
    ∀ s : State,
      let ptr := fun (p : Nat) => (s.mem.read (p + 1)).toNat * 256 + (s.mem.read p).toNat
      let done := fun (m : Byte) (len : Addr) =>
        ({ s with
          flagZ := decide (s.a = m)
          flagC := if m.toNat < s.a.toNat then true else if s.a.toNat < m.toNat then false else Config.cmpCarryOnEqual
          pc := s.pc + len } : State)
      (∀ v, exec (.cmpImmediate v) s = .next (done v 2#16)) ∧
      (∀ zp : Byte, exec (.cmpZeroPage zp) s = .next (done (s.mem.read zp.toNat) 2#16)) ∧
      (∀ zp : Byte, exec (.cmpZeroPageX zp) s = .next (done (s.mem.read ((zp.toNat + s.x.toNat) % 256)) 2#16)) ∧
      (∀ w : Addr, exec (.cmpAbsolute w) s = .next (done (s.mem.read w.toNat) 3#16)) ∧
      (∀ w : Addr,
        (w.toNat + s.x.toNat < 65536 → exec (.cmpAbsoluteX w) s = .next (done (s.mem.read (w.toNat + s.x.toNat)) 3#16)) ∧
        (65536 ≤ w.toNat + s.x.toNat → RaisesOutOfRange s (exec (.cmpAbsoluteX w) s) (w.toNat + s.x.toNat))) ∧
      (∀ w : Addr,
        (w.toNat + s.y.toNat < 65536 → exec (.cmpAbsoluteY w) s = .next (done (s.mem.read (w.toNat + s.y.toNat)) 3#16)) ∧
        (65536 ≤ w.toNat + s.y.toNat → RaisesOutOfRange s (exec (.cmpAbsoluteY w) s) (w.toNat + s.y.toNat))) ∧
      (∀ zp : Byte, exec (.cmpIndexedIndirect zp) s = .next (done (s.mem.read (ptr ((zp.toNat + s.x.toNat) % 256))) 2#16)) ∧
      (∀ zp : Byte,
        (ptr zp.toNat + s.y.toNat < 65536 → exec (.cmpIndirectIndexed zp) s = .next (done (s.mem.read (ptr zp.toNat + s.y.toNat)) 2#16)) ∧
        (65536 ≤ ptr zp.toNat + s.y.toNat → RaisesOutOfRange s (exec (.cmpIndirectIndexed zp) s) (ptr zp.toNat + s.y.toNat)))

/-- Rule R161. Every CPX form decodes from its opcode and, from every state, completes with Z set exactly when X equals
the operand, C by the unsigned order (the open parameter when they are equal), PC past the instruction and
everything else unchanged; it raises only where its operand bytes lie across the top of memory. -/
def Obligations.CpxComparesXInEveryMode : Prop :=
  (∀ b1 b2 : Byte,
      decode [0xE0#8, b1] = .ok (.cpxImmediate b1, []) ∧
      decode [0xE4#8, b1] = .ok (.cpxZeroPage b1, []) ∧
      decode [0xEC#8, b1, b2] = .ok (.cpxAbsolute (word b1 b2), [])) ∧
    (OperandFetchRaises 0xE0#8 1 ∧ OperandFetchRaises 0xE4#8 1 ∧ OperandFetchRaises 0xEC#8 2) ∧
    ∀ s : State,
      let done := fun (m : Byte) (len : Addr) =>
        ({ s with
          flagZ := decide (s.x = m)
          flagC := if m.toNat < s.x.toNat then true else if s.x.toNat < m.toNat then false else Config.cmpCarryOnEqual
          pc := s.pc + len } : State)
      (∀ v, exec (.cpxImmediate v) s = .next (done v 2#16)) ∧
      (∀ zp : Byte, exec (.cpxZeroPage zp) s = .next (done (s.mem.read zp.toNat) 2#16)) ∧
      (∀ w : Addr, exec (.cpxAbsolute w) s = .next (done (s.mem.read w.toNat) 3#16))

/-- Rule R162. Every CPY form decodes from its opcode and, from every state, completes with Z set exactly when Y equals
the operand, C by the unsigned order (the open parameter when they are equal), PC past the instruction and
everything else unchanged; it raises only where its operand bytes lie across the top of memory. -/
def Obligations.CpyComparesYInEveryMode : Prop :=
  (∀ b1 b2 : Byte,
      decode [0xC0#8, b1] = .ok (.cpyImmediate b1, []) ∧
      decode [0xC4#8, b1] = .ok (.cpyZeroPage b1, []) ∧
      decode [0xCC#8, b1, b2] = .ok (.cpyAbsolute (word b1 b2), [])) ∧
    (OperandFetchRaises 0xC0#8 1 ∧ OperandFetchRaises 0xC4#8 1 ∧ OperandFetchRaises 0xCC#8 2) ∧
    ∀ s : State,
      let done := fun (m : Byte) (len : Addr) =>
        ({ s with
          flagZ := decide (s.y = m)
          flagC := if m.toNat < s.y.toNat then true else if s.y.toNat < m.toNat then false else Config.cmpCarryOnEqual
          pc := s.pc + len } : State)
      (∀ v, exec (.cpyImmediate v) s = .next (done v 2#16)) ∧
      (∀ zp : Byte, exec (.cpyZeroPage zp) s = .next (done (s.mem.read zp.toNat) 2#16)) ∧
      (∀ w : Addr, exec (.cpyAbsolute w) s = .next (done (s.mem.read w.toNat) 3#16))

/-- Rule R163. For all bytes r and m the carry is true when r is above m, false when r is below m and the open parameter
when they are equal, whatever that parameter is; with the recommended value true it is the unsigned r >= m, with
false it is r > m. -/
def Obligations.CompareCarryIsTheUnsignedOrder : Prop :=
  ∀ r m : Byte,
    (m.toNat < r.toNat → cmpCarry r m = true) ∧ (r.toNat < m.toNat → cmpCarry r m = false) ∧
      (r = m → cmpCarry r m = Config.cmpCarryOnEqual) ∧
      (Config.cmpCarryOnEqual = true → cmpCarry r m = decide (r.toNat ≥ m.toNat)) ∧
      (Config.cmpCarryOnEqual = false → cmpCarry r m = decide (r.toNat > m.toNat))

/-- Rule R164. Whenever CMP, CPX or CPY, in any mode, answers a next state, that state differs from the one before in Z,
C and PC alone, or the instruction aborted and it differs in the run control alone. -/
def Obligations.ComparesWriteZeroAndCarryOnly : Prop :=
  ∀ (i : Instr) (s t : State), i.mnemonic = .cmp ∨ i.mnemonic = .cpx ∨ i.mnemonic = .cpy → exec i s = .next t →
    t = { s with flagZ := t.flagZ, flagC := t.flagC, pc := s.pc + BitVec.ofNat 16 i.length } ∨
      ∃ n, RaisesOutOfRange s (.next t) n

/-- Rule R170. Every memory form of ASL decodes from its opcode; from every state in which the effective address lies in
memory it completes with the byte there doubled mod 256, C the bit shifted out, Z and N from the result, PC past the
instruction, and EVERY other byte of memory, register, flag and status field unchanged; it raises, storing nothing,
where the effective address is 65536 or more and where its operand bytes lie across the top of memory. -/
def Obligations.AslShiftsMemoryInEveryMode : Prop :=
  (∀ b1 b2 : Byte,
      decode [0x06#8, b1] = .ok (.aslZeroPage b1, []) ∧
      decode [0x16#8, b1] = .ok (.aslZeroPageX b1, []) ∧
      decode [0x0E#8, b1, b2] = .ok (.aslAbsolute (word b1 b2), []) ∧
      decode [0x1E#8, b1, b2] = .ok (.aslAbsoluteX (word b1 b2), [])) ∧
    (OperandFetchRaises 0x06#8 1 ∧ OperandFetchRaises 0x16#8 1 ∧ OperandFetchRaises 0x0E#8 2 ∧ OperandFetchRaises 0x1E#8 2) ∧
    ∀ s : State,
      let done := fun (v : Byte) (m : Memory) (len : Addr) =>
        ({ s with
          mem := m
          flagC := decide (128 ≤ v.toNat)
          flagZ := decide (v.toNat * 2 % 256 = 0)
          flagN := decide (128 ≤ v.toNat * 2 % 256)
          pc := s.pc + len } : State)
      (∀ zp : Byte, ∃ m, exec (.aslZeroPage zp) s = .next (done (s.mem.read zp.toNat) m 2#16) ∧
          ByteStored s.mem m zp.toNat (BitVec.ofNat 8 ((s.mem.read zp.toNat).toNat * 2))) ∧
      (∀ zp : Byte, ∃ m, exec (.aslZeroPageX zp) s = .next (done (s.mem.read ((zp.toNat + s.x.toNat) % 256)) m 2#16) ∧
          ByteStored s.mem m ((zp.toNat + s.x.toNat) % 256) (BitVec.ofNat 8 ((s.mem.read ((zp.toNat + s.x.toNat) % 256)).toNat * 2))) ∧
      (∀ w : Addr, ∃ m, exec (.aslAbsolute w) s = .next (done (s.mem.read w.toNat) m 3#16) ∧
          ByteStored s.mem m w.toNat (BitVec.ofNat 8 ((s.mem.read w.toNat).toNat * 2))) ∧
      (∀ w : Addr,
        (w.toNat + s.x.toNat < 65536 → ∃ m, exec (.aslAbsoluteX w) s = .next (done (s.mem.read (w.toNat + s.x.toNat)) m 3#16) ∧
          ByteStored s.mem m (w.toNat + s.x.toNat) (BitVec.ofNat 8 ((s.mem.read (w.toNat + s.x.toNat)).toNat * 2))) ∧
        (65536 ≤ w.toNat + s.x.toNat → RaisesOutOfRange s (exec (.aslAbsoluteX w) s) (w.toNat + s.x.toNat)))

/-- Rule R171. ASL A decodes from its one byte and, from every state, completes with A doubled mod 256, C the bit
shifted out, Z and N from the result, PC one further, and everything else unchanged, memory included; it never
raises. -/
def Obligations.AslAShiftsAccumulator : Prop :=
  decode [0x0A#8] = .ok (.aslA, []) ∧
    ∀ s : State, exec .aslA s = .next
      { s with
        a := BitVec.ofNat 8 (s.a.toNat * 2)
        flagC := decide (128 ≤ s.a.toNat)
        flagZ := decide (s.a.toNat * 2 % 256 = 0)
        flagN := decide (128 ≤ s.a.toNat * 2 % 256)
        pc := s.pc + 1#16 }

/-- Rules R180, R181, R182, R183, R184, R185, R186, R187, R188. Each branch decodes from its opcode and offset byte and,
from every state, completes with PC the branch's address plus 2 plus the signed offset (mod 65536) when its
condition on its one flag holds, and plus 2 when not, and everything else unchanged; whatever its condition, it
raises AddressOutOfRange(0x10000) where its offset byte would lie at 0x10000. -/
def Obligations.BranchesTakeTheirConditionAndWritePcOnly : Prop :=
  (∀ b1 : Byte,
      decode [0x90#8, b1] = .ok (.bcc b1, []) ∧
      decode [0xD0#8, b1] = .ok (.bne b1, []) ∧
      decode [0xB0#8, b1] = .ok (.bcs b1, []) ∧
      decode [0xF0#8, b1] = .ok (.beq b1, []) ∧
      decode [0x30#8, b1] = .ok (.bmi b1, []) ∧
      decode [0x10#8, b1] = .ok (.bpl b1, []) ∧
      decode [0x50#8, b1] = .ok (.bvc b1, []) ∧
      decode [0x70#8, b1] = .ok (.bvs b1, [])) ∧
    (OperandFetchRaises 0x90#8 1 ∧ OperandFetchRaises 0xD0#8 1 ∧ OperandFetchRaises 0xB0#8 1 ∧
      OperandFetchRaises 0xF0#8 1 ∧ OperandFetchRaises 0x30#8 1 ∧ OperandFetchRaises 0x10#8 1 ∧
      OperandFetchRaises 0x50#8 1 ∧ OperandFetchRaises 0x70#8 1) ∧
    ∀ (s : State) (b1 : Byte),
      let off : Int := if b1.toNat < 128 then (b1.toNat : Int) else (b1.toNat : Int) - 256
      let done := fun (cond : Bool) =>
        ({ s with
          pc := if cond then BitVec.ofInt 16 ((s.pc.toNat : Int) + 2 + off) else BitVec.ofInt 16 ((s.pc.toNat : Int) + 2) } : State)
      exec (.bcc b1) s = .next (done (!s.flagC)) ∧
      exec (.bne b1) s = .next (done (!s.flagZ)) ∧
      exec (.bcs b1) s = .next (done s.flagC) ∧
      exec (.beq b1) s = .next (done s.flagZ) ∧
      exec (.bmi b1) s = .next (done s.flagN) ∧
      exec (.bpl b1) s = .next (done (!s.flagN)) ∧
      exec (.bvc b1) s = .next (done (!s.flagV)) ∧
      exec (.bvs b1) s = .next (done s.flagV)

/-- From 40_cycle_and_addressing.md section 1, The cycle; 60_exceptions.md section 2, Run control. If it is the core's
turn, the run state is Running and the bytes of an instruction stand at PC inside memory, then the step is exec of
that instruction, in the state with this turn taken off the list; with no turn listed, that state is the state
itself. -/
def Obligations.RunningStepRunsTheInstructionAtPc : Prop :=
  ∀ (s u : State) (i : Instr), s.coreTurn = some u → s.runState = .running → s.HoldsAtPc i →
    step s = exec i u ∧ u = { s with turns := s.turns.tail } ∧ (s.turns = [] → u = s)

/-- From 40_cycle_and_addressing.md section 1, The cycle; 70_reset_and_hazards.md section 2, Boot. From a state with
memory in canonical form and room for three bytes at PC, placing an instruction word there and starting the core
makes the next step exec of the instruction the decoder reads from the word (how a program is placed is the model's
own, log 11). -/
def Obligations.WordPlacedForTheFetchIsRunNext : Prop :=
  ∀ (s : State) (nbits w : Nat) (i : Instr), s.mem.wf = true → s.pc.toNat + 3 ≤ 65536 →
    decodeTableWord nbits w = some i →
      step (s.withFetchWord nbits w) = exec i (s.withFetchWord nbits w)

/-- Rule R201. On the core's turn in Running, if the byte at PC has no row, then, whatever the registers, flags and
later bytes are, the step ends in Stopped with cause UnknownOpcode, that byte and PC recorded, PC still at the byte,
and everything else unchanged. -/
def Obligations.UnknownOpcodeStopsTheCore : Prop :=
  ∀ s u : State, s.coreTurn = some u → u.runState = .running → lookupOpcode (u.mem.read u.pc.toNat) = none →
    RaisesUnknownOpcode u (step s) (u.mem.read u.pc.toNat)

/-- Rule R111. For a byte with a row at PC, the fetch gives an instruction of that row if the instruction lies inside
memory and AddressOutOfRange(0x10000) if not; it depends on PC and on the bytes of the instruction alone, changes no
state, and the opcode fetch itself never raises (the spec's decision D3). -/
def Obligations.FetchReadsExactlyTheInstructionsBytes : Prop :=
  ∀ (s : State) (r : Row), lookupOpcode (s.mem.read s.pc.toNat) = some r →
    memRead s s.pc.toNat = .ok (s.mem.read s.pc.toNat) ∧
    (s.pc.toNat + 1 + r.mode.operandBytes ≤ 65536 →
      ∃ i, fetch s = .ok i ∧ i.opcode = s.mem.read s.pc.toNat ∧ i.mode = r.mode ∧
        (∀ b1, i.operands = [b1] → b1 = s.mem.read (s.pc.toNat + 1)) ∧
        (∀ b1 b2, i.operands = [b1, b2] → b1 = s.mem.read (s.pc.toNat + 1) ∧ b2 = s.mem.read (s.pc.toNat + 2))) ∧
    (65536 < s.pc.toNat + 1 + r.mode.operandBytes → fetch s = .error (.addressOutOfRange 0x10000)) ∧
    ∀ t : State, t.pc = s.pc →
      (∀ k, k ≤ r.mode.operandBytes → t.mem.read (s.pc.toNat + k) = s.mem.read (s.pc.toNat + k)) → fetch t = fetch s

/-- From 40_cycle_and_addressing.md section 1, The cycle; 45_branch.md, the branch rules. Whenever an instruction of a
running core completes, PC is advanced by its length mod 65536 if it is not a branch; a branch leaves PC either so
advanced or at PC + 2 plus its signed offset. -/
def Obligations.CompletedInstructionAdvancesPcByItsLength : Prop :=
  ∀ (i : Instr) (s t : State), s.runState = .running → exec i s = .next t → t.runState = .running →
    (i.mode ≠ .relative → t.pc = s.pc + BitVec.ofNat 16 i.length) ∧
      ∀ b1, i.mode = .relative → i.operands = [b1] →
        t.pc = s.pc + BitVec.ofNat 16 i.length ∨
          t.pc = BitVec.ofInt 16 ((s.pc.toNat : Int) + 2 + (if b1.toNat < 128 then (b1.toNat : Int) else (b1.toNat : Int) - 256))

/-- From 60_exceptions.md section 1, The error conditions. Whenever the core's turn in Running or Stopping ends in
Stopped with cause UnknownOpcode or AddressOutOfRange, every register, every flag, PC and all of memory are what
they were before it, and STOP_INFO.pc is PC; for UnknownOpcode the recorded opcode is the byte at PC (the spec's
decision D14). -/
def Obligations.AbortLeavesNothingButTheRunControlChanged : Prop :=
  ∀ s u t : State, s.coreTurn = some u → u.runState = .running ∨ u.runState = .stopping → step s = .next t →
    t.runState = .stopped → t.stopCause = .unknownOpcode ∨ t.stopCause = .addressOutOfRange →
      t = { u with
        runState := .stopped
        stopCause := t.stopCause
        stopInfoPc := u.pc
        stopInfoOpcode := t.stopInfoOpcode
        stopInfoAddress := t.stopInfoAddress
        freeIndex := t.freeIndex } ∧
      (t.stopCause = .unknownOpcode →
        t.stopInfoOpcode = u.mem.read u.pc.toNat ∧ lookupOpcode (u.mem.read u.pc.toNat) = none)

/-- From 40_cycle_and_addressing.md section 3, Ranges and faults; 60_exceptions.md section 1, The error conditions. For
every instruction and every state exec answers a next state: either one with the same run state and stop cause, or
the abort with AddressOutOfRange of an address from 0x10000 to 0x100FE, which happens only for ABSOLUTE_X,
ABSOLUTE_Y and INDIRECT_INDEXED. No instruction faults and none is refused. -/
def Obligations.EveryInstructionCompletesOrRaisesOutOfRange : Prop :=
  ∀ (i : Instr) (s : State),
    (∃ t, exec i s = .next t ∧ t.runState = s.runState ∧ t.stopCause = s.stopCause) ∨
      ∃ n, RaisesOutOfRange s (exec i s) n ∧ 0x10000 ≤ n ∧ n ≤ 0x100FE ∧
        (i.mode = .absoluteX ∨ i.mode = .absoluteY ∨ i.mode = .indirectIndexed)

/-- From 10_state.md section 1, The register file. Whenever any instruction answers a next state, SP is unchanged; A is
unchanged unless the instruction is LDA or ASL A, X unless it is LDX, Y unless it is LDY. -/
def Obligations.RegistersAreWrittenOnlyByTheirInstructions : Prop :=
  ∀ (i : Instr) (s t : State), exec i s = .next t →
    t.sp = s.sp ∧ (t.a ≠ s.a → i.mnemonic = .lda ∨ i.mnemonic = .aslA) ∧ (t.x ≠ s.x → i.mnemonic = .ldx) ∧
      (t.y ≠ s.y → i.mnemonic = .ldy)

/-- From 10_state.md section 3, The processor status flags. Whenever any instruction answers a next state: C is
unchanged unless it is SEC, CLC, a compare or a shift; Z unless it is a load, a compare or a shift; N unless it is a
load or a shift; I unless it is SEI or CLI; D unless it is SED or CLD; V can only have been cleared, by CLV; B is
unchanged. -/
def Obligations.FlagsAreWrittenOnlyByTheirInstructions : Prop :=
  ∀ (i : Instr) (s t : State), exec i s = .next t →
    (t.flagC ≠ s.flagC → i.mnemonic ∈ [.sec, .clc, .cmp, .cpx, .cpy, .asl, .aslA]) ∧
    (t.flagZ ≠ s.flagZ → i.mnemonic ∈ [.lda, .ldx, .ldy, .cmp, .cpx, .cpy, .asl, .aslA]) ∧
    (t.flagN ≠ s.flagN → i.mnemonic ∈ [.lda, .ldx, .ldy, .asl, .aslA]) ∧
    (t.flagI ≠ s.flagI → i.mnemonic ∈ [.sei, .cli]) ∧
    (t.flagD ≠ s.flagD → i.mnemonic ∈ [.sed, .cld]) ∧
    (t.flagV ≠ s.flagV → i.mnemonic = .clv ∧ t.flagV = false) ∧
    t.flagB = s.flagB

/-- From 20_memory.md section 5, Which instructions reach memory; 20_memory.md section 2, Byte order, alignment, widths.
Whenever any instruction answers a next state, every address reads as before, but for the address its mode's
resolver gives, in the state before it, when the instruction is STA or ASL with a memory operand; an instruction of
any other kind leaves all of memory as it reads. -/
def Obligations.MemoryIsWrittenOnlyAtTheStoredAddress : Prop :=
  ∀ (i : Instr) (s t : State), exec i s = .next t →
    (∀ ea, dataWrite i s = some ea → ∀ addr, addr ≠ ea → t.mem.read addr = s.mem.read addr) ∧
      (dataWrite i s = none → ∀ addr, t.mem.read addr = s.mem.read addr) ∧
      (dataWrite i s ≠ none → i.mnemonic = .sta ∨ i.mnemonic = .asl)

/-- From 10_state.md section 1, The register file (SP); 10_state.md section 3, The processor status flags (I, D and B).
If an instruction takes one state to another, then from the first state with any other SP, I, D and B it takes to
the second state with some other I and D, with the changed SP and B, and with everything else the same. -/
def Obligations.StackPointerAndInertFlagsInfluenceNothing : Prop :=
  ∀ (i : Instr) (s t : State) (sp' : Byte) (i' d' b' : Bool), exec i s = .next t →
    ∃ i'' d'', exec i { s with sp := sp', flagI := i', flagD := d', flagB := b' } =
      .next { t with sp := sp', flagI := i'', flagD := d'', flagB := b' }

/-- From 20_memory.md section 5, Which instructions reach memory; 40_cycle_and_addressing.md section 2, The resolvers.
If two states differ in memory alone, both memories in canonical form, and agree on the pointer bytes and the target
byte the table of data accesses lists for the instruction, then both runs give the same registers, flags and run
control, store the same byte at the same address, and leave every other address as each found it; STA does not
depend on its target. -/
def Obligations.InstructionReadsOnlyItsDataAddresses : Prop :=
  ∀ (i : Instr) (s t : State) (m : Memory), s.mem.wf = true → m.wf = true →
    (∀ addr ∈ dataReads i s, m.read addr = s.mem.read addr) → exec i s = .next t →
      ∃ m', exec i { s with mem := m } = .next { t with mem := m' } ∧
        (∀ addr, dataWrite i s = some addr → addr < 65536 → m'.read addr = t.mem.read addr) ∧
        (∀ addr, dataWrite i s ≠ some addr → m'.read addr = m.read addr)

/-- From 10_state.md section 6, Reset values, in one table. The state after reset has memory in canonical form and no
stop cause recorded outside Stopped. -/
def Obligations.InvariantHoldsAtReset : Prop :=
  State.reset.Inv

/-- From 10_state.md section 4, Control and status state; 20_memory.md section 1, The address space; 60_exceptions.md
section 2, Run control; 40_cycle_and_addressing.md section 3, Ranges and faults. From every state that meets the
invariant, whichever turn is next, a step that answers a next state gives one that meets it: memory keeps its
canonical form below 65536, a stop cause is recorded exactly in Stopped, a recorded out-of-range address lies in
0x10000 to 0x100FE, and a recorded unknown opcode has no row. -/
def Obligations.EveryStepKeepsTheInvariant : Prop :=
  ∀ s t : State, s.Inv → step s = .next t → t.Inv

/-- From 60_exceptions.md section 2, Run control (the run-state table, core's rows). On the core's turn there is always
a next state; in Idle and in Stopped it is the state itself; from Running it is Running with the stop cause as
before, or Stopped by an error; from Stopping it is Stopped, by an error or by the request. An accepted stop request
is so followed by Stopped at the core's next turn. (That a turn in Idle or Stopped is a step that changes nothing is
the model's choice, log 7.) -/
def Obligations.CoreMovesTheRunStateAsTheTableSays : Prop :=
  ∀ s u : State, s.coreTurn = some u → ∃ t, step s = .next t ∧
    (u.runState = .idle → t = u) ∧ (u.runState = .stopped → t = u) ∧
    (u.runState = .running →
      (t.runState = .running ∧ t.stopCause = u.stopCause) ∨
        (t.runState = .stopped ∧ (t.stopCause = .unknownOpcode ∨ t.stopCause = .addressOutOfRange))) ∧
    (u.runState = .stopping →
      t.runState = .stopped ∧
        (t.stopCause = .stopRequested ∨ t.stopCause = .unknownOpcode ∨ t.stopCause = .addressOutOfRange))

/-- Rule R214. On the core's turn in Stopping the step gives Stopped: either nothing is executed and the request is the
cause, or exactly one instruction is run and the request is the cause if it completed, its own abort if it aborted.
Which of the two is open (log 5), and the statement holds for both; the index of the free values goes on by one for
the choice. -/
def Obligations.StoppingRunsAtMostOneMoreInstruction : Prop :=
  ∀ s u : State, s.coreTurn = some u → u.runState = .stopping → ∃ t,
    step s = .next t ∧ t.runState = .stopped ∧
      (StoppedByRequest { u with freeIndex := u.freeIndex + 1 } t ∨
        ∃ v, runInstruction { u with freeIndex := u.freeIndex + 1 } = .next v ∧
          ((v.runState = .stopping ∧ StoppedByRequest v t) ∨
            (v.runState = .stopped ∧ t = v ∧ (v.stopCause = .unknownOpcode ∨ v.stopCause = .addressOutOfRange))))

/-- From 60_exceptions.md section 2, Run control. From Stopped every step that answers a next state stays in Stopped,
but for the host's RESET, which gives Idle; the core's turn changes no register, flag, PC or memory byte; start and
stop requests are rejected and change nothing but the answer and the turns (the spec's decision D16). (The spec says
that the core takes no step in Stopped; that its turn there is a step that changes nothing but the turns is the
model's choice, log 7, and the answer field is the model's form of the rejection, log 12.) -/
def Obligations.StoppedIsFinalButForReset : Prop :=
  ∀ s : State, s.runState = .stopped →
    (∀ t, step s = .next t → s.turns.head? ≠ some (.host .reset) → t.runState = .stopped) ∧
    (∀ u, s.coreTurn = some u → step s = .next u ∧ u = { s with turns := s.turns.tail }) ∧
    (∀ u, s.hostTurn = some (.start, u) ∨ s.hostTurn = some (.stopRequest, u) →
      step s = .next { u with answer := some .rejected }) ∧
    (∀ u, s.hostTurn = some (.reset, u) → ∃ t, step s = .next t ∧ t.runState = .idle)

/-- Rule R211. On the host's turn with start: from Idle the next state is the state with RUN_STATE Running and the
answer accepted, and nothing else changed: registers, flags, PC and memory stay; from Running, Stopping and Stopped
the answer is InvalidStateTransition and nothing else changes. -/
def Obligations.StartMovesIdleToRunningOnly : Prop :=
  ∀ s u : State, s.hostTurn = some (.start, u) →
    (u.runState = .idle → step s = .next { u with runState := .running, answer := some .accepted }) ∧
      (u.runState ≠ .idle → step s = .next { u with answer := some .rejected })

/-- Rule R212. On the host's turn with a stop request: from Running the next state is the state with RUN_STATE Stopping
and the answer accepted, and nothing else changed; from Idle, Stopping and Stopped the answer is
InvalidStateTransition and nothing else changes. -/
def Obligations.StopRequestMovesRunningToStoppingOnly : Prop :=
  ∀ s u : State, s.hostTurn = some (.stopRequest, u) →
    (u.runState = .running → step s = .next { u with runState := .stopping, answer := some .accepted }) ∧
      (u.runState ≠ .running → step s = .next { u with answer := some .rejected })

/-- Rule R204. A start outside Idle, and a stop request outside Running, is answered with InvalidStateTransition, error
number 3, and leaves RUN_STATE, STOP_CAUSE, every register, flag and memory byte as they were; a running core is
still Running. -/
def Obligations.RejectedRequestsChangeNothing : Prop :=
  ∀ (s u : State) (m : HostMove), s.hostTurn = some (m, u) →
    (m = .start ∧ s.runState ≠ .idle) ∨ (m = .stopRequest ∧ s.runState ≠ .running) →
      ∃ t, step s = .next t ∧ t.answer = some .rejected ∧ Answer.errorCode .rejected = some 3 ∧
        t = { s with turns := s.turns.tail, answer := t.answer } ∧ t.stopCause = s.stopCause ∧
        t.runState = s.runState

/-- Rule R246. On the host's turn with loadBinaries in Idle or Stopped, with memory in canonical form: if the bytes fit
(or there are none), every byte is stored mod 256 at its address, every other address reads as before, PC is the
load address mod 65536 and nothing else changes; if not, the bytes below the end of memory are stored, no other
address changes, PC and everything else stays, and AddressOutOfRange with the first address outside memory is
answered. (The answer field is the model's form of the report, log 12; the spec's decision D19.) -/
def Obligations.LoadBinariesWritesBytesAndSetsPc : Prop :=
  ∀ (s u : State) (bytes : List Int) (loadAddress : Nat), s.hostTurn = some (.loadBinaries bytes loadAddress, u) →
    u.mem.wf = true → u.runState = .idle ∨ u.runState = .stopped →
      ∃ m : Memory,
        (∀ addr, ((m.read addr).toNat : Int) =
          if h : loadAddress ≤ addr ∧ addr < 65536 ∧ addr - loadAddress < bytes.length
          then bytes[addr - loadAddress]'h.2.2 % 256 else ((u.mem.read addr).toNat : Int)) ∧
        (bytes = [] ∨ loadAddress + bytes.length ≤ 65536 →
          step s = .next
            { u with mem := m, pc := BitVec.ofNat 16 loadAddress, answer := some .accepted }) ∧
        (bytes ≠ [] ∧ 65536 < loadAddress + bytes.length →
          step s = .next
            { u with mem := m, answer := some (.addressOutOfRange (max 65536 loadAddress)) })

/-- Rule R247. On the host's turn with loadAndExecuteBinaries in Idle or Stopped the next state is that of loadBinaries
from the same state with, where the load succeeded, Idle turned to Running and the answer accepted, or in Stopped
the load kept and the start rejected; where the load reports AddressOutOfRange, it is that of the load alone. -/
def Obligations.LoadAndExecuteLoadsThenStarts : Prop :=
  ∀ (s u v w : State) (bytes : List Int) (loadAddress : Nat),
    s.hostTurn = some (.loadAndExecute bytes loadAddress, u) → v.hostTurn = some (.loadBinaries bytes loadAddress, u) →
    step v = .next w →
      (w.answer = some .accepted → w.runState = .idle →
        step s = .next { w with runState := .running, answer := some .accepted }) ∧
      (w.answer = some .accepted → w.runState = .stopped → step s = .next { w with answer := some .rejected }) ∧
      ((∃ bad, w.answer = some (.addressOutOfRange bad)) → step s = .next w)

/-- Rule R248. On the host's turn in Idle or Stopped: a register takes the value mod 256, PC the value mod 65536, a flag
the value, a memory byte below 65536 the value mod 256 with every other address reading as before; EVERY other field
is as before, but for the answer, which is the model's (log 12). -/
def Obligations.HostSetWritesOneFieldMasked : Prop :=
  ∀ s u : State, u.runState = .idle ∨ u.runState = .stopped →
    (∀ v : Int, ∃ b : Byte, b = BitVec.ofInt 8 v ∧ (b.toNat : Int) = v % 256 ∧
      (s.hostTurn = some (.setReg .a v, u) → step s = .next { u with a := b, answer := some .accepted }) ∧
      (s.hostTurn = some (.setReg .x v, u) → step s = .next { u with x := b, answer := some .accepted }) ∧
      (s.hostTurn = some (.setReg .y v, u) → step s = .next { u with y := b, answer := some .accepted }) ∧
      (s.hostTurn = some (.setReg .sp v, u) → step s = .next { u with sp := b, answer := some .accepted }) ∧
      ∀ r : Reg, s.hostTurn = some (.setReg r v, u) → ∃ t, step s = .next t ∧ t.reg r = b) ∧
    (∀ v : Int, s.hostTurn = some (.setPc v, u) →
      ∃ pc' : Addr, step s = .next { u with pc := pc', answer := some .accepted } ∧ (pc'.toNat : Int) = v % 65536) ∧
    (∀ v : Bool,
      (s.hostTurn = some (.setFlag .c v, u) → step s = .next { u with flagC := v, answer := some .accepted }) ∧
      (s.hostTurn = some (.setFlag .z v, u) → step s = .next { u with flagZ := v, answer := some .accepted }) ∧
      (s.hostTurn = some (.setFlag .i v, u) → step s = .next { u with flagI := v, answer := some .accepted }) ∧
      (s.hostTurn = some (.setFlag .d v, u) → step s = .next { u with flagD := v, answer := some .accepted }) ∧
      (s.hostTurn = some (.setFlag .b v, u) → step s = .next { u with flagB := v, answer := some .accepted }) ∧
      (s.hostTurn = some (.setFlag .v v, u) → step s = .next { u with flagV := v, answer := some .accepted }) ∧
      (s.hostTurn = some (.setFlag .n v, u) → step s = .next { u with flagN := v, answer := some .accepted }) ∧
      ∀ f : Flag, s.hostTurn = some (.setFlag f v, u) → ∃ t, step s = .next t ∧ t.flag f = v) ∧
    (∀ (addr : Nat) (v : Int), s.hostTurn = some (.setByte addr v, u) → addr < 65536 →
      ∃ m, step s = .next { u with mem := m, answer := some .accepted } ∧
        ByteStored u.mem m addr (BitVec.ofInt 8 v))

/-- Rule R249. On the host's turn: RUN_STATE and STOP_CAUSE with STOP_INFO are answered with their current values in
every run state; a register, PC, a flag or a memory byte below 65536 is answered with its current value in Idle and
Stopped and with some value of its width in Running and Stopping, of which nothing is said; no read changes anything
but the answer, the turns and the index of the free values. -/
def Obligations.HostGetIsCurrentAtRestAndAnyValueElse : Prop :=
  ∀ s u : State,
    (s.hostTurn = some (.getRunState, u) → step s = .next { u with answer := some (.runState u.runState) }) ∧
    (s.hostTurn = some (.getStopCause, u) → step s = .next
      { u with answer := some (.stopCause u.stopCause u.stopInfoPc u.stopInfoOpcode u.stopInfoAddress) }) ∧
    (∀ r, s.hostTurn = some (.getReg r, u) → ∃ v k, step s = .next
      { u with answer := some (.byte v), freeIndex := k } ∧
        (u.runState = .idle ∨ u.runState = .stopped → v = u.reg r ∧ k = u.freeIndex)) ∧
    (s.hostTurn = some (.getPc, u) → ∃ v k, step s = .next
      { u with answer := some (.word v), freeIndex := k } ∧
        (u.runState = .idle ∨ u.runState = .stopped → v = u.pc ∧ k = u.freeIndex)) ∧
    (∀ f, s.hostTurn = some (.getFlag f, u) → ∃ v k, step s = .next
      { u with answer := some (.flag v), freeIndex := k } ∧
        (u.runState = .idle ∨ u.runState = .stopped → v = u.flag f ∧ k = u.freeIndex)) ∧
    (∀ addr, s.hostTurn = some (.getByte addr, u) → addr < 65536 → ∃ v k, step s = .next
      { u with answer := some (.byte v), freeIndex := k } ∧
        (u.runState = .idle ∨ u.runState = .stopped → v = u.mem.read addr ∧ k = u.freeIndex))

/-- From 60_exceptions.md section 2, Run control. On the host's turn with a wait: in Stopped it is answered and nothing
else changes; in any other run state it is not answered: the step is the core's, and the wait is still the next turn
of the state the core steps from. (The spec says that the wait returns in Stopped and never otherwise; that a wait
which has not ended stays the next turn while the core goes on is the model's choice, log 13, and so is what the
core's turn is in Idle, log 7.) -/
def Obligations.WaitEndsExactlyInStopped : Prop :=
  ∀ s u : State, s.hostTurn = some (.waitStopped, u) →
    (s.runState = .stopped → step s = .next { u with answer := some .stopped }) ∧
      (s.runState ≠ .stopped → step s = coreStep s)

/-- Rule R45. After reset A, X and Y are 0x00, PC is 0x0600, all seven flags are false, RUN_STATE is Idle, STOP_CAUSE is
None, SP is the open parameter, and every address of memory reads 0x00. (STOP_INFO is unspecified and nothing is
said of it; the spec's decisions D5, D6, D15.) -/
def Obligations.ResetStateIsTheSpecsTable : Prop :=
  State.reset.a = 0x00#8 ∧ State.reset.x = 0x00#8 ∧ State.reset.y = 0x00#8 ∧ State.reset.sp = Config.resetSp ∧
    State.reset.pc = 0x0600#16 ∧ (∀ f, State.reset.flag f = false) ∧ State.reset.runState = .idle ∧
    State.reset.stopCause = .none ∧ ∀ addr, State.reset.mem.read addr = 0x00#8

/-- From 70_reset_and_hazards.md section 1, Reset; 10_state.md section 6, Reset values, in one table. On the host's turn
with RESET: from Idle and Stopped the next state has every register, flag, RUN_STATE, STOP_CAUSE and memory byte as
the reset state has it, whatever they were; from Running and Stopping the move is refused by name. (The spec gives
RESET no meaning in Running and Stopping; that the model refuses it there is the model's choice, log 8. The fields
left out of the comparison are STOP_INFO, which is unspecified, and the model's own, log 18; the spec's decision
D20.) -/
def Obligations.ResetMoveGivesTheResetState : Prop :=
  ∀ s u : State, s.hostTurn = some (.reset, u) →
    (u.runState = .idle ∨ u.runState = .stopped → ∃ t, step s = .next t ∧
      { t with
        stopInfoPc := State.reset.stopInfoPc
        stopInfoOpcode := State.reset.stopInfoOpcode
        stopInfoAddress := State.reset.stopInfoAddress
        turns := State.reset.turns
        answer := State.reset.answer
        freeIndex := State.reset.freeIndex } = State.reset) ∧
    (u.runState = .running ∨ u.runState = .stopping → step s = .refused .hostMoveOutsideContract)

/-- From 70_reset_and_hazards.md section 4, Hazards; 70_reset_and_hazards.md section 3, The host's operations (the table
of moves). Every step answers a next state, but for the host's turn with RESET, a set, loadBinaries or
loadAndExecuteBinaries while the run state is Running or Stopping, which is refused by name and only then; no step
faults. (All of this is the model's choice where the spec has no such step or says nothing: that these moves are
refused, log 8; that the core's turn in Idle and Stopped is a step, log 7; that a set or get of a byte at or above
65536 is answered, log 10; that a wait which has not ended is the core's step, log 13.) -/
def Obligations.OnlyHostWritesWhileRunningAreRefused : Prop :=
  ∀ s : State,
    ((∃ t, step s = .next t) ∨ step s = .refused .hostMoveOutsideContract) ∧
    (step s = .refused .hostMoveOutsideContract ↔
      (s.runState = .running ∨ s.runState = .stopping) ∧
        ∃ m u, s.hostTurn = some (m, u) ∧
          (m = .reset ∨ (∃ r v, m = .setReg r v) ∨ (∃ v, m = .setPc v) ∨ (∃ f v, m = .setFlag f v) ∨
            (∃ addr v, m = .setByte addr v) ∨ (∃ bytes addr, m = .loadBinaries bytes addr) ∨
            ∃ bytes addr, m = .loadAndExecute bytes addr))
end

