-- ==== Sys2Proof/Laws/Memory.lean ====
section
/-! SUPPORT. The laws of memory: a read after a write, every other address, and the canonical form, which every memory
operation keeps. -/

namespace Sys2Proof.Machine

namespace Memory

/-- The four facts the canonical form says of a non-empty memory. -/
theorem wf_cons {k : Nat} {b : Byte} {m : Memory} :
    Memory.wf ((k, b) :: m) = true ↔
      k < Config.memSize ∧ b ≠ Config.memInit ∧ (∀ cell ∈ m, k < cell.1) ∧ Memory.wf m = true := by
  simp [Memory.wf, and_assoc]

/-- An address that no entry has reads as an unlisted one. -/
theorem read_eq_init_of_not_listed {m : Memory} {a : Nat} (h : ∀ cell ∈ m, cell.1 ≠ a) :
    Memory.read m a = Config.memInit := by
  induction m with
  | nil => rfl
  | cons cell m ih =>
    obtain ⟨k, b⟩ := cell
    have hk : a ≠ k := fun e => h (k, b) (by simp) e.symm
    simp only [Memory.read, if_neg hk]
    exact ih fun c hc => h c (by simp [hc])

/-- A write leaves every other address alone, in any memory. -/
@[simp] theorem read_write_other {m : Memory} {a a' : Nat} {v : Byte} (h : a' ≠ a) :
    Memory.read (Memory.write m a v) a' = Memory.read m a' := by
  induction m with
  | nil =>
    unfold Memory.write
    split <;> simp [Memory.read, h]
  | cons cell m ih =>
    obtain ⟨k, b⟩ := cell
    unfold Memory.write
    split
    · split <;> simp [Memory.read, h]
    · split
      · next hk => subst hk; split <;> simp [Memory.read, h]
      · simp only [Memory.read, ih]

/-- A read after a write to the same address gives the value written. -/
theorem read_write_same {m : Memory} (hm : m.wf = true) (a : Nat) (v : Byte) :
    Memory.read (Memory.write m a v) a = v := by
  induction m with
  | nil =>
    unfold Memory.write
    split
    · next hv => simp [Memory.read, hv]
    · simp [Memory.read]
  | cons cell m ih =>
    obtain ⟨k, b⟩ := cell
    obtain ⟨-, -, hlt, hwf⟩ := wf_cons.1 hm
    unfold Memory.write
    split
    · next hak =>
      split
      · next hv =>
        rw [hv]
        apply read_eq_init_of_not_listed
        intro c hc
        rcases List.mem_cons.1 hc with rfl | hc
        · exact (Nat.ne_of_lt hak).symm
        · exact (Nat.ne_of_lt (Nat.lt_trans hak (hlt c hc))).symm
      · simp [Memory.read]
    · split
      · next hak =>
        subst hak
        split
        · next hv =>
          rw [hv]
          exact read_eq_init_of_not_listed fun c hc => (Nat.ne_of_lt (hlt c hc)).symm
        · simp [Memory.read]
      · next hne =>
        simp only [Memory.read, if_neg hne]
        exact ih hwf

/-- A read after a write, in one equation. -/
theorem read_write {m : Memory} (hm : m.wf = true) (a a' : Nat) (v : Byte) :
    Memory.read (Memory.write m a v) a' = if a' = a then v else Memory.read m a' := by
  split
  · next h => subst h; exact read_write_same hm _ v
  · next h => exact read_write_other h

/-- Every entry of a memory after a write is an old one or the one written. -/
theorem mem_write {m : Memory} {a : Nat} {v : Byte} {cell : Host.Cell} (h : cell ∈ Memory.write m a v) :
    cell = (a, v) ∨ cell ∈ m := by
  induction m with
  | nil =>
    unfold Memory.write at h
    split at h <;> simp_all
  | cons c m ih =>
    obtain ⟨k, b⟩ := c
    unfold Memory.write at h
    split at h
    · split at h
      · exact .inr h
      · exact List.mem_cons.1 h
    · split at h
      · split at h
        · exact .inr (List.mem_cons_of_mem _ h)
        · exact (List.mem_cons.1 h).imp id (List.mem_cons_of_mem _)
      · rcases List.mem_cons.1 h with rfl | h
        · exact .inr (by simp)
        · exact (ih h).imp id (List.mem_cons_of_mem _)

/-- A write below `MEM_SIZE` keeps the canonical form. -/
theorem write_wf {m : Memory} (hm : m.wf = true) {a : Nat} (ha : a < Config.memSize) (v : Byte) :
    (Memory.write m a v).wf = true := by
  induction m with
  | nil =>
    unfold Memory.write
    split
    · rfl
    · next hv => exact wf_cons.2 ⟨ha, hv, by simp, rfl⟩
  | cons cell m ih =>
    obtain ⟨k, b⟩ := cell
    obtain ⟨hk, hb, hlt, hwf⟩ := wf_cons.1 hm
    unfold Memory.write
    split
    · next hak =>
      split
      · exact hm
      · next hv =>
        refine wf_cons.2 ⟨ha, hv, fun c hc => ?_, hm⟩
        rcases List.mem_cons.1 hc with rfl | hc
        · exact hak
        · exact Nat.lt_trans hak (hlt c hc)
    · next hna =>
      split
      · next hak =>
        subst hak
        split
        · exact hwf
        · next hv => exact wf_cons.2 ⟨ha, hv, hlt, hwf⟩
      · next hne =>
        refine wf_cons.2 ⟨hk, hb, fun c hc => ?_, ih hwf⟩
        rcases mem_write hc with rfl | hc
        · exact Nat.lt_of_le_of_ne (Nat.le_of_not_lt hna) fun e => hne e.symm
        · exact hlt c hc

end Memory

/-- What a read of the core does (20_memory.md R52, R54). -/
theorem memRead_ok_iff {s : State} {addr : Nat} {v : Byte} :
    memRead s addr = .ok v ↔ addr < 65536 ∧ v = s.mem.read addr := by
  unfold memRead
  split
  · next h => exact ⟨fun e => ⟨h, by injection e with e; exact e.symm⟩, fun e => by rw [e.2]⟩
  · next h => exact ⟨fun e => by simp at e, fun e => absurd e.1 h⟩

/-- When a read of the core raises, and what. -/
theorem memRead_error_iff {s : State} {addr : Nat} {e : Abort} :
    memRead s addr = .error e ↔ 65536 ≤ addr ∧ e = .addressOutOfRange addr := by
  unfold memRead
  split
  · next h => exact ⟨fun h' => by simp at h', fun h' => absurd h (Nat.not_lt.2 h'.1)⟩
  · next h =>
    exact ⟨fun h' => ⟨Nat.not_lt.1 h, by injection h' with h'; exact h'.symm⟩, fun h' => by rw [h'.2]⟩

/-- A read below `MEM_SIZE` gives the byte. -/
theorem memRead_of_lt {s : State} {addr : Nat} (h : addr < 65536) : memRead s addr = .ok (s.mem.read addr) :=
  memRead_ok_iff.2 ⟨h, rfl⟩

/-- A read at or above `MEM_SIZE` raises. -/
theorem memRead_of_ge {s : State} {addr : Nat} (h : 65536 ≤ addr) :
    memRead s addr = .error (.addressOutOfRange addr) :=
  memRead_error_iff.2 ⟨h, rfl⟩

/-- A write below `MEM_SIZE` changes memory and nothing else. -/
theorem memWrite_of_lt {s : State} {addr : Nat} {v : Byte} (h : addr < 65536) :
    memWrite s addr v = .ok (s.setMem (s.mem.write addr v)) := if_pos h

/-- A write at or above `MEM_SIZE` raises. -/
theorem memWrite_of_ge {s : State} {addr : Nat} {v : Byte} (h : 65536 ≤ addr) :
    memWrite s addr v = .error (.addressOutOfRange addr) := if_neg (Nat.not_lt.2 h)

/-- What a write of the core does (20_memory.md R53, R54). -/
theorem memWrite_ok_iff {s t : State} {addr : Nat} {v : Byte} :
    memWrite s addr v = .ok t ↔ addr < 65536 ∧ t = s.setMem (s.mem.write addr v) := by
  unfold memWrite
  split
  · next h => exact ⟨fun e => ⟨h, by injection e with e; exact e.symm⟩, fun e => by rw [e.2]⟩
  · next h => exact ⟨fun e => by simp at e, fun e => absurd e.1 h⟩

/-- When a write of the core raises, and what. -/
theorem memWrite_error_iff {s : State} {addr : Nat} {v : Byte} {e : Abort} :
    memWrite s addr v = .error e ↔ 65536 ≤ addr ∧ e = .addressOutOfRange addr := by
  unfold memWrite
  split
  · next h => exact ⟨fun h' => by simp at h', fun h' => absurd h (Nat.not_lt.2 h'.1)⟩
  · next h =>
    exact ⟨fun h' => ⟨Nat.not_lt.1 h, by injection h' with h'; exact h'.symm⟩, fun h' => by rw [h'.2]⟩

/-- Storing bytes keeps the canonical form. -/
theorem storeBytes_wf {m : Memory} (hm : m.wf = true) (addr : Nat) (bs : List Byte) :
    (storeBytes m addr bs).wf = true := by
  induction bs generalizing m addr with
  | nil => exact hm
  | cons b bs ih =>
    refine ih ?_ (addr + 1)
    split
    · next h => exact Memory.write_wf hm h b
    · exact hm

end Sys2Proof.Machine
end

