-- ==== Sys2Proof/Laws/State.lean ====
section
/-! SUPPORT. One lemma per field of State per named update, so that no later proof unfolds a record update. -/

namespace Sys2Proof.Machine

variable (s : State)

/-! ## Registers and flags by name -/

@[simp] theorem State.reg_a : s.reg .a = s.a := rfl
@[simp] theorem State.reg_x : s.reg .x = s.x := rfl
@[simp] theorem State.reg_y : s.reg .y = s.y := rfl
@[simp] theorem State.reg_sp : s.reg .sp = s.sp := rfl
@[simp] theorem State.flag_c : s.flag .c = s.flagC := rfl
@[simp] theorem State.flag_z : s.flag .z = s.flagZ := rfl
@[simp] theorem State.flag_i : s.flag .i = s.flagI := rfl
@[simp] theorem State.flag_d : s.flag .d = s.flagD := rfl
@[simp] theorem State.flag_b : s.flag .b = s.flagB := rfl
@[simp] theorem State.flag_v : s.flag .v = s.flagV := rfl
@[simp] theorem State.flag_n : s.flag .n = s.flagN := rfl

/-! ## A register written -/

@[simp] theorem State.setReg_a_a (v : Byte) : (s.setReg .a v).a = v := rfl
@[simp] theorem State.setReg_a_x (v : Byte) : (s.setReg .a v).x = s.x := rfl
@[simp] theorem State.setReg_a_y (v : Byte) : (s.setReg .a v).y = s.y := rfl
@[simp] theorem State.setReg_a_sp (v : Byte) : (s.setReg .a v).sp = s.sp := rfl
@[simp] theorem State.setReg_x_a (v : Byte) : (s.setReg .x v).a = s.a := rfl
@[simp] theorem State.setReg_x_x (v : Byte) : (s.setReg .x v).x = v := rfl
@[simp] theorem State.setReg_x_y (v : Byte) : (s.setReg .x v).y = s.y := rfl
@[simp] theorem State.setReg_x_sp (v : Byte) : (s.setReg .x v).sp = s.sp := rfl
@[simp] theorem State.setReg_y_a (v : Byte) : (s.setReg .y v).a = s.a := rfl
@[simp] theorem State.setReg_y_x (v : Byte) : (s.setReg .y v).x = s.x := rfl
@[simp] theorem State.setReg_y_y (v : Byte) : (s.setReg .y v).y = v := rfl
@[simp] theorem State.setReg_y_sp (v : Byte) : (s.setReg .y v).sp = s.sp := rfl
@[simp] theorem State.setReg_sp_a (v : Byte) : (s.setReg .sp v).a = s.a := rfl
@[simp] theorem State.setReg_sp_x (v : Byte) : (s.setReg .sp v).x = s.x := rfl
@[simp] theorem State.setReg_sp_y (v : Byte) : (s.setReg .sp v).y = s.y := rfl
@[simp] theorem State.setReg_sp_sp (v : Byte) : (s.setReg .sp v).sp = v := rfl
@[simp] theorem State.setReg_pc (r : Reg) (v : Byte) : (s.setReg r v).pc = s.pc := by cases r <;> rfl
@[simp] theorem State.setReg_flagC (r : Reg) (v : Byte) : (s.setReg r v).flagC = s.flagC := by cases r <;> rfl
@[simp] theorem State.setReg_flagZ (r : Reg) (v : Byte) : (s.setReg r v).flagZ = s.flagZ := by cases r <;> rfl
@[simp] theorem State.setReg_flagI (r : Reg) (v : Byte) : (s.setReg r v).flagI = s.flagI := by cases r <;> rfl
@[simp] theorem State.setReg_flagD (r : Reg) (v : Byte) : (s.setReg r v).flagD = s.flagD := by cases r <;> rfl
@[simp] theorem State.setReg_flagB (r : Reg) (v : Byte) : (s.setReg r v).flagB = s.flagB := by cases r <;> rfl
@[simp] theorem State.setReg_flagV (r : Reg) (v : Byte) : (s.setReg r v).flagV = s.flagV := by cases r <;> rfl
@[simp] theorem State.setReg_flagN (r : Reg) (v : Byte) : (s.setReg r v).flagN = s.flagN := by cases r <;> rfl
@[simp] theorem State.setReg_runState (r : Reg) (v : Byte) : (s.setReg r v).runState = s.runState := by cases r <;> rfl
@[simp] theorem State.setReg_stopCause (r : Reg) (v : Byte) : (s.setReg r v).stopCause = s.stopCause := by cases r <;> rfl
@[simp] theorem State.setReg_stopInfoPc (r : Reg) (v : Byte) : (s.setReg r v).stopInfoPc = s.stopInfoPc := by cases r <;> rfl
@[simp] theorem State.setReg_stopInfoOpcode (r : Reg) (v : Byte) : (s.setReg r v).stopInfoOpcode = s.stopInfoOpcode := by cases r <;> rfl
@[simp] theorem State.setReg_stopInfoAddress (r : Reg) (v : Byte) : (s.setReg r v).stopInfoAddress = s.stopInfoAddress := by cases r <;> rfl
@[simp] theorem State.setReg_mem (r : Reg) (v : Byte) : (s.setReg r v).mem = s.mem := by cases r <;> rfl
@[simp] theorem State.setReg_turns (r : Reg) (v : Byte) : (s.setReg r v).turns = s.turns := by cases r <;> rfl
@[simp] theorem State.setReg_answer (r : Reg) (v : Byte) : (s.setReg r v).answer = s.answer := by cases r <;> rfl
@[simp] theorem State.setReg_freeIndex (r : Reg) (v : Byte) : (s.setReg r v).freeIndex = s.freeIndex := by cases r <;> rfl

/-! ## A flag written -/

@[simp] theorem State.setFlag_c_flagC (v : Bool) : (s.setFlag .c v).flagC = v := rfl
@[simp] theorem State.setFlag_c_flagZ (v : Bool) : (s.setFlag .c v).flagZ = s.flagZ := rfl
@[simp] theorem State.setFlag_c_flagI (v : Bool) : (s.setFlag .c v).flagI = s.flagI := rfl
@[simp] theorem State.setFlag_c_flagD (v : Bool) : (s.setFlag .c v).flagD = s.flagD := rfl
@[simp] theorem State.setFlag_c_flagB (v : Bool) : (s.setFlag .c v).flagB = s.flagB := rfl
@[simp] theorem State.setFlag_c_flagV (v : Bool) : (s.setFlag .c v).flagV = s.flagV := rfl
@[simp] theorem State.setFlag_c_flagN (v : Bool) : (s.setFlag .c v).flagN = s.flagN := rfl
@[simp] theorem State.setFlag_z_flagC (v : Bool) : (s.setFlag .z v).flagC = s.flagC := rfl
@[simp] theorem State.setFlag_z_flagZ (v : Bool) : (s.setFlag .z v).flagZ = v := rfl
@[simp] theorem State.setFlag_z_flagI (v : Bool) : (s.setFlag .z v).flagI = s.flagI := rfl
@[simp] theorem State.setFlag_z_flagD (v : Bool) : (s.setFlag .z v).flagD = s.flagD := rfl
@[simp] theorem State.setFlag_z_flagB (v : Bool) : (s.setFlag .z v).flagB = s.flagB := rfl
@[simp] theorem State.setFlag_z_flagV (v : Bool) : (s.setFlag .z v).flagV = s.flagV := rfl
@[simp] theorem State.setFlag_z_flagN (v : Bool) : (s.setFlag .z v).flagN = s.flagN := rfl
@[simp] theorem State.setFlag_i_flagC (v : Bool) : (s.setFlag .i v).flagC = s.flagC := rfl
@[simp] theorem State.setFlag_i_flagZ (v : Bool) : (s.setFlag .i v).flagZ = s.flagZ := rfl
@[simp] theorem State.setFlag_i_flagI (v : Bool) : (s.setFlag .i v).flagI = v := rfl
@[simp] theorem State.setFlag_i_flagD (v : Bool) : (s.setFlag .i v).flagD = s.flagD := rfl
@[simp] theorem State.setFlag_i_flagB (v : Bool) : (s.setFlag .i v).flagB = s.flagB := rfl
@[simp] theorem State.setFlag_i_flagV (v : Bool) : (s.setFlag .i v).flagV = s.flagV := rfl
@[simp] theorem State.setFlag_i_flagN (v : Bool) : (s.setFlag .i v).flagN = s.flagN := rfl
@[simp] theorem State.setFlag_d_flagC (v : Bool) : (s.setFlag .d v).flagC = s.flagC := rfl
@[simp] theorem State.setFlag_d_flagZ (v : Bool) : (s.setFlag .d v).flagZ = s.flagZ := rfl
@[simp] theorem State.setFlag_d_flagI (v : Bool) : (s.setFlag .d v).flagI = s.flagI := rfl
@[simp] theorem State.setFlag_d_flagD (v : Bool) : (s.setFlag .d v).flagD = v := rfl
@[simp] theorem State.setFlag_d_flagB (v : Bool) : (s.setFlag .d v).flagB = s.flagB := rfl
@[simp] theorem State.setFlag_d_flagV (v : Bool) : (s.setFlag .d v).flagV = s.flagV := rfl
@[simp] theorem State.setFlag_d_flagN (v : Bool) : (s.setFlag .d v).flagN = s.flagN := rfl
@[simp] theorem State.setFlag_b_flagC (v : Bool) : (s.setFlag .b v).flagC = s.flagC := rfl
@[simp] theorem State.setFlag_b_flagZ (v : Bool) : (s.setFlag .b v).flagZ = s.flagZ := rfl
@[simp] theorem State.setFlag_b_flagI (v : Bool) : (s.setFlag .b v).flagI = s.flagI := rfl
@[simp] theorem State.setFlag_b_flagD (v : Bool) : (s.setFlag .b v).flagD = s.flagD := rfl
@[simp] theorem State.setFlag_b_flagB (v : Bool) : (s.setFlag .b v).flagB = v := rfl
@[simp] theorem State.setFlag_b_flagV (v : Bool) : (s.setFlag .b v).flagV = s.flagV := rfl
@[simp] theorem State.setFlag_b_flagN (v : Bool) : (s.setFlag .b v).flagN = s.flagN := rfl
@[simp] theorem State.setFlag_v_flagC (v : Bool) : (s.setFlag .v v).flagC = s.flagC := rfl
@[simp] theorem State.setFlag_v_flagZ (v : Bool) : (s.setFlag .v v).flagZ = s.flagZ := rfl
@[simp] theorem State.setFlag_v_flagI (v : Bool) : (s.setFlag .v v).flagI = s.flagI := rfl
@[simp] theorem State.setFlag_v_flagD (v : Bool) : (s.setFlag .v v).flagD = s.flagD := rfl
@[simp] theorem State.setFlag_v_flagB (v : Bool) : (s.setFlag .v v).flagB = s.flagB := rfl
@[simp] theorem State.setFlag_v_flagV (v : Bool) : (s.setFlag .v v).flagV = v := rfl
@[simp] theorem State.setFlag_v_flagN (v : Bool) : (s.setFlag .v v).flagN = s.flagN := rfl
@[simp] theorem State.setFlag_n_flagC (v : Bool) : (s.setFlag .n v).flagC = s.flagC := rfl
@[simp] theorem State.setFlag_n_flagZ (v : Bool) : (s.setFlag .n v).flagZ = s.flagZ := rfl
@[simp] theorem State.setFlag_n_flagI (v : Bool) : (s.setFlag .n v).flagI = s.flagI := rfl
@[simp] theorem State.setFlag_n_flagD (v : Bool) : (s.setFlag .n v).flagD = s.flagD := rfl
@[simp] theorem State.setFlag_n_flagB (v : Bool) : (s.setFlag .n v).flagB = s.flagB := rfl
@[simp] theorem State.setFlag_n_flagV (v : Bool) : (s.setFlag .n v).flagV = s.flagV := rfl
@[simp] theorem State.setFlag_n_flagN (v : Bool) : (s.setFlag .n v).flagN = v := rfl
@[simp] theorem State.setFlag_a (f : Flag) (v : Bool) : (s.setFlag f v).a = s.a := by cases f <;> rfl
@[simp] theorem State.setFlag_x (f : Flag) (v : Bool) : (s.setFlag f v).x = s.x := by cases f <;> rfl
@[simp] theorem State.setFlag_y (f : Flag) (v : Bool) : (s.setFlag f v).y = s.y := by cases f <;> rfl
@[simp] theorem State.setFlag_sp (f : Flag) (v : Bool) : (s.setFlag f v).sp = s.sp := by cases f <;> rfl
@[simp] theorem State.setFlag_pc (f : Flag) (v : Bool) : (s.setFlag f v).pc = s.pc := by cases f <;> rfl
@[simp] theorem State.setFlag_runState (f : Flag) (v : Bool) : (s.setFlag f v).runState = s.runState := by cases f <;> rfl
@[simp] theorem State.setFlag_stopCause (f : Flag) (v : Bool) : (s.setFlag f v).stopCause = s.stopCause := by cases f <;> rfl
@[simp] theorem State.setFlag_stopInfoPc (f : Flag) (v : Bool) : (s.setFlag f v).stopInfoPc = s.stopInfoPc := by cases f <;> rfl
@[simp] theorem State.setFlag_stopInfoOpcode (f : Flag) (v : Bool) : (s.setFlag f v).stopInfoOpcode = s.stopInfoOpcode := by cases f <;> rfl
@[simp] theorem State.setFlag_stopInfoAddress (f : Flag) (v : Bool) : (s.setFlag f v).stopInfoAddress = s.stopInfoAddress := by cases f <;> rfl
@[simp] theorem State.setFlag_mem (f : Flag) (v : Bool) : (s.setFlag f v).mem = s.mem := by cases f <;> rfl
@[simp] theorem State.setFlag_turns (f : Flag) (v : Bool) : (s.setFlag f v).turns = s.turns := by cases f <;> rfl
@[simp] theorem State.setFlag_answer (f : Flag) (v : Bool) : (s.setFlag f v).answer = s.answer := by cases f <;> rfl
@[simp] theorem State.setFlag_freeIndex (f : Flag) (v : Bool) : (s.setFlag f v).freeIndex = s.freeIndex := by cases f <;> rfl

/-! ## Memory replaced -/

@[simp] theorem State.setMem_a (m : Memory) : (s.setMem m).a = s.a := rfl
@[simp] theorem State.setMem_x (m : Memory) : (s.setMem m).x = s.x := rfl
@[simp] theorem State.setMem_y (m : Memory) : (s.setMem m).y = s.y := rfl
@[simp] theorem State.setMem_sp (m : Memory) : (s.setMem m).sp = s.sp := rfl
@[simp] theorem State.setMem_pc (m : Memory) : (s.setMem m).pc = s.pc := rfl
@[simp] theorem State.setMem_flagC (m : Memory) : (s.setMem m).flagC = s.flagC := rfl
@[simp] theorem State.setMem_flagZ (m : Memory) : (s.setMem m).flagZ = s.flagZ := rfl
@[simp] theorem State.setMem_flagI (m : Memory) : (s.setMem m).flagI = s.flagI := rfl
@[simp] theorem State.setMem_flagD (m : Memory) : (s.setMem m).flagD = s.flagD := rfl
@[simp] theorem State.setMem_flagB (m : Memory) : (s.setMem m).flagB = s.flagB := rfl
@[simp] theorem State.setMem_flagV (m : Memory) : (s.setMem m).flagV = s.flagV := rfl
@[simp] theorem State.setMem_flagN (m : Memory) : (s.setMem m).flagN = s.flagN := rfl
@[simp] theorem State.setMem_runState (m : Memory) : (s.setMem m).runState = s.runState := rfl
@[simp] theorem State.setMem_stopCause (m : Memory) : (s.setMem m).stopCause = s.stopCause := rfl
@[simp] theorem State.setMem_stopInfoPc (m : Memory) : (s.setMem m).stopInfoPc = s.stopInfoPc := rfl
@[simp] theorem State.setMem_stopInfoOpcode (m : Memory) : (s.setMem m).stopInfoOpcode = s.stopInfoOpcode := rfl
@[simp] theorem State.setMem_stopInfoAddress (m : Memory) : (s.setMem m).stopInfoAddress = s.stopInfoAddress := rfl
@[simp] theorem State.setMem_mem (m : Memory) : (s.setMem m).mem = m := rfl
@[simp] theorem State.setMem_turns (m : Memory) : (s.setMem m).turns = s.turns := rfl
@[simp] theorem State.setMem_answer (m : Memory) : (s.setMem m).answer = s.answer := rfl
@[simp] theorem State.setMem_freeIndex (m : Memory) : (s.setMem m).freeIndex = s.freeIndex := rfl

/-! ## The turns replaced -/

@[simp] theorem State.setTurns_a (ts : List Turn) : (s.setTurns ts).a = s.a := rfl
@[simp] theorem State.setTurns_x (ts : List Turn) : (s.setTurns ts).x = s.x := rfl
@[simp] theorem State.setTurns_y (ts : List Turn) : (s.setTurns ts).y = s.y := rfl
@[simp] theorem State.setTurns_sp (ts : List Turn) : (s.setTurns ts).sp = s.sp := rfl
@[simp] theorem State.setTurns_pc (ts : List Turn) : (s.setTurns ts).pc = s.pc := rfl
@[simp] theorem State.setTurns_flagC (ts : List Turn) : (s.setTurns ts).flagC = s.flagC := rfl
@[simp] theorem State.setTurns_flagZ (ts : List Turn) : (s.setTurns ts).flagZ = s.flagZ := rfl
@[simp] theorem State.setTurns_flagI (ts : List Turn) : (s.setTurns ts).flagI = s.flagI := rfl
@[simp] theorem State.setTurns_flagD (ts : List Turn) : (s.setTurns ts).flagD = s.flagD := rfl
@[simp] theorem State.setTurns_flagB (ts : List Turn) : (s.setTurns ts).flagB = s.flagB := rfl
@[simp] theorem State.setTurns_flagV (ts : List Turn) : (s.setTurns ts).flagV = s.flagV := rfl
@[simp] theorem State.setTurns_flagN (ts : List Turn) : (s.setTurns ts).flagN = s.flagN := rfl
@[simp] theorem State.setTurns_runState (ts : List Turn) : (s.setTurns ts).runState = s.runState := rfl
@[simp] theorem State.setTurns_stopCause (ts : List Turn) : (s.setTurns ts).stopCause = s.stopCause := rfl
@[simp] theorem State.setTurns_stopInfoPc (ts : List Turn) : (s.setTurns ts).stopInfoPc = s.stopInfoPc := rfl
@[simp] theorem State.setTurns_stopInfoOpcode (ts : List Turn) : (s.setTurns ts).stopInfoOpcode = s.stopInfoOpcode := rfl
@[simp] theorem State.setTurns_stopInfoAddress (ts : List Turn) : (s.setTurns ts).stopInfoAddress = s.stopInfoAddress := rfl
@[simp] theorem State.setTurns_mem (ts : List Turn) : (s.setTurns ts).mem = s.mem := rfl
@[simp] theorem State.setTurns_turns (ts : List Turn) : (s.setTurns ts).turns = ts := rfl
@[simp] theorem State.setTurns_answer (ts : List Turn) : (s.setTurns ts).answer = s.answer := rfl
@[simp] theorem State.setTurns_freeIndex (ts : List Turn) : (s.setTurns ts).freeIndex = s.freeIndex := rfl

/-- Putting back the turns a state has changes nothing. -/
theorem State.setTurns_turns_self : s.setTurns s.turns = s := rfl

/-! ## A free value drawn -/

@[simp] theorem State.drawFree_a : s.drawFree.a = s.a := rfl
@[simp] theorem State.drawFree_x : s.drawFree.x = s.x := rfl
@[simp] theorem State.drawFree_y : s.drawFree.y = s.y := rfl
@[simp] theorem State.drawFree_sp : s.drawFree.sp = s.sp := rfl
@[simp] theorem State.drawFree_pc : s.drawFree.pc = s.pc := rfl
@[simp] theorem State.drawFree_flagC : s.drawFree.flagC = s.flagC := rfl
@[simp] theorem State.drawFree_flagZ : s.drawFree.flagZ = s.flagZ := rfl
@[simp] theorem State.drawFree_flagI : s.drawFree.flagI = s.flagI := rfl
@[simp] theorem State.drawFree_flagD : s.drawFree.flagD = s.flagD := rfl
@[simp] theorem State.drawFree_flagB : s.drawFree.flagB = s.flagB := rfl
@[simp] theorem State.drawFree_flagV : s.drawFree.flagV = s.flagV := rfl
@[simp] theorem State.drawFree_flagN : s.drawFree.flagN = s.flagN := rfl
@[simp] theorem State.drawFree_runState : s.drawFree.runState = s.runState := rfl
@[simp] theorem State.drawFree_stopCause : s.drawFree.stopCause = s.stopCause := rfl
@[simp] theorem State.drawFree_stopInfoPc : s.drawFree.stopInfoPc = s.stopInfoPc := rfl
@[simp] theorem State.drawFree_stopInfoOpcode : s.drawFree.stopInfoOpcode = s.stopInfoOpcode := rfl
@[simp] theorem State.drawFree_stopInfoAddress : s.drawFree.stopInfoAddress = s.stopInfoAddress := rfl
@[simp] theorem State.drawFree_mem : s.drawFree.mem = s.mem := rfl
@[simp] theorem State.drawFree_turns : s.drawFree.turns = s.turns := rfl
@[simp] theorem State.drawFree_answer : s.drawFree.answer = s.answer := rfl
@[simp] theorem State.drawFree_freeIndex : s.drawFree.freeIndex = s.freeIndex + 1 := rfl

/-! ## PC written -/

@[simp] theorem State.writePc_pc (v : Int) : (s.writePc v).pc = BitVec.ofInt 16 v := rfl
@[simp] theorem State.writePc_a (v : Int) : (s.writePc v).a = s.a := rfl
@[simp] theorem State.writePc_x (v : Int) : (s.writePc v).x = s.x := rfl
@[simp] theorem State.writePc_y (v : Int) : (s.writePc v).y = s.y := rfl
@[simp] theorem State.writePc_sp (v : Int) : (s.writePc v).sp = s.sp := rfl
@[simp] theorem State.writePc_flagC (v : Int) : (s.writePc v).flagC = s.flagC := rfl
@[simp] theorem State.writePc_flagZ (v : Int) : (s.writePc v).flagZ = s.flagZ := rfl
@[simp] theorem State.writePc_flagI (v : Int) : (s.writePc v).flagI = s.flagI := rfl
@[simp] theorem State.writePc_flagD (v : Int) : (s.writePc v).flagD = s.flagD := rfl
@[simp] theorem State.writePc_flagB (v : Int) : (s.writePc v).flagB = s.flagB := rfl
@[simp] theorem State.writePc_flagV (v : Int) : (s.writePc v).flagV = s.flagV := rfl
@[simp] theorem State.writePc_flagN (v : Int) : (s.writePc v).flagN = s.flagN := rfl
@[simp] theorem State.writePc_runState (v : Int) : (s.writePc v).runState = s.runState := rfl
@[simp] theorem State.writePc_stopCause (v : Int) : (s.writePc v).stopCause = s.stopCause := rfl
@[simp] theorem State.writePc_stopInfoPc (v : Int) : (s.writePc v).stopInfoPc = s.stopInfoPc := rfl
@[simp] theorem State.writePc_stopInfoOpcode (v : Int) : (s.writePc v).stopInfoOpcode = s.stopInfoOpcode := rfl
@[simp] theorem State.writePc_stopInfoAddress (v : Int) : (s.writePc v).stopInfoAddress = s.stopInfoAddress := rfl
@[simp] theorem State.writePc_mem (v : Int) : (s.writePc v).mem = s.mem := rfl
@[simp] theorem State.writePc_turns (v : Int) : (s.writePc v).turns = s.turns := rfl
@[simp] theorem State.writePc_answer (v : Int) : (s.writePc v).answer = s.answer := rfl
@[simp] theorem State.writePc_freeIndex (v : Int) : (s.writePc v).freeIndex = s.freeIndex := rfl

/-! ## PC advanced -/

@[simp] theorem State.advance_pc (len : Nat) : (s.advance len).pc = s.pc + BitVec.ofNat 16 len := by
  apply BitVec.eq_of_toNat_eq
  simp only [State.advance, State.writePc_pc, BitVec.ofInt_natCast, BitVec.toNat_add, BitVec.toNat_ofNat]
  omega
@[simp] theorem State.advance_a (len : Nat) : (s.advance len).a = s.a := rfl
@[simp] theorem State.advance_x (len : Nat) : (s.advance len).x = s.x := rfl
@[simp] theorem State.advance_y (len : Nat) : (s.advance len).y = s.y := rfl
@[simp] theorem State.advance_sp (len : Nat) : (s.advance len).sp = s.sp := rfl
@[simp] theorem State.advance_flagC (len : Nat) : (s.advance len).flagC = s.flagC := rfl
@[simp] theorem State.advance_flagZ (len : Nat) : (s.advance len).flagZ = s.flagZ := rfl
@[simp] theorem State.advance_flagI (len : Nat) : (s.advance len).flagI = s.flagI := rfl
@[simp] theorem State.advance_flagD (len : Nat) : (s.advance len).flagD = s.flagD := rfl
@[simp] theorem State.advance_flagB (len : Nat) : (s.advance len).flagB = s.flagB := rfl
@[simp] theorem State.advance_flagV (len : Nat) : (s.advance len).flagV = s.flagV := rfl
@[simp] theorem State.advance_flagN (len : Nat) : (s.advance len).flagN = s.flagN := rfl
@[simp] theorem State.advance_runState (len : Nat) : (s.advance len).runState = s.runState := rfl
@[simp] theorem State.advance_stopCause (len : Nat) : (s.advance len).stopCause = s.stopCause := rfl
@[simp] theorem State.advance_stopInfoPc (len : Nat) : (s.advance len).stopInfoPc = s.stopInfoPc := rfl
@[simp] theorem State.advance_stopInfoOpcode (len : Nat) : (s.advance len).stopInfoOpcode = s.stopInfoOpcode := rfl
@[simp] theorem State.advance_stopInfoAddress (len : Nat) : (s.advance len).stopInfoAddress = s.stopInfoAddress := rfl
@[simp] theorem State.advance_mem (len : Nat) : (s.advance len).mem = s.mem := rfl
@[simp] theorem State.advance_turns (len : Nat) : (s.advance len).turns = s.turns := rfl
@[simp] theorem State.advance_answer (len : Nat) : (s.advance len).answer = s.answer := rfl
@[simp] theorem State.advance_freeIndex (len : Nat) : (s.advance len).freeIndex = s.freeIndex := rfl

/-! ## The host answered -/

@[simp] theorem State.reply_answer (ans : Answer) : (s.reply ans).answer = some ans := rfl
@[simp] theorem State.reply_a (ans : Answer) : (s.reply ans).a = s.a := rfl
@[simp] theorem State.reply_x (ans : Answer) : (s.reply ans).x = s.x := rfl
@[simp] theorem State.reply_y (ans : Answer) : (s.reply ans).y = s.y := rfl
@[simp] theorem State.reply_sp (ans : Answer) : (s.reply ans).sp = s.sp := rfl
@[simp] theorem State.reply_pc (ans : Answer) : (s.reply ans).pc = s.pc := rfl
@[simp] theorem State.reply_flagC (ans : Answer) : (s.reply ans).flagC = s.flagC := rfl
@[simp] theorem State.reply_flagZ (ans : Answer) : (s.reply ans).flagZ = s.flagZ := rfl
@[simp] theorem State.reply_flagI (ans : Answer) : (s.reply ans).flagI = s.flagI := rfl
@[simp] theorem State.reply_flagD (ans : Answer) : (s.reply ans).flagD = s.flagD := rfl
@[simp] theorem State.reply_flagB (ans : Answer) : (s.reply ans).flagB = s.flagB := rfl
@[simp] theorem State.reply_flagV (ans : Answer) : (s.reply ans).flagV = s.flagV := rfl
@[simp] theorem State.reply_flagN (ans : Answer) : (s.reply ans).flagN = s.flagN := rfl
@[simp] theorem State.reply_runState (ans : Answer) : (s.reply ans).runState = s.runState := rfl
@[simp] theorem State.reply_stopCause (ans : Answer) : (s.reply ans).stopCause = s.stopCause := rfl
@[simp] theorem State.reply_stopInfoPc (ans : Answer) : (s.reply ans).stopInfoPc = s.stopInfoPc := rfl
@[simp] theorem State.reply_stopInfoOpcode (ans : Answer) : (s.reply ans).stopInfoOpcode = s.stopInfoOpcode := rfl
@[simp] theorem State.reply_stopInfoAddress (ans : Answer) : (s.reply ans).stopInfoAddress = s.stopInfoAddress := rfl
@[simp] theorem State.reply_mem (ans : Answer) : (s.reply ans).mem = s.mem := rfl
@[simp] theorem State.reply_turns (ans : Answer) : (s.reply ans).turns = s.turns := rfl
@[simp] theorem State.reply_freeIndex (ans : Answer) : (s.reply ans).freeIndex = s.freeIndex := rfl

/-! ## An abort: RUN_STATE, STOP_CAUSE, STOP_INFO and the index of the free values, nothing else -/

@[simp] theorem State.abort_runState (e : Abort) : (s.abort e).runState = .stopped := by cases e <;> rfl
@[simp] theorem State.abort_stopInfoPc (e : Abort) : (s.abort e).stopInfoPc = s.pc := by cases e <;> rfl
@[simp] theorem State.abort_freeIndex (e : Abort) : (s.abort e).freeIndex = s.freeIndex + 1 := by cases e <;> rfl
@[simp] theorem State.abort_unknownOpcode_stopCause (op : Byte) : (s.abort (.unknownOpcode op)).stopCause = .unknownOpcode := rfl
@[simp] theorem State.abort_unknownOpcode_stopInfoOpcode (op : Byte) : (s.abort (.unknownOpcode op)).stopInfoOpcode = op := rfl
@[simp] theorem State.abort_addressOutOfRange_stopCause (n : Nat) : (s.abort (.addressOutOfRange n)).stopCause = .addressOutOfRange := rfl
@[simp] theorem State.abort_addressOutOfRange_stopInfoAddress (n : Nat) : (s.abort (.addressOutOfRange n)).stopInfoAddress = n := rfl
@[simp] theorem State.abort_a (e : Abort) : (s.abort e).a = s.a := by cases e <;> rfl
@[simp] theorem State.abort_x (e : Abort) : (s.abort e).x = s.x := by cases e <;> rfl
@[simp] theorem State.abort_y (e : Abort) : (s.abort e).y = s.y := by cases e <;> rfl
@[simp] theorem State.abort_sp (e : Abort) : (s.abort e).sp = s.sp := by cases e <;> rfl
@[simp] theorem State.abort_pc (e : Abort) : (s.abort e).pc = s.pc := by cases e <;> rfl
@[simp] theorem State.abort_flagC (e : Abort) : (s.abort e).flagC = s.flagC := by cases e <;> rfl
@[simp] theorem State.abort_flagZ (e : Abort) : (s.abort e).flagZ = s.flagZ := by cases e <;> rfl
@[simp] theorem State.abort_flagI (e : Abort) : (s.abort e).flagI = s.flagI := by cases e <;> rfl
@[simp] theorem State.abort_flagD (e : Abort) : (s.abort e).flagD = s.flagD := by cases e <;> rfl
@[simp] theorem State.abort_flagB (e : Abort) : (s.abort e).flagB = s.flagB := by cases e <;> rfl
@[simp] theorem State.abort_flagV (e : Abort) : (s.abort e).flagV = s.flagV := by cases e <;> rfl
@[simp] theorem State.abort_flagN (e : Abort) : (s.abort e).flagN = s.flagN := by cases e <;> rfl
@[simp] theorem State.abort_mem (e : Abort) : (s.abort e).mem = s.mem := by cases e <;> rfl
@[simp] theorem State.abort_turns (e : Abort) : (s.abort e).turns = s.turns := by cases e <;> rfl
@[simp] theorem State.abort_answer (e : Abort) : (s.abort e).answer = s.answer := by cases e <;> rfl

/-! ## A stop request observed -/

@[simp] theorem State.observeStop_runState : s.observeStop.runState = .stopped := rfl
@[simp] theorem State.observeStop_stopCause : s.observeStop.stopCause = .stopRequested := rfl
@[simp] theorem State.observeStop_stopInfoPc : s.observeStop.stopInfoPc = s.pc := rfl
@[simp] theorem State.observeStop_freeIndex : s.observeStop.freeIndex = s.freeIndex + 1 := rfl
@[simp] theorem State.observeStop_a : s.observeStop.a = s.a := rfl
@[simp] theorem State.observeStop_x : s.observeStop.x = s.x := rfl
@[simp] theorem State.observeStop_y : s.observeStop.y = s.y := rfl
@[simp] theorem State.observeStop_sp : s.observeStop.sp = s.sp := rfl
@[simp] theorem State.observeStop_pc : s.observeStop.pc = s.pc := rfl
@[simp] theorem State.observeStop_flagC : s.observeStop.flagC = s.flagC := rfl
@[simp] theorem State.observeStop_flagZ : s.observeStop.flagZ = s.flagZ := rfl
@[simp] theorem State.observeStop_flagI : s.observeStop.flagI = s.flagI := rfl
@[simp] theorem State.observeStop_flagD : s.observeStop.flagD = s.flagD := rfl
@[simp] theorem State.observeStop_flagB : s.observeStop.flagB = s.flagB := rfl
@[simp] theorem State.observeStop_flagV : s.observeStop.flagV = s.flagV := rfl
@[simp] theorem State.observeStop_flagN : s.observeStop.flagN = s.flagN := rfl
@[simp] theorem State.observeStop_mem : s.observeStop.mem = s.mem := rfl
@[simp] theorem State.observeStop_turns : s.observeStop.turns = s.turns := rfl
@[simp] theorem State.observeStop_answer : s.observeStop.answer = s.answer := rfl

/-! ## The flags of a load, of a compare and of a shift -/

@[simp] theorem State.setZN_a (v : Byte) : (s.setZN v).a = s.a := rfl
@[simp] theorem State.setZN_x (v : Byte) : (s.setZN v).x = s.x := rfl
@[simp] theorem State.setZN_y (v : Byte) : (s.setZN v).y = s.y := rfl
@[simp] theorem State.setZN_sp (v : Byte) : (s.setZN v).sp = s.sp := rfl
@[simp] theorem State.setZN_pc (v : Byte) : (s.setZN v).pc = s.pc := rfl
@[simp] theorem State.setZN_flagC (v : Byte) : (s.setZN v).flagC = s.flagC := rfl
@[simp] theorem State.setZN_flagZ (v : Byte) : (s.setZN v).flagZ = isZero v := rfl
@[simp] theorem State.setZN_flagI (v : Byte) : (s.setZN v).flagI = s.flagI := rfl
@[simp] theorem State.setZN_flagD (v : Byte) : (s.setZN v).flagD = s.flagD := rfl
@[simp] theorem State.setZN_flagB (v : Byte) : (s.setZN v).flagB = s.flagB := rfl
@[simp] theorem State.setZN_flagV (v : Byte) : (s.setZN v).flagV = s.flagV := rfl
@[simp] theorem State.setZN_flagN (v : Byte) : (s.setZN v).flagN = bit7 v := rfl
@[simp] theorem State.setZN_runState (v : Byte) : (s.setZN v).runState = s.runState := rfl
@[simp] theorem State.setZN_stopCause (v : Byte) : (s.setZN v).stopCause = s.stopCause := rfl
@[simp] theorem State.setZN_stopInfoPc (v : Byte) : (s.setZN v).stopInfoPc = s.stopInfoPc := rfl
@[simp] theorem State.setZN_stopInfoOpcode (v : Byte) : (s.setZN v).stopInfoOpcode = s.stopInfoOpcode := rfl
@[simp] theorem State.setZN_stopInfoAddress (v : Byte) : (s.setZN v).stopInfoAddress = s.stopInfoAddress := rfl
@[simp] theorem State.setZN_mem (v : Byte) : (s.setZN v).mem = s.mem := rfl
@[simp] theorem State.setZN_turns (v : Byte) : (s.setZN v).turns = s.turns := rfl
@[simp] theorem State.setZN_answer (v : Byte) : (s.setZN v).answer = s.answer := rfl
@[simp] theorem State.setZN_freeIndex (v : Byte) : (s.setZN v).freeIndex = s.freeIndex := rfl

@[simp] theorem State.setCompare_a (r m : Byte) : (s.setCompare r m).a = s.a := rfl
@[simp] theorem State.setCompare_x (r m : Byte) : (s.setCompare r m).x = s.x := rfl
@[simp] theorem State.setCompare_y (r m : Byte) : (s.setCompare r m).y = s.y := rfl
@[simp] theorem State.setCompare_sp (r m : Byte) : (s.setCompare r m).sp = s.sp := rfl
@[simp] theorem State.setCompare_pc (r m : Byte) : (s.setCompare r m).pc = s.pc := rfl
@[simp] theorem State.setCompare_flagC (r m : Byte) : (s.setCompare r m).flagC = cmpCarry r m := rfl
@[simp] theorem State.setCompare_flagZ (r m : Byte) : (s.setCompare r m).flagZ = cmpEq r m := rfl
@[simp] theorem State.setCompare_flagI (r m : Byte) : (s.setCompare r m).flagI = s.flagI := rfl
@[simp] theorem State.setCompare_flagD (r m : Byte) : (s.setCompare r m).flagD = s.flagD := rfl
@[simp] theorem State.setCompare_flagB (r m : Byte) : (s.setCompare r m).flagB = s.flagB := rfl
@[simp] theorem State.setCompare_flagV (r m : Byte) : (s.setCompare r m).flagV = s.flagV := rfl
@[simp] theorem State.setCompare_flagN (r m : Byte) : (s.setCompare r m).flagN = s.flagN := rfl
@[simp] theorem State.setCompare_runState (r m : Byte) : (s.setCompare r m).runState = s.runState := rfl
@[simp] theorem State.setCompare_stopCause (r m : Byte) : (s.setCompare r m).stopCause = s.stopCause := rfl
@[simp] theorem State.setCompare_stopInfoPc (r m : Byte) : (s.setCompare r m).stopInfoPc = s.stopInfoPc := rfl
@[simp] theorem State.setCompare_stopInfoOpcode (r m : Byte) : (s.setCompare r m).stopInfoOpcode = s.stopInfoOpcode := rfl
@[simp] theorem State.setCompare_stopInfoAddress (r m : Byte) : (s.setCompare r m).stopInfoAddress = s.stopInfoAddress := rfl
@[simp] theorem State.setCompare_mem (r m : Byte) : (s.setCompare r m).mem = s.mem := rfl
@[simp] theorem State.setCompare_turns (r m : Byte) : (s.setCompare r m).turns = s.turns := rfl
@[simp] theorem State.setCompare_answer (r m : Byte) : (s.setCompare r m).answer = s.answer := rfl
@[simp] theorem State.setCompare_freeIndex (r m : Byte) : (s.setCompare r m).freeIndex = s.freeIndex := rfl

@[simp] theorem State.setShift_a (v : Byte) : (s.setShift v).a = s.a := rfl
@[simp] theorem State.setShift_x (v : Byte) : (s.setShift v).x = s.x := rfl
@[simp] theorem State.setShift_y (v : Byte) : (s.setShift v).y = s.y := rfl
@[simp] theorem State.setShift_sp (v : Byte) : (s.setShift v).sp = s.sp := rfl
@[simp] theorem State.setShift_pc (v : Byte) : (s.setShift v).pc = s.pc := rfl
@[simp] theorem State.setShift_flagC (v : Byte) : (s.setShift v).flagC = bit7 v := rfl
@[simp] theorem State.setShift_flagZ (v : Byte) : (s.setShift v).flagZ = isZero (shl8 v) := rfl
@[simp] theorem State.setShift_flagI (v : Byte) : (s.setShift v).flagI = s.flagI := rfl
@[simp] theorem State.setShift_flagD (v : Byte) : (s.setShift v).flagD = s.flagD := rfl
@[simp] theorem State.setShift_flagB (v : Byte) : (s.setShift v).flagB = s.flagB := rfl
@[simp] theorem State.setShift_flagV (v : Byte) : (s.setShift v).flagV = s.flagV := rfl
@[simp] theorem State.setShift_flagN (v : Byte) : (s.setShift v).flagN = bit7 (shl8 v) := rfl
@[simp] theorem State.setShift_runState (v : Byte) : (s.setShift v).runState = s.runState := rfl
@[simp] theorem State.setShift_stopCause (v : Byte) : (s.setShift v).stopCause = s.stopCause := rfl
@[simp] theorem State.setShift_stopInfoPc (v : Byte) : (s.setShift v).stopInfoPc = s.stopInfoPc := rfl
@[simp] theorem State.setShift_stopInfoOpcode (v : Byte) : (s.setShift v).stopInfoOpcode = s.stopInfoOpcode := rfl
@[simp] theorem State.setShift_stopInfoAddress (v : Byte) : (s.setShift v).stopInfoAddress = s.stopInfoAddress := rfl
@[simp] theorem State.setShift_mem (v : Byte) : (s.setShift v).mem = s.mem := rfl
@[simp] theorem State.setShift_turns (v : Byte) : (s.setShift v).turns = s.turns := rfl
@[simp] theorem State.setShift_answer (v : Byte) : (s.setShift v).answer = s.answer := rfl
@[simp] theorem State.setShift_freeIndex (v : Byte) : (s.setShift v).freeIndex = s.freeIndex := rfl

end Sys2Proof.Machine
end

