-- ==== Sys2Proof/Laws/Operands.lean ====
section
/-! SUPPORT. What the address path and the resolvers do: one lemma per function, and what all of them have in common. -/

namespace Sys2Proof

/-- `WORD` as a number. -/
@[simp] theorem word_toNat (lo hi : Byte) : (word lo hi).toNat = hi.toNat * 256 + lo.toNat := by
  simp only [word, BitVec.toNat_ofNat]
  omega

@[simp] theorem lowByte_toNat (w : Addr) : (lowByte w).toNat = w.toNat % 256 := by
  simp only [lowByte, BitVec.toNat_ofNat]
  omega

@[simp] theorem highByte_toNat (w : Addr) : (highByte w).toNat = w.toNat / 256 := by
  simp only [highByte, BitVec.toNat_ofNat]
  omega

/-- A word is put together again from its two bytes. -/
@[simp] theorem word_lowByte_highByte (w : Addr) : word (lowByte w) (highByte w) = w := by
  apply BitVec.eq_of_toNat_eq
  simp only [word_toNat, lowByte_toNat, highByte_toNat]
  omega

@[simp] theorem lowByte_word (lo hi : Byte) : lowByte (word lo hi) = lo := by
  apply BitVec.eq_of_toNat_eq
  simp only [word_toNat, lowByte_toNat]
  omega

@[simp] theorem highByte_word (lo hi : Byte) : highByte (word lo hi) = hi := by
  apply BitVec.eq_of_toNat_eq
  simp only [word_toNat, highByte_toNat]
  omega

namespace Machine

variable {s t : State} {e : Abort}

@[simp] theorem add8w_toNat (a b : Byte) : (add8w a b).toNat = (a.toNat + b.toNat) % 256 := by
  simp [add8w, BitVec.toNat_add]

/-- `sext_8` is the two's complement reading of a byte. -/
theorem sext8_eq_toInt (v : Byte) : sext8 v = v.toInt := by
  simp only [sext8, BitVec.toInt_eq_toNat_cond]
  split <;> split <;> omega

theorem sext8_range (v : Byte) : -128 ≤ sext8 v ∧ sext8 v ≤ 127 := by
  simp only [sext8]
  split <;> omega

/-- A pointer whose two bytes lie in memory. -/
theorem readPointer_of_lt {p : Nat} (h : p + 1 < 65536) :
    readPointer p s = .ok (word (s.mem.read p) (s.mem.read (p + 1))) := by
  simp only [readPointer, memRead_of_lt (s := s) (Nat.lt_of_succ_lt h), memRead_of_lt (s := s) h]

/-- A pointer that lies across the top of memory. -/
theorem readPointer_top : readPointer 65535 s = .error (.addressOutOfRange 65536) := by
  simp only [readPointer, memRead_of_lt (s := s) (show 65535 < 65536 by omega),
    memRead_of_ge (s := s) (addr := 65535 + 1) (by omega)]

/-! ## The effective address of each mode -/

@[simp] theorem effectiveAddress_zeroPage (zp : Byte) : effectiveAddress (.zeroPage zp) s = .ok zp.toNat := rfl

@[simp] theorem effectiveAddress_zeroPageX (zp : Byte) :
    effectiveAddress (.zeroPageX zp) s = .ok ((zp.toNat + s.x.toNat) % 256) := by
  simp [effectiveAddress]

@[simp] theorem effectiveAddress_zeroPageY (zp : Byte) :
    effectiveAddress (.zeroPageY zp) s = .ok ((zp.toNat + s.y.toNat) % 256) := by
  simp [effectiveAddress]

@[simp] theorem effectiveAddress_absolute (w : Addr) : effectiveAddress (.absolute w) s = .ok w.toNat := rfl

@[simp] theorem effectiveAddress_absoluteX (w : Addr) :
    effectiveAddress (.absoluteX w) s = .ok (w.toNat + s.x.toNat) := rfl

@[simp] theorem effectiveAddress_absoluteY (w : Addr) :
    effectiveAddress (.absoluteY w) s = .ok (w.toNat + s.y.toNat) := rfl

@[simp] theorem effectiveAddress_indexedIndirect (zp : Byte) :
    effectiveAddress (.indexedIndirect zp) s =
      .ok ((s.mem.read ((zp.toNat + s.x.toNat) % 256 + 1)).toNat * 256 +
        (s.mem.read ((zp.toNat + s.x.toNat) % 256)).toNat) := by
  simp [effectiveAddress, readPointer_of_lt (s := s) (p := (zp.toNat + s.x.toNat) % 256) (by omega)]

@[simp] theorem effectiveAddress_indirectIndexed (zp : Byte) :
    effectiveAddress (.indirectIndexed zp) s =
      .ok ((s.mem.read (zp.toNat + 1)).toNat * 256 + (s.mem.read zp.toNat).toNat + s.y.toNat) := by
  simp [effectiveAddress, idx, readPointer_of_lt (s := s) (p := zp.toNat) (by omega)]

theorem effectiveAddress_indirect_of_lt {w : Addr} (h : w.toNat + 1 < 65536) :
    effectiveAddress (.indirect w) s =
      .ok ((s.mem.read (w.toNat + 1)).toNat * 256 + (s.mem.read w.toNat).toNat) := by
  simp [effectiveAddress, readPointer_of_lt (s := s) h]

theorem effectiveAddress_indirect_top :
    effectiveAddress (.indirect 0xFFFF#16) s = .error (.addressOutOfRange 65536) := by
  simp [effectiveAddress, readPointer_top (s := s)]

/-- Everything the resolvers can answer: an address up to 0x100FE, or, for INDIRECT alone, AddressOutOfRange(0x10000)
(40_cycle_and_addressing.md R128). -/
theorem effectiveAddress_cases (m : MemOperand) (s : State) :
    (∃ ea, effectiveAddress m s = .ok ea ∧ ea ≤ 0x100FE) ∨
      (m = .indirect 0xFFFF#16 ∧ effectiveAddress m s = .error (.addressOutOfRange 0x10000)) := by
  cases m with
  | indirect w =>
    by_cases h : w.toNat + 1 < 65536
    · exact .inl ⟨_, effectiveAddress_indirect_of_lt h, by omega⟩
    · have hw : w = 0xFFFF#16 := BitVec.eq_of_toNat_eq (by simp; omega)
      subst hw
      exact .inr ⟨rfl, effectiveAddress_indirect_top⟩
  | zeroPage zp => exact .inl ⟨_, effectiveAddress_zeroPage zp, by omega⟩
  | zeroPageX zp => exact .inl ⟨_, effectiveAddress_zeroPageX zp, by omega⟩
  | zeroPageY zp => exact .inl ⟨_, effectiveAddress_zeroPageY zp, by omega⟩
  | absolute w => exact .inl ⟨_, effectiveAddress_absolute w, by omega⟩
  | absoluteX w => exact .inl ⟨_, effectiveAddress_absoluteX w, by omega⟩
  | absoluteY w => exact .inl ⟨_, effectiveAddress_absoluteY w, by omega⟩
  | indexedIndirect zp => exact .inl ⟨_, effectiveAddress_indexedIndirect zp, by omega⟩
  | indirectIndexed zp => exact .inl ⟨_, effectiveAddress_indirectIndexed zp, by omega⟩

/-- A resolver depends on X, Y and the two pointer bytes, and on nothing else of the state. -/
theorem effectiveAddress_congr {m : MemOperand} (hx : t.x = s.x) (hy : t.y = s.y)
    (hm : ∀ a ∈ pointerReads m s, t.mem.read a = s.mem.read a) : effectiveAddress m t = effectiveAddress m s := by
  cases m with
  | indirect w =>
    simp only [pointerReads, List.mem_cons, List.not_mem_nil, or_false, forall_eq_or_imp, forall_eq] at hm
    by_cases h : w.toNat + 1 < 65536
    · rw [effectiveAddress_indirect_of_lt h, effectiveAddress_indirect_of_lt h, hm.1, hm.2]
    · have hw : w = 0xFFFF#16 := BitVec.eq_of_toNat_eq (by simp; omega)
      subst hw
      rw [effectiveAddress_indirect_top, effectiveAddress_indirect_top]
  | indexedIndirect zp =>
    simp only [pointerReads, List.mem_cons, List.not_mem_nil, or_false, forall_eq_or_imp, forall_eq] at hm
    simp only [effectiveAddress_indexedIndirect, hx, hm.1, hm.2]
  | indirectIndexed zp =>
    simp only [pointerReads, List.mem_cons, List.not_mem_nil, or_false, forall_eq_or_imp, forall_eq] at hm
    simp only [effectiveAddress_indirectIndexed, hy, hm.1, hm.2]
  | zeroPage zp => rfl
  | zeroPageX zp => simp [hx]
  | zeroPageY zp => simp [hy]
  | absolute w => rfl
  | absoluteX w => simp [hx]
  | absoluteY w => simp [hy]

/-! ## Reading and writing through a memory operand -/

/-- The value of a memory operand whose effective address lies in memory. -/
theorem readMemOperand_of_lt {m : MemOperand} {ea : Nat} (h : effectiveAddress m s = .ok ea) (hea : ea < 65536) :
    readMemOperand m s = .ok (s.mem.read ea) := by
  simp only [readMemOperand, h, memRead_of_lt hea]

/-- The read of a memory operand whose effective address lies outside memory. -/
theorem readMemOperand_of_ge {m : MemOperand} {ea : Nat} (h : effectiveAddress m s = .ok ea) (hea : 65536 ≤ ea) :
    readMemOperand m s = .error (.addressOutOfRange ea) := by
  simp only [readMemOperand, h, memRead_of_ge hea]

/-- The store through a memory operand whose effective address lies in memory. -/
theorem writeMemOperand_of_lt {m : MemOperand} {v : Byte} {ea : Nat} (h : effectiveAddress m s = .ok ea)
    (hea : ea < 65536) : writeMemOperand m v s = .ok (s.setMem (s.mem.write ea v)) := by
  simp only [writeMemOperand, h, memWrite_of_lt hea]

/-- The store through a memory operand whose effective address lies outside memory. -/
theorem writeMemOperand_of_ge {m : MemOperand} {v : Byte} {ea : Nat} (h : effectiveAddress m s = .ok ea)
    (hea : 65536 ≤ ea) : writeMemOperand m v s = .error (.addressOutOfRange ea) := by
  simp only [writeMemOperand, h, memWrite_of_ge hea]

/-- Everything an operand of an instruction can answer: a byte, or AddressOutOfRange in 0x10000 to 0x100FE. -/
theorem readOperand_cases (o : Operand) (s : State) :
    (∃ v, readOperand o s = .ok v) ∨
      ∃ n, readOperand o s = .error (.addressOutOfRange n) ∧ 0x10000 ≤ n ∧ n ≤ 0x100FE := by
  cases o with
  | immediate v => exact .inl ⟨v, rfl⟩
  | memory m =>
    rcases effectiveAddress_cases m s with ⟨ea, h, hle⟩ | ⟨-, h⟩
    · by_cases hea : ea < 65536
      · exact .inl ⟨_, readMemOperand_of_lt h hea⟩
      · exact .inr ⟨ea, readMemOperand_of_ge h (Nat.not_lt.1 hea), Nat.not_lt.1 hea, hle⟩
    · exact .inr ⟨0x10000, by simp only [readOperand, readMemOperand, h], Nat.le_refl _, by omega⟩

/-- Everything a store can answer: one byte written inside memory, or AddressOutOfRange in 0x10000 to 0x100FE. -/
theorem writeMemOperand_cases (m : MemOperand) (v : Byte) (s : State) :
    (∃ ea, effectiveAddress m s = .ok ea ∧ ea < 65536 ∧
        writeMemOperand m v s = .ok (s.setMem (s.mem.write ea v))) ∨
      ∃ n, writeMemOperand m v s = .error (.addressOutOfRange n) ∧ 0x10000 ≤ n ∧ n ≤ 0x100FE := by
  rcases effectiveAddress_cases m s with ⟨ea, h, hle⟩ | ⟨-, h⟩
  · by_cases hea : ea < 65536
    · exact .inl ⟨ea, h, hea, writeMemOperand_of_lt h hea⟩
    · exact .inr ⟨ea, writeMemOperand_of_ge h (Nat.not_lt.1 hea), Nat.not_lt.1 hea, hle⟩
  · exact .inr ⟨0x10000, by simp only [writeMemOperand, h], Nat.le_refl _, by omega⟩

end Machine
end Sys2Proof
end

