-- ==== Sys2Proof/Laws/PerInstr.lean ====
section
/-! SUPPORT. Facts made once for every constructor of `Instr`, and what the opcode table says of them. -/

namespace Sys2Proof.Laws.TableRow

/-- The opcode byte the ENCODER gives an instruction has, in the opcode table the DECODER reads, exactly the row of its
mnemonic and mode; its bytes are as many as the mode says; and its mode is one its mnemonic has. -/
def Statement (i : Instr) : Prop :=
  lookupOpcode i.opcode = some ⟨i.opcode, i.mnemonic, i.mode⟩ ∧ (encode i).length = i.length ∧ i.wellFormed = true

theorem ldaImmediate (value : Byte) : Statement (.ldaImmediate value) := ⟨rfl, rfl, rfl⟩
theorem ldaZeroPage (zp : Byte) : Statement (.ldaZeroPage zp) := ⟨rfl, rfl, rfl⟩
theorem ldaZeroPageX (zp : Byte) : Statement (.ldaZeroPageX zp) := ⟨rfl, rfl, rfl⟩
theorem ldaAbsolute (addr : Addr) : Statement (.ldaAbsolute addr) := ⟨rfl, rfl, rfl⟩
theorem ldaAbsoluteX (addr : Addr) : Statement (.ldaAbsoluteX addr) := ⟨rfl, rfl, rfl⟩
theorem ldaAbsoluteY (addr : Addr) : Statement (.ldaAbsoluteY addr) := ⟨rfl, rfl, rfl⟩
theorem ldaIndexedIndirect (zp : Byte) : Statement (.ldaIndexedIndirect zp) := ⟨rfl, rfl, rfl⟩
theorem ldaIndirectIndexed (zp : Byte) : Statement (.ldaIndirectIndexed zp) := ⟨rfl, rfl, rfl⟩
theorem ldxImmediate (value : Byte) : Statement (.ldxImmediate value) := ⟨rfl, rfl, rfl⟩
theorem ldxZeroPage (zp : Byte) : Statement (.ldxZeroPage zp) := ⟨rfl, rfl, rfl⟩
theorem ldxZeroPageY (zp : Byte) : Statement (.ldxZeroPageY zp) := ⟨rfl, rfl, rfl⟩
theorem ldxAbsolute (addr : Addr) : Statement (.ldxAbsolute addr) := ⟨rfl, rfl, rfl⟩
theorem ldxAbsoluteY (addr : Addr) : Statement (.ldxAbsoluteY addr) := ⟨rfl, rfl, rfl⟩
theorem ldyImmediate (value : Byte) : Statement (.ldyImmediate value) := ⟨rfl, rfl, rfl⟩
theorem ldyZeroPage (zp : Byte) : Statement (.ldyZeroPage zp) := ⟨rfl, rfl, rfl⟩
theorem ldyZeroPageX (zp : Byte) : Statement (.ldyZeroPageX zp) := ⟨rfl, rfl, rfl⟩
theorem ldyAbsolute (addr : Addr) : Statement (.ldyAbsolute addr) := ⟨rfl, rfl, rfl⟩
theorem ldyAbsoluteX (addr : Addr) : Statement (.ldyAbsoluteX addr) := ⟨rfl, rfl, rfl⟩
theorem staZeroPage (zp : Byte) : Statement (.staZeroPage zp) := ⟨rfl, rfl, rfl⟩
theorem staZeroPageX (zp : Byte) : Statement (.staZeroPageX zp) := ⟨rfl, rfl, rfl⟩
theorem staAbsolute (addr : Addr) : Statement (.staAbsolute addr) := ⟨rfl, rfl, rfl⟩
theorem staAbsoluteX (addr : Addr) : Statement (.staAbsoluteX addr) := ⟨rfl, rfl, rfl⟩
theorem staAbsoluteY (addr : Addr) : Statement (.staAbsoluteY addr) := ⟨rfl, rfl, rfl⟩
theorem staIndexedIndirect (zp : Byte) : Statement (.staIndexedIndirect zp) := ⟨rfl, rfl, rfl⟩
theorem staIndirectIndexed (zp : Byte) : Statement (.staIndirectIndexed zp) := ⟨rfl, rfl, rfl⟩
theorem sec : Statement .sec := ⟨rfl, rfl, rfl⟩
theorem clc : Statement .clc := ⟨rfl, rfl, rfl⟩
theorem sei : Statement .sei := ⟨rfl, rfl, rfl⟩
theorem cli : Statement .cli := ⟨rfl, rfl, rfl⟩
theorem clv : Statement .clv := ⟨rfl, rfl, rfl⟩
theorem sed : Statement .sed := ⟨rfl, rfl, rfl⟩
theorem cld : Statement .cld := ⟨rfl, rfl, rfl⟩
theorem cmpImmediate (value : Byte) : Statement (.cmpImmediate value) := ⟨rfl, rfl, rfl⟩
theorem cmpZeroPage (zp : Byte) : Statement (.cmpZeroPage zp) := ⟨rfl, rfl, rfl⟩
theorem cmpZeroPageX (zp : Byte) : Statement (.cmpZeroPageX zp) := ⟨rfl, rfl, rfl⟩
theorem cmpAbsolute (addr : Addr) : Statement (.cmpAbsolute addr) := ⟨rfl, rfl, rfl⟩
theorem cmpAbsoluteX (addr : Addr) : Statement (.cmpAbsoluteX addr) := ⟨rfl, rfl, rfl⟩
theorem cmpAbsoluteY (addr : Addr) : Statement (.cmpAbsoluteY addr) := ⟨rfl, rfl, rfl⟩
theorem cmpIndexedIndirect (zp : Byte) : Statement (.cmpIndexedIndirect zp) := ⟨rfl, rfl, rfl⟩
theorem cmpIndirectIndexed (zp : Byte) : Statement (.cmpIndirectIndexed zp) := ⟨rfl, rfl, rfl⟩
theorem cpxImmediate (value : Byte) : Statement (.cpxImmediate value) := ⟨rfl, rfl, rfl⟩
theorem cpxZeroPage (zp : Byte) : Statement (.cpxZeroPage zp) := ⟨rfl, rfl, rfl⟩
theorem cpxAbsolute (addr : Addr) : Statement (.cpxAbsolute addr) := ⟨rfl, rfl, rfl⟩
theorem cpyImmediate (value : Byte) : Statement (.cpyImmediate value) := ⟨rfl, rfl, rfl⟩
theorem cpyZeroPage (zp : Byte) : Statement (.cpyZeroPage zp) := ⟨rfl, rfl, rfl⟩
theorem cpyAbsolute (addr : Addr) : Statement (.cpyAbsolute addr) := ⟨rfl, rfl, rfl⟩
theorem aslZeroPage (zp : Byte) : Statement (.aslZeroPage zp) := ⟨rfl, rfl, rfl⟩
theorem aslZeroPageX (zp : Byte) : Statement (.aslZeroPageX zp) := ⟨rfl, rfl, rfl⟩
theorem aslAbsolute (addr : Addr) : Statement (.aslAbsolute addr) := ⟨rfl, rfl, rfl⟩
theorem aslAbsoluteX (addr : Addr) : Statement (.aslAbsoluteX addr) := ⟨rfl, rfl, rfl⟩
theorem aslA : Statement .aslA := ⟨rfl, rfl, rfl⟩
theorem bcc (offset : Byte) : Statement (.bcc offset) := ⟨rfl, rfl, rfl⟩
theorem bne (offset : Byte) : Statement (.bne offset) := ⟨rfl, rfl, rfl⟩
theorem bcs (offset : Byte) : Statement (.bcs offset) := ⟨rfl, rfl, rfl⟩
theorem beq (offset : Byte) : Statement (.beq offset) := ⟨rfl, rfl, rfl⟩
theorem bmi (offset : Byte) : Statement (.bmi offset) := ⟨rfl, rfl, rfl⟩
theorem bpl (offset : Byte) : Statement (.bpl offset) := ⟨rfl, rfl, rfl⟩
theorem bvc (offset : Byte) : Statement (.bvc offset) := ⟨rfl, rfl, rfl⟩
theorem bvs (offset : Byte) : Statement (.bvs offset) := ⟨rfl, rfl, rfl⟩

/-- The statement, for every instruction. -/
theorem all (i : Instr) : Statement i := by
  cases i <;> exact ⟨rfl, rfl, rfl⟩

end Sys2Proof.Laws.TableRow

namespace Sys2Proof

/-- A row the lookup finds is a row of the table, for the byte asked for. -/
theorem lookupOpcode_some {op : Byte} {r : Row} (h : lookupOpcode op = some r) : r ∈ opcodeTable ∧ r.opcode = op := by
  refine ⟨List.mem_of_find?_eq_some h, ?_⟩
  have := List.find?_some h
  simpa using this

/-- Every row of the table names an instruction, whatever the operand bytes, and it is one of the row's mnemonic and
mode with the row's opcode. -/
theorem ofParts_of_mem {r : Row} (h : r ∈ opcodeTable) (b1 b2 : Byte) :
    ∃ i, Instr.ofParts r.mnemonic r.mode b1 b2 = some i ∧ i.opcode = r.opcode ∧ i.mnemonic = r.mnemonic ∧
      i.mode = r.mode := by
  simp only [opcodeTable, loadStoreRows, flagRows, compareRows, shiftRows, branchRows, List.cons_append,
    List.nil_append, List.mem_cons, List.not_mem_nil, or_false] at h
  rcases h with rfl | rfl | rfl | rfl | rfl | rfl | rfl | rfl | rfl | rfl | rfl | rfl | rfl | rfl | rfl | rfl | rfl | rfl | rfl | rfl | rfl | rfl | rfl | rfl | rfl | rfl | rfl | rfl | rfl | rfl | rfl | rfl | rfl | rfl | rfl | rfl | rfl | rfl | rfl | rfl | rfl | rfl | rfl | rfl | rfl | rfl | rfl | rfl | rfl | rfl | rfl | rfl | rfl | rfl | rfl | rfl | rfl | rfl | rfl
  all_goals exact ⟨_, rfl, rfl, rfl, rfl⟩

end Sys2Proof
end

