-- ==== Sys2Proof/Laws/Fetch.lean ====
section
/-! SUPPORT. What the fetch can answer, and that it finds the instruction whose bytes stand at PC. -/

namespace Sys2Proof.Machine

variable {s t : State}

/-- The opcode fetch cannot raise: PC is a 16-bit register (40_cycle_and_addressing.md R111). -/
theorem fetch_eq_lookup (s : State) :
    fetch s =
      match lookupOpcode (s.mem.read s.pc.toNat) with
      | none => .error (.unknownOpcode (s.mem.read s.pc.toNat))
      | some r => fetchOperands r s := by
  cases hl : lookupOpcode (s.mem.read s.pc.toNat) <;>
    simp only [fetch, memRead_of_lt (s := s) (addr := s.pc.toNat) (by omega), hl]

theorem fetch_of_unknown (h : lookupOpcode (s.mem.read s.pc.toNat) = none) :
    fetch s = .error (.unknownOpcode (s.mem.read s.pc.toNat)) := by
  rw [fetch_eq_lookup, h]

theorem fetch_of_row {r : Row} (h : lookupOpcode (s.mem.read s.pc.toNat) = some r) : fetch s = fetchOperands r s := by
  rw [fetch_eq_lookup, h]

/-- A row of the table always assembles to an instruction. -/
theorem assemble_of_mem {r : Row} (h : r ∈ opcodeTable) (b1 b2 : Byte) :
    ∃ i, assemble r b1 b2 = .ok i ∧ i.opcode = r.opcode ∧ i.mode = r.mode := by
  obtain ⟨i, hi, ho, -, hm⟩ := ofParts_of_mem h b1 b2
  exact ⟨i, by simp only [assemble, hi], ho, hm⟩

/-- What the operand fetch can answer for a row of the table: an instruction of that row whose bytes lie in memory, or
AddressOutOfRange(0x10000) where they do not (40_cycle_and_addressing.md R111, R128). -/
theorem fetchOperands_cases {r : Row} (h : r ∈ opcodeTable) (s : State) :
    (s.pc.toNat + r.mode.length ≤ 65536 ∧ ∃ i, fetchOperands r s = .ok i ∧ i.opcode = r.opcode ∧ i.mode = r.mode) ∨
      (65536 < s.pc.toNat + r.mode.length ∧ fetchOperands r s = .error (.addressOutOfRange 0x10000)) := by
  have hpc : s.pc.toNat < 65536 := s.pc.isLt
  unfold fetchOperands Mode.length
  split
  · next hn =>
    obtain ⟨i, hi, hr⟩ := assemble_of_mem h 0#8 0#8
    exact .inl ⟨by omega, i, hi, hr⟩
  · next hn =>
    by_cases h1 : s.pc.toNat + 1 < 65536
    · obtain ⟨i, hi, hr⟩ := assemble_of_mem h (s.mem.read (s.pc.toNat + 1)) 0#8
      exact .inl ⟨by omega, i, by simp only [memRead_of_lt h1, hi], hr⟩
    · have e : s.pc.toNat + 1 = 65536 := by omega
      exact .inr ⟨by omega, by simp only [memRead_of_ge (Nat.not_lt.1 h1)]; rw [e]⟩
  · next hn0 hn1 =>
    have hn : r.mode.operandBytes = 2 := by
      revert hn0 hn1
      cases r.mode <;> simp [Mode.operandBytes]
    by_cases h1 : s.pc.toNat + 1 < 65536
    · by_cases h2 : s.pc.toNat + 2 < 65536
      · obtain ⟨i, hi, hr⟩ := assemble_of_mem h (s.mem.read (s.pc.toNat + 1)) (s.mem.read (s.pc.toNat + 2))
        exact .inl ⟨by omega, i, by simp only [memRead_of_lt h1, memRead_of_lt h2, hi], hr⟩
      · have e : s.pc.toNat + 2 = 65536 := by omega
        exact .inr ⟨by omega, by simp only [memRead_of_lt h1, memRead_of_ge (Nat.not_lt.1 h2)]; rw [e]⟩
    · have e : s.pc.toNat + 1 = 65536 := by omega
      exact .inr ⟨by omega, by simp only [memRead_of_ge (Nat.not_lt.1 h1)]; rw [e]⟩

/-- Everything the fetch can answer. -/
theorem fetch_cases (s : State) :
    (∃ i, fetch s = .ok i) ∨
      (lookupOpcode (s.mem.read s.pc.toNat) = none ∧ fetch s = .error (.unknownOpcode (s.mem.read s.pc.toNat))) ∨
      fetch s = .error (.addressOutOfRange 0x10000) := by
  cases h : lookupOpcode (s.mem.read s.pc.toNat) with
  | none => exact .inr (.inl ⟨rfl, fetch_of_unknown h⟩)
  | some r =>
    rw [fetch_of_row h]
    rcases fetchOperands_cases (lookupOpcode_some h).1 s with ⟨-, i, hi, -⟩ | ⟨-, he⟩
    · exact .inl ⟨i, hi⟩
    · exact .inr (.inr he)

/-- The bytes of the instruction at PC, by their number. -/
theorem holdsAtPc_bytes {i : Instr} (h : s.HoldsAtPc i) :
    s.mem.read s.pc.toNat = i.opcode ∧
      (∀ b1, i.operands = [b1] → s.mem.read (s.pc.toNat + 1) = b1) ∧
      (∀ b1 b2, i.operands = [b1, b2] →
        s.mem.read (s.pc.toNat + 1) = b1 ∧ s.mem.read (s.pc.toNat + 2) = b2) := by
  obtain ⟨-, hb⟩ := h
  have hl : i.length = 1 + i.operands.length := by
    have := (Laws.TableRow.all i).2.1
    simp only [encode, List.length_cons] at this
    omega
  refine ⟨by simpa [encode] using hb 0 (by omega), fun b1 h1 => ?_, fun b1 b2 h2 => ⟨?_, ?_⟩⟩
  · simpa [encode, h1] using hb 1 (by simp [hl, h1])
  · simpa [encode, h2] using hb 1 (by simp [hl, h2])
  · simpa [encode, h2] using hb 2 (by simp [hl, h2])

/-- The fetch finds the instruction whose bytes stand at PC. -/
theorem fetch_of_holdsAtPc {i : Instr} (h : s.HoldsAtPc i) : fetch s = .ok i := by
  obtain ⟨h0, h1, h2⟩ := holdsAtPc_bytes h
  have hlen : s.pc.toNat + i.length ≤ 65536 := h.1
  have hrow := (Laws.TableRow.all i).1
  rw [← h0] at hrow
  rw [fetch_of_row hrow, h0]
  cases i <;>
    first
    | rfl
    | (have hb := h1 _ rfl
       simp only [Instr.length, Instr.mode, Mode.length, Mode.operandBytes] at hlen
       simp only [fetchOperands, Mode.operandBytes, Instr.mode, memRead_of_lt (s := s) (addr := s.pc.toNat + 1) (by omega), hb]
       rfl)
    | (have hb := h2 _ _ rfl
       simp only [Instr.length, Instr.mode, Mode.length, Mode.operandBytes] at hlen
       simp only [fetchOperands, Mode.operandBytes, Instr.mode, memRead_of_lt (s := s) (addr := s.pc.toNat + 1) (by omega),
         memRead_of_lt (s := s) (addr := s.pc.toNat + 2) (by omega), hb, assemble, Instr.ofParts, Instr.mnemonic,
         word_lowByte_highByte])

end Sys2Proof.Machine
end

