-- ==== Sys2Proof/Laws/Meanings.lean ====
section
/-! SUPPORT. What each shared operation of the meanings can do, and, from them, what any instruction can do: it
completes and changes only what `Kept` allows, or it aborts with AddressOutOfRange. -/

namespace Sys2Proof.Machine

variable {s t : State}

@[simp] theorem finish_ok : finish s (.ok t) = .next t := rfl

@[simp] theorem finish_error {e : Abort} : finish s (.error e) = .next (s.abort e) := rfl

/-! ## Each instruction, over the shared operations -/

@[simp] theorem exec_ldaImmediate (value : Byte) : exec (.ldaImmediate value) s =
    finish s (loadReg .a (.immediate value) 2 s) := rfl
@[simp] theorem exec_ldaZeroPage (zp : Byte) : exec (.ldaZeroPage zp) s =
    finish s (loadReg .a (.memory (.zeroPage zp)) 2 s) := rfl
@[simp] theorem exec_ldaZeroPageX (zp : Byte) : exec (.ldaZeroPageX zp) s =
    finish s (loadReg .a (.memory (.zeroPageX zp)) 2 s) := rfl
@[simp] theorem exec_ldaAbsolute (addr : Addr) : exec (.ldaAbsolute addr) s =
    finish s (loadReg .a (.memory (.absolute addr)) 3 s) := rfl
@[simp] theorem exec_ldaAbsoluteX (addr : Addr) : exec (.ldaAbsoluteX addr) s =
    finish s (loadReg .a (.memory (.absoluteX addr)) 3 s) := rfl
@[simp] theorem exec_ldaAbsoluteY (addr : Addr) : exec (.ldaAbsoluteY addr) s =
    finish s (loadReg .a (.memory (.absoluteY addr)) 3 s) := rfl
@[simp] theorem exec_ldaIndexedIndirect (zp : Byte) : exec (.ldaIndexedIndirect zp) s =
    finish s (loadReg .a (.memory (.indexedIndirect zp)) 2 s) := rfl
@[simp] theorem exec_ldaIndirectIndexed (zp : Byte) : exec (.ldaIndirectIndexed zp) s =
    finish s (loadReg .a (.memory (.indirectIndexed zp)) 2 s) := rfl
@[simp] theorem exec_ldxImmediate (value : Byte) : exec (.ldxImmediate value) s =
    finish s (loadReg .x (.immediate value) 2 s) := rfl
@[simp] theorem exec_ldxZeroPage (zp : Byte) : exec (.ldxZeroPage zp) s =
    finish s (loadReg .x (.memory (.zeroPage zp)) 2 s) := rfl
@[simp] theorem exec_ldxZeroPageY (zp : Byte) : exec (.ldxZeroPageY zp) s =
    finish s (loadReg .x (.memory (.zeroPageY zp)) 2 s) := rfl
@[simp] theorem exec_ldxAbsolute (addr : Addr) : exec (.ldxAbsolute addr) s =
    finish s (loadReg .x (.memory (.absolute addr)) 3 s) := rfl
@[simp] theorem exec_ldxAbsoluteY (addr : Addr) : exec (.ldxAbsoluteY addr) s =
    finish s (loadReg .x (.memory (.absoluteY addr)) 3 s) := rfl
@[simp] theorem exec_ldyImmediate (value : Byte) : exec (.ldyImmediate value) s =
    finish s (loadReg .y (.immediate value) 2 s) := rfl
@[simp] theorem exec_ldyZeroPage (zp : Byte) : exec (.ldyZeroPage zp) s =
    finish s (loadReg .y (.memory (.zeroPage zp)) 2 s) := rfl
@[simp] theorem exec_ldyZeroPageX (zp : Byte) : exec (.ldyZeroPageX zp) s =
    finish s (loadReg .y (.memory (.zeroPageX zp)) 2 s) := rfl
@[simp] theorem exec_ldyAbsolute (addr : Addr) : exec (.ldyAbsolute addr) s =
    finish s (loadReg .y (.memory (.absolute addr)) 3 s) := rfl
@[simp] theorem exec_ldyAbsoluteX (addr : Addr) : exec (.ldyAbsoluteX addr) s =
    finish s (loadReg .y (.memory (.absoluteX addr)) 3 s) := rfl
@[simp] theorem exec_staZeroPage (zp : Byte) : exec (.staZeroPage zp) s =
    finish s (storeA (.zeroPage zp) 2 s) := rfl
@[simp] theorem exec_staZeroPageX (zp : Byte) : exec (.staZeroPageX zp) s =
    finish s (storeA (.zeroPageX zp) 2 s) := rfl
@[simp] theorem exec_staAbsolute (addr : Addr) : exec (.staAbsolute addr) s =
    finish s (storeA (.absolute addr) 3 s) := rfl
@[simp] theorem exec_staAbsoluteX (addr : Addr) : exec (.staAbsoluteX addr) s =
    finish s (storeA (.absoluteX addr) 3 s) := rfl
@[simp] theorem exec_staAbsoluteY (addr : Addr) : exec (.staAbsoluteY addr) s =
    finish s (storeA (.absoluteY addr) 3 s) := rfl
@[simp] theorem exec_staIndexedIndirect (zp : Byte) : exec (.staIndexedIndirect zp) s =
    finish s (storeA (.indexedIndirect zp) 2 s) := rfl
@[simp] theorem exec_staIndirectIndexed (zp : Byte) : exec (.staIndirectIndexed zp) s =
    finish s (storeA (.indirectIndexed zp) 2 s) := rfl
@[simp] theorem exec_sec : exec .sec s =
    finish s (writeFlag .c true s) := rfl
@[simp] theorem exec_clc : exec .clc s =
    finish s (writeFlag .c false s) := rfl
@[simp] theorem exec_sei : exec .sei s =
    finish s (writeFlag .i true s) := rfl
@[simp] theorem exec_cli : exec .cli s =
    finish s (writeFlag .i false s) := rfl
@[simp] theorem exec_clv : exec .clv s =
    finish s (writeFlag .v false s) := rfl
@[simp] theorem exec_sed : exec .sed s =
    finish s (writeFlag .d true s) := rfl
@[simp] theorem exec_cld : exec .cld s =
    finish s (writeFlag .d false s) := rfl
@[simp] theorem exec_cmpImmediate (value : Byte) : exec (.cmpImmediate value) s =
    finish s (compareReg .a (.immediate value) 2 s) := rfl
@[simp] theorem exec_cmpZeroPage (zp : Byte) : exec (.cmpZeroPage zp) s =
    finish s (compareReg .a (.memory (.zeroPage zp)) 2 s) := rfl
@[simp] theorem exec_cmpZeroPageX (zp : Byte) : exec (.cmpZeroPageX zp) s =
    finish s (compareReg .a (.memory (.zeroPageX zp)) 2 s) := rfl
@[simp] theorem exec_cmpAbsolute (addr : Addr) : exec (.cmpAbsolute addr) s =
    finish s (compareReg .a (.memory (.absolute addr)) 3 s) := rfl
@[simp] theorem exec_cmpAbsoluteX (addr : Addr) : exec (.cmpAbsoluteX addr) s =
    finish s (compareReg .a (.memory (.absoluteX addr)) 3 s) := rfl
@[simp] theorem exec_cmpAbsoluteY (addr : Addr) : exec (.cmpAbsoluteY addr) s =
    finish s (compareReg .a (.memory (.absoluteY addr)) 3 s) := rfl
@[simp] theorem exec_cmpIndexedIndirect (zp : Byte) : exec (.cmpIndexedIndirect zp) s =
    finish s (compareReg .a (.memory (.indexedIndirect zp)) 2 s) := rfl
@[simp] theorem exec_cmpIndirectIndexed (zp : Byte) : exec (.cmpIndirectIndexed zp) s =
    finish s (compareReg .a (.memory (.indirectIndexed zp)) 2 s) := rfl
@[simp] theorem exec_cpxImmediate (value : Byte) : exec (.cpxImmediate value) s =
    finish s (compareReg .x (.immediate value) 2 s) := rfl
@[simp] theorem exec_cpxZeroPage (zp : Byte) : exec (.cpxZeroPage zp) s =
    finish s (compareReg .x (.memory (.zeroPage zp)) 2 s) := rfl
@[simp] theorem exec_cpxAbsolute (addr : Addr) : exec (.cpxAbsolute addr) s =
    finish s (compareReg .x (.memory (.absolute addr)) 3 s) := rfl
@[simp] theorem exec_cpyImmediate (value : Byte) : exec (.cpyImmediate value) s =
    finish s (compareReg .y (.immediate value) 2 s) := rfl
@[simp] theorem exec_cpyZeroPage (zp : Byte) : exec (.cpyZeroPage zp) s =
    finish s (compareReg .y (.memory (.zeroPage zp)) 2 s) := rfl
@[simp] theorem exec_cpyAbsolute (addr : Addr) : exec (.cpyAbsolute addr) s =
    finish s (compareReg .y (.memory (.absolute addr)) 3 s) := rfl
@[simp] theorem exec_aslZeroPage (zp : Byte) : exec (.aslZeroPage zp) s =
    finish s (shiftMemory (.zeroPage zp) 2 s) := rfl
@[simp] theorem exec_aslZeroPageX (zp : Byte) : exec (.aslZeroPageX zp) s =
    finish s (shiftMemory (.zeroPageX zp) 2 s) := rfl
@[simp] theorem exec_aslAbsolute (addr : Addr) : exec (.aslAbsolute addr) s =
    finish s (shiftMemory (.absolute addr) 3 s) := rfl
@[simp] theorem exec_aslAbsoluteX (addr : Addr) : exec (.aslAbsoluteX addr) s =
    finish s (shiftMemory (.absoluteX addr) 3 s) := rfl
@[simp] theorem exec_aslA : exec .aslA s =
    finish s (.ok (((s.setReg .a (shl8 s.a)).setShift s.a).advance 1)) := rfl
@[simp] theorem exec_bcc (offset : Byte) : exec (.bcc offset) s =
    finish s (branchIf (!s.flagC) offset s) := rfl
@[simp] theorem exec_bne (offset : Byte) : exec (.bne offset) s =
    finish s (branchIf (!s.flagZ) offset s) := rfl
@[simp] theorem exec_bcs (offset : Byte) : exec (.bcs offset) s =
    finish s (branchIf s.flagC offset s) := rfl
@[simp] theorem exec_beq (offset : Byte) : exec (.beq offset) s =
    finish s (branchIf s.flagZ offset s) := rfl
@[simp] theorem exec_bmi (offset : Byte) : exec (.bmi offset) s =
    finish s (branchIf s.flagN offset s) := rfl
@[simp] theorem exec_bpl (offset : Byte) : exec (.bpl offset) s =
    finish s (branchIf (!s.flagN) offset s) := rfl
@[simp] theorem exec_bvc (offset : Byte) : exec (.bvc offset) s =
    finish s (branchIf (!s.flagV) offset s) := rfl
@[simp] theorem exec_bvs (offset : Byte) : exec (.bvs offset) s =
    finish s (branchIf s.flagV offset s) := rfl

/-! ## The flag computations -/

@[simp] theorem isZero_iff {v : Byte} : isZero v = true ↔ v = 0#8 := by simp [isZero]

/-- Bit 7 of a byte is set exactly from 0x80 on. -/
theorem bit7_eq_decide (v : Byte) : bit7 v = decide (128 ≤ v.toNat) := by
  have h : v.toNat / 128 < 2 := by omega
  simp only [bit7, BitVec.getLsbD, Nat.testBit_eq_decide_div_mod_eq]
  exact decide_eq_decide.2 (by norm_num; omega)

@[simp] theorem shl8_toNat (v : Byte) : (shl8 v).toNat = v.toNat * 2 % 256 := by
  simp [shl8]

/-- The carry of a compare above, below and at equality (43_compare.md R163). -/
theorem cmpCarry_of_gt {r m : Byte} (h : m.toNat < r.toNat) : cmpCarry r m = true := by
  have hne : r ≠ m := fun e => Nat.lt_irrefl _ (e ▸ h)
  simp [cmpCarry, cmpEq, cmpGe, hne, Nat.le_of_lt h]

theorem cmpCarry_of_lt {r m : Byte} (h : r.toNat < m.toNat) : cmpCarry r m = false := by
  have hne : r ≠ m := fun e => Nat.lt_irrefl _ (e ▸ h)
  simp [cmpCarry, cmpEq, cmpGe, hne, h]

theorem cmpCarry_self (r : Byte) : cmpCarry r r = Config.cmpCarryOnEqual := by simp [cmpCarry, cmpEq]

/-! ## The shared operations -/

/-- A load completes with the register, Z, N and PC written, or its operand raises. -/
theorem loadReg_cases (r : Reg) (o : Operand) (len : Nat) (s : State) :
    (∃ v, readOperand o s = .ok v ∧ loadReg r o len s = .ok (((s.setReg r v).setZN v).advance len)) ∨
      ∃ n, loadReg r o len s = .error (.addressOutOfRange n) ∧ 0x10000 ≤ n ∧ n ≤ 0x100FE := by
  rcases readOperand_cases o s with ⟨v, h⟩ | ⟨n, h, hn⟩
  · exact .inl ⟨v, h, by simp only [loadReg, h]⟩
  · exact .inr ⟨n, by simp only [loadReg, h], hn⟩

/-- A compare completes with Z, C and PC written, or its operand raises. -/
theorem compareReg_cases (r : Reg) (o : Operand) (len : Nat) (s : State) :
    (∃ m, readOperand o s = .ok m ∧ compareReg r o len s = .ok ((s.setCompare (s.reg r) m).advance len)) ∨
      ∃ n, compareReg r o len s = .error (.addressOutOfRange n) ∧ 0x10000 ≤ n ∧ n ≤ 0x100FE := by
  rcases readOperand_cases o s with ⟨v, h⟩ | ⟨n, h, hn⟩
  · exact .inl ⟨v, h, by simp only [compareReg, h]⟩
  · exact .inr ⟨n, by simp only [compareReg, h], hn⟩

/-- A store completes with one byte of memory and PC written, or its access raises. -/
theorem storeA_cases (m : MemOperand) (len : Nat) (s : State) :
    (∃ ea, effectiveAddress m s = .ok ea ∧ ea < 65536 ∧
        storeA m len s = .ok ((s.setMem (s.mem.write ea s.a)).advance len)) ∨
      ∃ n, storeA m len s = .error (.addressOutOfRange n) ∧ 0x10000 ≤ n ∧ n ≤ 0x100FE := by
  rcases writeMemOperand_cases m s.a s with ⟨ea, h, hea, hw⟩ | ⟨n, h, hn⟩
  · exact .inl ⟨ea, h, hea, by simp only [storeA, hw]⟩
  · exact .inr ⟨n, by simp only [storeA, h], hn⟩

/-- A shift of a memory byte completes with that byte, C, Z, N and PC written, or its read raises. -/
theorem shiftMemory_cases (m : MemOperand) (len : Nat) (s : State) :
    (∃ ea, effectiveAddress m s = .ok ea ∧ ea < 65536 ∧
        shiftMemory m len s = .ok
          (((s.setMem (s.mem.write ea (shl8 (s.mem.read ea)))).setShift (s.mem.read ea)).advance len)) ∨
      ∃ n, shiftMemory m len s = .error (.addressOutOfRange n) ∧ 0x10000 ≤ n ∧ n ≤ 0x100FE := by
  rcases effectiveAddress_cases m s with ⟨ea, h, hle⟩ | ⟨-, h⟩
  · by_cases hea : ea < 65536
    · exact .inl ⟨ea, h, hea, by simp only [shiftMemory, h, memRead_of_lt hea, memWrite_of_lt hea]⟩
    · exact .inr ⟨ea, by simp only [shiftMemory, h, memRead_of_ge (Nat.not_lt.1 hea)], Nat.not_lt.1 hea, hle⟩
  · exact .inr ⟨0x10000, by simp only [shiftMemory, h], Nat.le_refl _, by omega⟩

/-! ## What any instruction can do -/

/-- What every completed instruction leaves as it was: SP, B, the run control, the model's own fields, and memory but
for one byte at most. -/
structure Kept (s t : State) : Prop where
  sp : t.sp = s.sp
  flagB : t.flagB = s.flagB
  runState : t.runState = s.runState
  stopCause : t.stopCause = s.stopCause
  stopInfoPc : t.stopInfoPc = s.stopInfoPc
  stopInfoOpcode : t.stopInfoOpcode = s.stopInfoOpcode
  stopInfoAddress : t.stopInfoAddress = s.stopInfoAddress
  turns : t.turns = s.turns
  answer : t.answer = s.answer
  freeIndex : t.freeIndex = s.freeIndex
  mem : t.mem = s.mem ∨ ∃ a v, a < 65536 ∧ t.mem = s.mem.write a v

/-- An instruction completes and keeps what `Kept` says, or it aborts with AddressOutOfRange in 0x10000 to 0x100FE.
Nothing else can happen. -/
def CompletesOrAborts (s : State) (o : Host.Outcome State Fault Refusal) : Prop :=
  (∃ t, o = .next t ∧ Kept s t) ∨ ∃ n, o = .next (s.abort (.addressOutOfRange n)) ∧ 0x10000 ≤ n ∧ n ≤ 0x100FE

theorem finish_loadReg_cases (r : Reg) (hr : r ≠ .sp) (o : Operand) (len : Nat) (s : State) :
    CompletesOrAborts s (finish s (loadReg r o len s)) := by
  rcases loadReg_cases r o len s with ⟨v, -, h⟩ | ⟨n, h, hn⟩
  · refine .inl ⟨_, congrArg (finish s) h, ?_⟩
    cases r with
    | sp => exact absurd rfl hr
    | _ => exact ⟨rfl, rfl, rfl, rfl, rfl, rfl, rfl, rfl, rfl, rfl, .inl rfl⟩
  · exact .inr ⟨n, by rw [h, finish_error], hn⟩

theorem finish_compareReg_cases (r : Reg) (o : Operand) (len : Nat) (s : State) :
    CompletesOrAborts s (finish s (compareReg r o len s)) := by
  rcases compareReg_cases r o len s with ⟨v, -, h⟩ | ⟨n, h, hn⟩
  · exact .inl ⟨_, congrArg (finish s) h, rfl, rfl, rfl, rfl, rfl, rfl, rfl, rfl, rfl, rfl, .inl rfl⟩
  · exact .inr ⟨n, by rw [h, finish_error], hn⟩

theorem finish_storeA_cases (m : MemOperand) (len : Nat) (s : State) :
    CompletesOrAborts s (finish s (storeA m len s)) := by
  rcases storeA_cases m len s with ⟨ea, -, hea, h⟩ | ⟨n, h, hn⟩
  · exact .inl ⟨_, congrArg (finish s) h, rfl, rfl, rfl, rfl, rfl, rfl, rfl, rfl, rfl, rfl, .inr ⟨_, _, hea, rfl⟩⟩
  · exact .inr ⟨n, by rw [h, finish_error], hn⟩

theorem finish_shiftMemory_cases (m : MemOperand) (len : Nat) (s : State) :
    CompletesOrAborts s (finish s (shiftMemory m len s)) := by
  rcases shiftMemory_cases m len s with ⟨ea, -, hea, h⟩ | ⟨n, h, hn⟩
  · exact .inl ⟨_, congrArg (finish s) h, rfl, rfl, rfl, rfl, rfl, rfl, rfl, rfl, rfl, rfl, .inr ⟨_, _, hea, rfl⟩⟩
  · exact .inr ⟨n, by rw [h, finish_error], hn⟩

theorem finish_writeFlag_cases (f : Flag) (hf : f ≠ .b) (v : Bool) (s : State) :
    CompletesOrAborts s (finish s (writeFlag f v s)) := by
  refine .inl ⟨_, rfl, ?_⟩
  cases f with
  | b => exact absurd rfl hf
  | _ => exact ⟨rfl, rfl, rfl, rfl, rfl, rfl, rfl, rfl, rfl, rfl, .inl rfl⟩

theorem finish_branchIf_cases (cond : Bool) (off : Byte) (s : State) :
    CompletesOrAborts s (finish s (branchIf cond off s)) := by
  refine .inl ⟨_, rfl, ?_⟩
  cases cond <;> exact ⟨rfl, rfl, rfl, rfl, rfl, rfl, rfl, rfl, rfl, rfl, .inl rfl⟩

/-- The inversion of `exec`. -/
theorem exec_cases (i : Instr) (s : State) : CompletesOrAborts s (exec i s) := by
  cases i
  case aslA => exact .inl ⟨_, rfl, rfl, rfl, rfl, rfl, rfl, rfl, rfl, rfl, rfl, rfl, .inl rfl⟩
  all_goals
    simp only [exec_ldaImmediate, exec_ldaZeroPage, exec_ldaZeroPageX, exec_ldaAbsolute, exec_ldaAbsoluteX,
      exec_ldaAbsoluteY, exec_ldaIndexedIndirect, exec_ldaIndirectIndexed, exec_ldxImmediate,
      exec_ldxZeroPage, exec_ldxZeroPageY, exec_ldxAbsolute, exec_ldxAbsoluteY, exec_ldyImmediate,
      exec_ldyZeroPage, exec_ldyZeroPageX, exec_ldyAbsolute, exec_ldyAbsoluteX, exec_staZeroPage,
      exec_staZeroPageX, exec_staAbsolute, exec_staAbsoluteX, exec_staAbsoluteY,
      exec_staIndexedIndirect, exec_staIndirectIndexed, exec_sec, exec_clc, exec_sei, exec_cli,
      exec_clv, exec_sed, exec_cld, exec_cmpImmediate, exec_cmpZeroPage, exec_cmpZeroPageX,
      exec_cmpAbsolute, exec_cmpAbsoluteX, exec_cmpAbsoluteY, exec_cmpIndexedIndirect,
      exec_cmpIndirectIndexed, exec_cpxImmediate, exec_cpxZeroPage, exec_cpxAbsolute,
      exec_cpyImmediate, exec_cpyZeroPage, exec_cpyAbsolute, exec_aslZeroPage, exec_aslZeroPageX,
      exec_aslAbsolute, exec_aslAbsoluteX, exec_bcc, exec_bne, exec_bcs, exec_beq, exec_bmi, exec_bpl,
      exec_bvc, exec_bvs]
    first
    | exact finish_loadReg_cases _ (by decide) _ _ s
    | exact finish_compareReg_cases _ _ _ s
    | exact finish_storeA_cases _ _ s
    | exact finish_shiftMemory_cases _ _ s
    | exact finish_writeFlag_cases _ (by decide) _ s
    | exact finish_branchIf_cases _ _ s

end Sys2Proof.Machine
end

