-- ==== Sys2Proof/Laws/RunControl.lean ====
section
/-! SUPPORT. What one instruction, and the core's step in each run state, can do. -/

namespace Sys2Proof.Machine

variable {s t : State}

/-- Why an instruction of the core can abort (60_exceptions.md R200, R201, R202; 40_cycle_and_addressing.md R128). -/
inductive RaisedBy (s : State) : Abort → Prop where
  | unknownOpcode (h : lookupOpcode (s.mem.read s.pc.toNat) = none) :
      RaisedBy s (.unknownOpcode (s.mem.read s.pc.toNat))
  | addressOutOfRange (n : Nat) (lo : 0x10000 ≤ n) (hi : n ≤ 0x100FE) : RaisedBy s (.addressOutOfRange n)

/-- One instruction completes and keeps what `Kept` says, or it aborts for one of the two reasons. -/
theorem runInstruction_cases (s : State) :
    (∃ t, runInstruction s = .next t ∧ Kept s t) ∨ ∃ e, runInstruction s = .next (s.abort e) ∧ RaisedBy s e := by
  rcases fetch_cases s with ⟨i, hi⟩ | ⟨hu, he⟩ | he
  · simp only [runInstruction, hi]
    rcases exec_cases i s with h | ⟨n, h, lo, hi⟩
    · exact .inl h
    · exact .inr ⟨_, h, .addressOutOfRange n lo hi⟩
  · exact .inr ⟨_, by simp only [runInstruction, he], .unknownOpcode hu⟩
  · exact .inr ⟨_, by simp only [runInstruction, he], .addressOutOfRange _ (Nat.le_refl _) (by omega)⟩

@[simp] theorem coreStep_idle (h : s.runState = .idle) : coreStep s = .next s := by simp only [coreStep, h]

@[simp] theorem coreStep_stopped (h : s.runState = .stopped) : coreStep s = .next s := by simp only [coreStep, h]

@[simp] theorem coreStep_running (h : s.runState = .running) : coreStep s = runInstruction s := by
  simp only [coreStep, h]

/-- The core's step in Stopping: the request is observed at once, or exactly one more instruction runs and then the
core is Stopped, by its abort or by the request (60_exceptions.md R214). -/
theorem coreStep_stopping_cases (h : s.runState = .stopping) :
    coreStep s = .next s.drawFree.observeStop ∨
      (∃ t, runInstruction s.drawFree = .next t ∧
        Kept s.drawFree t ∧ coreStep s = .next t.observeStop) ∨
      ∃ e, RaisedBy s e ∧ coreStep s = .next (s.drawFree.abort e) := by
  simp only [coreStep, h]
  split
  · exact .inl rfl
  · refine .inr ?_
    rcases runInstruction_cases s.drawFree with ⟨t, ht, hk⟩ | ⟨e, he, hr⟩
    · refine .inl ⟨t, ht, hk, ?_⟩
      have hrun : t.runState = .stopping := hk.runState.trans h
      simp [runLastInstruction, ht, stopAfter, hrun]
    · refine .inr ⟨e, ?_, ?_⟩
      · cases hr with
        | unknownOpcode h => exact .unknownOpcode h
        | addressOutOfRange n lo hi => exact .addressOutOfRange n lo hi
      · simp [runLastInstruction, he, stopAfter]

/-- The core's step is always a next state. -/
theorem coreStep_next (s : State) : ∃ t, coreStep s = .next t := by
  cases h : s.runState with
  | idle => exact ⟨s, coreStep_idle h⟩
  | stopped => exact ⟨s, coreStep_stopped h⟩
  | running =>
    rw [coreStep_running h]
    rcases runInstruction_cases s with ⟨t, ht, -⟩ | ⟨e, he, -⟩
    · exact ⟨t, ht⟩
    · exact ⟨_, he⟩
  | stopping =>
    rcases coreStep_stopping_cases h with h | ⟨t, -, -, h⟩ | ⟨e, -, h⟩
    · exact ⟨_, h⟩
    · exact ⟨_, h⟩
    · exact ⟨_, h⟩

end Sys2Proof.Machine
end

