-- ==== Sys2Proof/Laws/HostMoves.lean ====
section
/-! SUPPORT. What the host's moves can do, and the step by whose turn it is. -/

namespace Sys2Proof.Machine

variable {s t : State}

theorem atRest_iff : s.atRest = true ↔ s.runState = .idle ∨ s.runState = .stopped := by
  simp [State.atRest]

/-- A move that has a meaning in Idle and Stopped only. -/
theorem whenAtRest_next_iff {u : State} : whenAtRest s t = .next u ↔ s.atRest = true ∧ u = t := by
  unfold whenAtRest
  split
  · next h => simp [h, eq_comm]
  · next h => simp [h]

theorem whenAtRest_of_atRest (h : s.atRest = true) : whenAtRest s t = .next t := if_pos h

theorem whenAtRest_of_busy (h : s.atRest = false) : whenAtRest s t = .refused .hostMoveOutsideContract :=
  if_neg (by simp [h])

/-! ## Loading -/

/-- A load that fits writes every byte. -/
theorem loadBytes_snd_none_iff {m : Memory} {addr : Nat} {vs : List Int} :
    (loadBytes m addr vs).2 = none ↔ vs = [] ∨ addr + vs.length ≤ 65536 := by
  induction vs generalizing m addr with
  | nil => simp [loadBytes]
  | cons v vs ih =>
    unfold loadBytes
    split
    · next h =>
      have h' : addr < 65536 := h
      rw [ih]
      cases vs with
      | nil => simp; omega
      | cons w vs => simp only [List.length_cons, reduceCtorEq, false_or]; omega
    · next h =>
      have h' : ¬ addr < 65536 := h
      simp only [List.length_cons, reduceCtorEq, false_or, false_iff]
      omega

/-- The first address a load cannot write is the first one outside memory. -/
theorem loadBytes_snd_some {m : Memory} {addr : Nat} {vs : List Int} (ha : addr ≤ 65536)
    (h : 65536 < addr + vs.length) : (loadBytes m addr vs).2 = some 65536 := by
  induction vs generalizing m addr with
  | nil => simp at h; omega
  | cons v vs ih =>
    unfold loadBytes
    split
    · next h' =>
      have h' : addr < 65536 := h'
      exact ih (by omega) (by simp only [List.length_cons] at h; omega)
    · next h' =>
      have h' : ¬ addr < 65536 := h'
      have : addr = 65536 := by omega
      simp [this]

/-- A load from outside memory writes nothing. -/
theorem loadBytes_of_ge {m : Memory} {addr : Nat} {v : Int} {vs : List Int} (h : 65536 ≤ addr) :
    loadBytes m addr (v :: vs) = (m, some addr) := by
  unfold loadBytes
  exact if_neg (Nat.not_lt.2 h)

/-- A load keeps the canonical form. -/
theorem loadBytes_wf {m : Memory} (hm : m.wf = true) (addr : Nat) (vs : List Int) :
    (loadBytes m addr vs).1.wf = true := by
  induction vs generalizing m addr with
  | nil => exact hm
  | cons v vs ih =>
    unfold loadBytes
    split
    · next h => exact ih (Memory.write_wf hm h _) _
    · exact hm

/-- A load leaves every address below its start alone. -/
theorem loadBytes_read_below {m : Memory} {addr a : Nat} {vs : List Int} (h : a < addr) :
    (loadBytes m addr vs).1.read a = m.read a := by
  induction vs generalizing m addr with
  | nil => rfl
  | cons v vs ih =>
    unfold loadBytes
    split
    · rw [ih (by omega)]
      exact Memory.read_write_other (by omega)
    · rfl

/-- What a byte of memory reads as after a load: the byte loaded there, or the old one. -/
theorem loadBytes_read {m : Memory} (hm : m.wf = true) {addr : Nat} {vs : List Int} (a : Nat) :
    (loadBytes m addr vs).1.read a =
      if h : addr ≤ a ∧ a < 65536 ∧ a - addr < vs.length then maskByte (vs[a - addr]'h.2.2) else m.read a := by
  induction vs generalizing m addr with
  | nil => simp [loadBytes]
  | cons v vs ih =>
    unfold loadBytes
    split
    · next hlt =>
      have hlt' : addr < 65536 := hlt
      by_cases ha : a = addr
      · subst ha
        rw [loadBytes_read_below (Nat.lt_succ_self a), Memory.read_write_same hm]
        simp [hlt']
      · rw [ih (Memory.write_wf hm hlt _), Memory.read_write_other ha]
        by_cases hin : addr + 1 ≤ a ∧ a < 65536 ∧ a - (addr + 1) < vs.length
        · have hin' : addr ≤ a ∧ a < 65536 ∧ a - addr < (v :: vs).length := by
            simp only [List.length_cons]; omega
          rw [dif_pos hin, dif_pos hin']
          have e : a - addr = (a - (addr + 1)) + 1 := by omega
          simp only [e, List.getElem_cons_succ]
        · have hin' : ¬ (addr ≤ a ∧ a < 65536 ∧ a - addr < (v :: vs).length) := by
            simp only [List.length_cons]; omega
          rw [dif_neg hin, dif_neg hin']
    · next hge =>
      have hge' : ¬ addr < 65536 := hge
      rw [dif_neg (by omega)]

/-! ## Whose turn it is -/

theorem step_of_coreTurn {u : State} (h : s.coreTurn = some u) : step s = coreStep u := by
  unfold State.coreTurn at h
  simp only [step, takeTurn]
  split at h <;> simp_all

theorem step_of_hostTurn {m : HostMove} {u : State} (h : s.hostTurn = some (m, u)) : step s = hostMove m u := by
  unfold State.hostTurn at h
  simp only [step, takeTurn]
  split at h <;> simp_all

/-- A turn is the core's or the host's. -/
theorem turn_cases (s : State) : (∃ u, s.coreTurn = some u) ∨ ∃ m u, s.hostTurn = some (m, u) := by
  unfold State.coreTurn State.hostTurn
  rcases s.turns with _ | ⟨_ | m, rest⟩ <;> simp

/-- The state the core's turn starts from differs in `turns` alone. -/
theorem coreTurn_eq {u : State} (h : s.coreTurn = some u) : u = s.setTurns s.turns.tail := by
  unfold State.coreTurn at h
  split at h
  · next h0 =>
    cases h
    rw [h0]
    conv_lhs => rw [← State.setTurns_turns_self s, h0]
    rfl
  · next h0 => cases h; rw [h0]; rfl
  · simp at h

/-- The state the host's turn starts from differs in `turns` alone. -/
theorem hostTurn_eq {m : HostMove} {u : State} (h : s.hostTurn = some (m, u)) :
    u = s.setTurns s.turns.tail ∧ s.turns.head? = some (.host m) := by
  unfold State.hostTurn at h
  split at h <;> simp_all

/-- A step is a next state, or the refusal of a host move outside the contract; no step faults. -/
theorem step_answers (s : State) :
    (∃ t, step s = .next t) ∨ step s = .refused .hostMoveOutsideContract := by
  rcases turn_cases s with ⟨u, h⟩ | ⟨m, u, h⟩
  · rw [step_of_coreTurn h]
    exact .inl (coreStep_next u)
  · rw [step_of_hostTurn h]
    cases m <;> simp only [hostMove, whenAtRest] <;>
      first
      | exact .inl ⟨_, rfl⟩
      | (split <;> first | exact .inl ⟨_, rfl⟩ | exact .inr rfl | exact .inl (coreStep_next _))

end Sys2Proof.Machine
end

