-- ==== Sys2Proof/Laws/Shapes.lean ====
section
/-! SUPPORT. The seven shapes of a meaning: whichever instruction it is, `exec` is one of seven shared operations on the
operand of the instruction. A proof about every instruction takes these seven cases, not the 59 constructors. -/

namespace Sys2Proof.Machine

/-- `o` is the source operand of the instruction: its immediate byte, or its memory operand. -/
def SourceOf (i : Instr) (o : Operand) : Prop :=
  (i.mode = .immediate ∧ i.memOperand = none ∧ ∃ v, i.operands = [v] ∧ o = .immediate v) ∨
    ∃ m, i.memOperand = some m ∧ o = .memory m

/-- What `exec i s` is, by the family of `i`. -/
inductive Shape (i : Instr) (s : State) : Prop where
  | load (r : Reg) (o : Operand)
      (kind : (i.mnemonic = .lda ∧ r = .a) ∨ (i.mnemonic = .ldx ∧ r = .x) ∨ (i.mnemonic = .ldy ∧ r = .y))
      (src : SourceOf i o) (eq : exec i s = finish s (loadReg r o i.length s))
  | compare (r : Reg) (o : Operand)
      (kind : (i.mnemonic = .cmp ∧ r = .a) ∨ (i.mnemonic = .cpx ∧ r = .x) ∨ (i.mnemonic = .cpy ∧ r = .y))
      (src : SourceOf i o) (eq : exec i s = finish s (compareReg r o i.length s))
  | store (m : MemOperand) (kind : i.mnemonic = .sta) (src : i.memOperand = some m)
      (eq : exec i s = finish s (storeA m i.length s))
  | shift (m : MemOperand) (kind : i.mnemonic = .asl) (src : i.memOperand = some m)
      (eq : exec i s = finish s (shiftMemory m i.length s))
  | shiftA (kind : i = .aslA)
  | flag (f : Flag) (v : Bool)
      (kind : (i = .sec ∧ f = .c ∧ v = true) ∨ (i = .clc ∧ f = .c ∧ v = false) ∨ (i = .sei ∧ f = .i ∧ v = true) ∨
        (i = .cli ∧ f = .i ∧ v = false) ∨ (i = .clv ∧ f = .v ∧ v = false) ∨ (i = .sed ∧ f = .d ∧ v = true) ∨
        (i = .cld ∧ f = .d ∧ v = false))
      (eq : exec i s = finish s (writeFlag f v s))
  | branch (cond : Bool) (off : Byte) (kind : i.mode = .relative) (src : i.operands = [off])
      (eq : exec i s = finish s (branchIf cond off s))

/-- Every instruction has one of the seven shapes. -/
theorem exec_shape (i : Instr) (s : State) : Shape i s := by
  have imm : ∀ (j : Instr) (v : Byte), j.mode = .immediate → j.memOperand = none → j.operands = [v] →
      SourceOf j (.immediate v) := fun j v h1 h2 h3 => .inl ⟨h1, h2, v, h3, rfl⟩
  have mem : ∀ (j : Instr) (m : MemOperand), j.memOperand = some m → SourceOf j (.memory m) :=
    fun j m h => .inr ⟨m, h, rfl⟩
  cases i
  case ldaImmediate v => exact .load .a (.immediate v) (.inl ⟨rfl, rfl⟩) (imm _ _ rfl rfl rfl) rfl
  case ldxImmediate v => exact .load .x (.immediate v) (.inr (.inl ⟨rfl, rfl⟩)) (imm _ _ rfl rfl rfl) rfl
  case ldyImmediate v => exact .load .y (.immediate v) (.inr (.inr ⟨rfl, rfl⟩)) (imm _ _ rfl rfl rfl) rfl
  case cmpImmediate v => exact .compare .a (.immediate v) (.inl ⟨rfl, rfl⟩) (imm _ _ rfl rfl rfl) rfl
  case cpxImmediate v => exact .compare .x (.immediate v) (.inr (.inl ⟨rfl, rfl⟩)) (imm _ _ rfl rfl rfl) rfl
  case cpyImmediate v => exact .compare .y (.immediate v) (.inr (.inr ⟨rfl, rfl⟩)) (imm _ _ rfl rfl rfl) rfl
  case aslA => exact .shiftA rfl
  case sec => exact .flag .c true (by simp) rfl
  case clc => exact .flag .c false (by simp) rfl
  case sei => exact .flag .i true (by simp) rfl
  case cli => exact .flag .i false (by simp) rfl
  case clv => exact .flag .v false (by simp) rfl
  case sed => exact .flag .d true (by simp) rfl
  case cld => exact .flag .d false (by simp) rfl
  all_goals
    first
    | exact .branch _ _ rfl rfl rfl
    | exact .store _ rfl rfl rfl
    | exact .shift _ rfl rfl rfl
    | exact .load .a _ (.inl ⟨rfl, rfl⟩) (mem _ _ rfl) rfl
    | exact .load .x _ (.inr (.inl ⟨rfl, rfl⟩)) (mem _ _ rfl) rfl
    | exact .load .y _ (.inr (.inr ⟨rfl, rfl⟩)) (mem _ _ rfl) rfl
    | exact .compare .a _ (.inl ⟨rfl, rfl⟩) (mem _ _ rfl) rfl
    | exact .compare .x _ (.inr (.inl ⟨rfl, rfl⟩)) (mem _ _ rfl) rfl
    | exact .compare .y _ (.inr (.inr ⟨rfl, rfl⟩)) (mem _ _ rfl) rfl

/-- The effective address of an instruction's memory operand lies in memory, but for ABSOLUTE_X, ABSOLUTE_Y and
INDIRECT_INDEXED, where it may not (40_cycle_and_addressing.md R128). -/
theorem memOperand_in_memory {i : Instr} {m : MemOperand} (h : i.memOperand = some m) (s : State)
    (hx : i.mode ≠ .absoluteX) (hy : i.mode ≠ .absoluteY) (hi : i.mode ≠ .indirectIndexed) :
    ∃ ea, effectiveAddress m s = .ok ea ∧ ea < 65536 := by
  have hm : (∃ zp, m = .zeroPage zp) ∨ (∃ zp, m = .zeroPageX zp) ∨ (∃ zp, m = .zeroPageY zp) ∨
      (∃ w, m = .absolute w) ∨ ∃ zp, m = .indexedIndirect zp := by
    cases i <;> simp only [Instr.memOperand, Option.some.injEq, reduceCtorEq] at h <;> subst h <;>
      simp_all [Instr.mode]
  rcases hm with ⟨zp, rfl⟩ | ⟨zp, rfl⟩ | ⟨zp, rfl⟩ | ⟨w, rfl⟩ | ⟨zp, rfl⟩
  · exact ⟨_, effectiveAddress_zeroPage zp, by omega⟩
  · exact ⟨_, effectiveAddress_zeroPageX zp, by omega⟩
  · exact ⟨_, effectiveAddress_zeroPageY zp, by omega⟩
  · exact ⟨_, effectiveAddress_absolute w, by omega⟩
  · exact ⟨_, effectiveAddress_indexedIndirect zp, by omega⟩

/-! ## The data accesses of an instruction (20_memory.md R65) -/

theorem dataWrite_eq_none {i : Instr} (h : i.mnemonic ≠ .sta) (h' : i.mnemonic ≠ .asl) (s : State) :
    dataWrite i s = none := if_neg (not_or.2 ⟨h, h'⟩)

theorem dataWrite_of_ok {i : Instr} {m : MemOperand} {s : State} {ea : Nat} (h : i.mnemonic = .sta ∨ i.mnemonic = .asl)
    (hm : i.memOperand = some m) (he : effectiveAddress m s = .ok ea) : dataWrite i s = some ea := by
  simp only [dataWrite, if_pos h, hm, he]

theorem pointerReads_subset_dataReads {i : Instr} {m : MemOperand} {s : State} (hm : i.memOperand = some m) :
    ∀ a ∈ pointerReads m s, a ∈ dataReads i s := by
  intro a ha
  simp only [dataReads, hm, List.mem_append, ha, true_or]

theorem target_mem_dataReads {i : Instr} {m : MemOperand} {s : State} {ea : Nat} (hm : i.memOperand = some m)
    (hr : readsTarget i = true) (he : effectiveAddress m s = .ok ea) : ea ∈ dataReads i s := by
  simp [dataReads, hm, hr, he]

end Sys2Proof.Machine
end

