-- ==== Sys2Proof/Tests/Slice0.lean ====
section
/-! SUPPORT. Tests. The smoke tests of WellFormed; every constructor's decoding, from the byte values of 30_encoding.md R86
and the operand layout of R82 to R84; single steps from 95_test_vectors.md (the number of the vector stands in the
theorem's name; section 1 there comes from the source, section 2 is derived from the rules); and, for every
obligation with hypotheses, a witness that meets them, at the values where its clauses meet. -/

namespace Sys2Proof.Tests

open Sys2Proof.Machine

/-! ## WellFormed: one ill-formed pair for each check -/

theorem test_wf_sta_has_no_immediate : admits .sta .immediate = false := by decide
theorem test_wf_ldx_has_no_x_index : admits .ldx .zeroPageX = false ∧ admits .ldx .absoluteX = false := by decide
theorem test_wf_ldy_has_no_y_index : admits .ldy .zeroPageY = false ∧ admits .ldy .absoluteY = false := by decide
theorem test_wf_cpx_cpy_have_no_index : admits .cpx .absoluteX = false ∧ admits .cpy .zeroPageX = false := by decide
theorem test_wf_asl_has_no_y_index : admits .asl .absoluteY = false ∧ admits .asl .indexedIndirect = false := by decide
theorem test_wf_flag_operation_has_no_operand : admits .sec .accumulator = false ∧ admits .clv .immediate = false := by
  decide
theorem test_wf_asl_a_is_accumulator : admits .aslA .implied = false ∧ admits .aslA .accumulator = true := by decide
theorem test_wf_branch_is_relative : admits .bcc .absolute = false ∧ admits .bvs .relative = true := by decide
theorem test_wf_no_instruction_uses_indirect :
    ∀ m ∈ [Mnemonic.lda, .ldx, .ldy, .sta, .cmp, .cpx, .cpy, .asl, .bcc], admits m .indirect = false := by decide

/-! ## Decoding: every constructor, low operand byte first -/

theorem test_decode_lda :
    decode [0xA9#8, 0x12#8] = .ok (.ldaImmediate 0x12#8, []) ∧
    decode [0xA5#8, 0x12#8] = .ok (.ldaZeroPage 0x12#8, []) ∧
    decode [0xB5#8, 0x12#8] = .ok (.ldaZeroPageX 0x12#8, []) ∧
    decode [0xAD#8, 0x34#8, 0x12#8] = .ok (.ldaAbsolute 0x1234#16, []) ∧
    decode [0xBD#8, 0x34#8, 0x12#8] = .ok (.ldaAbsoluteX 0x1234#16, []) ∧
    decode [0xB9#8, 0x34#8, 0x12#8] = .ok (.ldaAbsoluteY 0x1234#16, []) ∧
    decode [0xA1#8, 0x12#8] = .ok (.ldaIndexedIndirect 0x12#8, []) ∧
    decode [0xB1#8, 0x12#8] = .ok (.ldaIndirectIndexed 0x12#8, []) :=
  ⟨rfl, rfl, rfl, rfl, rfl, rfl, rfl, rfl⟩
theorem test_decode_ldx :
    decode [0xA2#8, 0x12#8] = .ok (.ldxImmediate 0x12#8, []) ∧
    decode [0xA6#8, 0x12#8] = .ok (.ldxZeroPage 0x12#8, []) ∧
    decode [0xB6#8, 0x12#8] = .ok (.ldxZeroPageY 0x12#8, []) ∧
    decode [0xAE#8, 0x34#8, 0x12#8] = .ok (.ldxAbsolute 0x1234#16, []) ∧
    decode [0xBE#8, 0x34#8, 0x12#8] = .ok (.ldxAbsoluteY 0x1234#16, []) :=
  ⟨rfl, rfl, rfl, rfl, rfl⟩
theorem test_decode_ldy :
    decode [0xA0#8, 0x12#8] = .ok (.ldyImmediate 0x12#8, []) ∧
    decode [0xA4#8, 0x12#8] = .ok (.ldyZeroPage 0x12#8, []) ∧
    decode [0xB4#8, 0x12#8] = .ok (.ldyZeroPageX 0x12#8, []) ∧
    decode [0xAC#8, 0x34#8, 0x12#8] = .ok (.ldyAbsolute 0x1234#16, []) ∧
    decode [0xBC#8, 0x34#8, 0x12#8] = .ok (.ldyAbsoluteX 0x1234#16, []) :=
  ⟨rfl, rfl, rfl, rfl, rfl⟩
theorem test_decode_sta :
    decode [0x85#8, 0x12#8] = .ok (.staZeroPage 0x12#8, []) ∧
    decode [0x95#8, 0x12#8] = .ok (.staZeroPageX 0x12#8, []) ∧
    decode [0x8D#8, 0x34#8, 0x12#8] = .ok (.staAbsolute 0x1234#16, []) ∧
    decode [0x9D#8, 0x34#8, 0x12#8] = .ok (.staAbsoluteX 0x1234#16, []) ∧
    decode [0x99#8, 0x34#8, 0x12#8] = .ok (.staAbsoluteY 0x1234#16, []) ∧
    decode [0x81#8, 0x12#8] = .ok (.staIndexedIndirect 0x12#8, []) ∧
    decode [0x91#8, 0x12#8] = .ok (.staIndirectIndexed 0x12#8, []) :=
  ⟨rfl, rfl, rfl, rfl, rfl, rfl, rfl⟩
theorem test_decode_flags :
    decode [0x38#8] = .ok (.sec, []) ∧
    decode [0x18#8] = .ok (.clc, []) ∧
    decode [0x78#8] = .ok (.sei, []) ∧
    decode [0x58#8] = .ok (.cli, []) ∧
    decode [0xB8#8] = .ok (.clv, []) ∧
    decode [0xF8#8] = .ok (.sed, []) ∧
    decode [0xD8#8] = .ok (.cld, []) :=
  ⟨rfl, rfl, rfl, rfl, rfl, rfl, rfl⟩
theorem test_decode_cmp :
    decode [0xC9#8, 0x12#8] = .ok (.cmpImmediate 0x12#8, []) ∧
    decode [0xC5#8, 0x12#8] = .ok (.cmpZeroPage 0x12#8, []) ∧
    decode [0xD5#8, 0x12#8] = .ok (.cmpZeroPageX 0x12#8, []) ∧
    decode [0xCD#8, 0x34#8, 0x12#8] = .ok (.cmpAbsolute 0x1234#16, []) ∧
    decode [0xDD#8, 0x34#8, 0x12#8] = .ok (.cmpAbsoluteX 0x1234#16, []) ∧
    decode [0xD9#8, 0x34#8, 0x12#8] = .ok (.cmpAbsoluteY 0x1234#16, []) ∧
    decode [0xC1#8, 0x12#8] = .ok (.cmpIndexedIndirect 0x12#8, []) ∧
    decode [0xD1#8, 0x12#8] = .ok (.cmpIndirectIndexed 0x12#8, []) :=
  ⟨rfl, rfl, rfl, rfl, rfl, rfl, rfl, rfl⟩
theorem test_decode_cpx_cpy :
    decode [0xE0#8, 0x12#8] = .ok (.cpxImmediate 0x12#8, []) ∧
    decode [0xE4#8, 0x12#8] = .ok (.cpxZeroPage 0x12#8, []) ∧
    decode [0xEC#8, 0x34#8, 0x12#8] = .ok (.cpxAbsolute 0x1234#16, []) ∧
    decode [0xC0#8, 0x12#8] = .ok (.cpyImmediate 0x12#8, []) ∧
    decode [0xC4#8, 0x12#8] = .ok (.cpyZeroPage 0x12#8, []) ∧
    decode [0xCC#8, 0x34#8, 0x12#8] = .ok (.cpyAbsolute 0x1234#16, []) :=
  ⟨rfl, rfl, rfl, rfl, rfl, rfl⟩
theorem test_decode_asl :
    decode [0x06#8, 0x12#8] = .ok (.aslZeroPage 0x12#8, []) ∧
    decode [0x16#8, 0x12#8] = .ok (.aslZeroPageX 0x12#8, []) ∧
    decode [0x0E#8, 0x34#8, 0x12#8] = .ok (.aslAbsolute 0x1234#16, []) ∧
    decode [0x1E#8, 0x34#8, 0x12#8] = .ok (.aslAbsoluteX 0x1234#16, []) ∧
    decode [0x0A#8] = .ok (.aslA, []) :=
  ⟨rfl, rfl, rfl, rfl, rfl⟩
theorem test_decode_branches :
    decode [0x90#8, 0x12#8] = .ok (.bcc 0x12#8, []) ∧
    decode [0xD0#8, 0x12#8] = .ok (.bne 0x12#8, []) ∧
    decode [0xB0#8, 0x12#8] = .ok (.bcs 0x12#8, []) ∧
    decode [0xF0#8, 0x12#8] = .ok (.beq 0x12#8, []) ∧
    decode [0x30#8, 0x12#8] = .ok (.bmi 0x12#8, []) ∧
    decode [0x10#8, 0x12#8] = .ok (.bpl 0x12#8, []) ∧
    decode [0x50#8, 0x12#8] = .ok (.bvc 0x12#8, []) ∧
    decode [0x70#8, 0x12#8] = .ok (.bvs 0x12#8, []) :=
  ⟨rfl, rfl, rfl, rfl, rfl, rfl, rfl, rfl⟩

theorem test_decode_unknown_bytes :
    decode [0x00#8] = .error (.unknownOpcode 0x00#8) ∧ decode [0xEA#8] = .error (.unknownOpcode 0xEA#8) ∧
    decode [0x4C#8, 0x00#8, 0x06#8] = .error (.unknownOpcode 0x4C#8) ∧
    decode [0x89#8, 0x00#8] = .error (.unknownOpcode 0x89#8) := ⟨rfl, rfl, rfl, rfl⟩
theorem test_decode_truncated :
    decode [] = .error .noBytes ∧ decode [0xA9#8] = .error (.truncated 0xA9#8) ∧
    decode [0xAD#8, 0x34#8] = .error (.truncated 0xAD#8) := ⟨rfl, rfl, rfl⟩
theorem test_decode_table_word_first_byte_is_lowest : decodeTableWord 24 0x1234AD = some (.ldaAbsolute 0x1234#16) := rfl
theorem test_decode_table_word_bits_above_are_zero :
    decodeTableWord 8 0x1234AD = some (.ldaAbsolute 0x0000#16) ∧ decodeTableWord 8 0x00 = none := ⟨rfl, rfl⟩
theorem test_encode_absolute_low_byte_first : encode (.staAbsolute 0x0605#16) = [0x8D#8, 0x05#8, 0x06#8] := rfl

/-! ## Single steps -/

/-- The reset state of 10_state.md R45, Running, with the open values at 0. -/
def base : State where
  a := 0x00#8
  x := 0x00#8
  y := 0x00#8
  sp := 0x00#8
  pc := 0x0600#16
  flagC := false
  flagZ := false
  flagI := false
  flagD := false
  flagB := false
  flagV := false
  flagN := false
  runState := .running
  stopCause := .none
  stopInfoPc := 0x0000#16
  stopInfoOpcode := 0x00#8
  stopInfoAddress := 0
  mem := []
  turns := []
  answer := none
  freeIndex := 0

/-- One step from `s` with bytes placed at PC, and what is asked of the next state. -/
def runs (bytes : List Byte) (s : State) (ask : State → Bool) : Bool :=
  match step { s with mem := storeBytes s.mem s.pc.toNat bytes } with
  | .next t => ask t
  | .fault _ => false
  | .refused _ => false

/-- The core is Stopped with AddressOutOfRange(`n`) at PC, A and the flags N, Z and C as the instruction found them. -/
def outOfRange (s : State) (n : Nat) (t : State) : Bool :=
  t.runState == .stopped && t.stopCause == .addressOutOfRange && t.stopInfoAddress == n && t.stopInfoPc == s.pc &&
    t.pc == s.pc && t.a == s.a && t.flagN == s.flagN && t.flagZ == s.flagZ && t.flagC == s.flagC

theorem test_S1_lda_immediate_negative : runs [0xA9#8, 0x80#8] base
    (fun t => t.a == 0x80#8 && !t.flagZ && t.flagN && t.pc == 0x0602#16) = true := by decide
theorem test_L6_lda_immediate_zero_keeps_other_flags : runs [0xA9#8, 0x00#8] { base with flagC := true, flagV := true, flagI := true, flagD := true, flagB := true }
    (fun t => t.flagZ && !t.flagN && t.flagC && t.flagV && t.flagI && t.flagD && t.flagB) = true := by decide
theorem test_L7_lda_zero_page : runs [0xA5#8, 0x10#8] { base with mem := [(0x0010, 0x42#8)] }
    (fun t => t.a == 0x42#8 && !t.flagZ && !t.flagN && t.pc == 0x0602#16) = true := by decide
theorem test_L9_lda_zero_page_x_wraps : runs [0xB5#8, 0xFF#8] { base with x := 0x02#8, mem := [(0x0001, 0x11#8), (0x0101, 0x22#8)] }
    (fun t => t.a == 0x11#8) = true := by decide
theorem test_L10_lda_absolute : runs [0xAD#8, 0x34#8, 0x12#8] { base with mem := [(0x1234, 0x77#8)] }
    (fun t => t.a == 0x77#8 && t.pc == 0x0603#16) = true := by decide
theorem test_L12_lda_absolute_x_crosses_page : runs [0xBD#8, 0xF0#8, 0x12#8] { base with x := 0x20#8, mem := [(0x1310, 0x44#8)] }
    (fun t => t.a == 0x44#8) = true := by decide
theorem test_L14_lda_absolute_x_out_of_range : runs [0xBD#8, 0x80#8, 0xFF#8] { base with x := 0xFF#8 }
    (fun t => outOfRange base 0x1007F t) = true := by decide
theorem test_L16_lda_absolute_y_last_byte : runs [0xB9#8, 0xFF#8, 0xFF#8] { base with mem := [(0xFFFF, 0x5A#8)] }
    (fun t => t.a == 0x5A#8 && t.pc == 0x0603#16) = true := by decide
theorem test_L15_lda_absolute_y_out_of_range : runs [0xB9#8, 0xFF#8, 0xFF#8] { base with y := 0x01#8 }
    (fun t => outOfRange base 0x10000 t) = true := by decide
theorem test_S5_lda_indexed_indirect : runs [0xA1#8, 0x00#8] { base with x := 0x01#8, mem := [(0x0001, 0x05#8), (0x0002, 0x06#8), (0x0605, 0x05#8)] }
    (fun t => t.a == 0x05#8 && !t.flagZ && !t.flagN && t.pc == 0x0602#16) = true := by decide
theorem test_I4_lda_indexed_indirect_pointer_leaves_page : runs [0xA1#8, 0xFF#8] { base with mem := [(0x0000, 0x99#8), (0x00FF, 0x34#8), (0x0100, 0x12#8), (0x1234, 0xAB#8), (0x9934, 0xCD#8)] }
    (fun t => t.a == 0xAB#8 && t.flagN) = true := by decide
theorem test_S6_lda_indirect_indexed : runs [0xB1#8, 0x01#8] { base with y := 0x01#8, mem := [(0x0001, 0x03#8), (0x0002, 0x07#8), (0x0704, 0x05#8)] }
    (fun t => t.a == 0x05#8) = true := by decide
theorem test_I6_lda_indirect_indexed_out_of_range : runs [0xB1#8, 0xFF#8] { base with y := 0x10#8, mem := [(0x00FF, 0xF8#8), (0x0100, 0xFF#8)] }
    (fun t => outOfRange base 0x10008 t) = true := by decide
theorem test_L17_ldx_immediate : runs [0xA2#8, 0x00#8] base
    (fun t => t.x == 0x00#8 && t.flagZ && !t.flagN) = true := by decide
theorem test_L23_ldx_zero_page_ignores_x_and_y : runs [0xA6#8, 0x10#8] { base with x := 0x10#8, y := 0x10#8, mem := [(0x0020, 0xC3#8)] }
    (fun t => t.x == 0x00#8 && t.flagZ) = true := by decide
theorem test_L18_ldx_zero_page_y_wraps : runs [0xB6#8, 0xF0#8] { base with y := 0x20#8, mem := [(0x0010, 0x81#8)] }
    (fun t => t.x == 0x81#8 && t.flagN) = true := by decide
theorem test_L10_ldx_absolute : runs [0xAE#8, 0x34#8, 0x12#8] { base with mem := [(0x1234, 0x77#8)] }
    (fun t => t.x == 0x77#8 && t.a == 0x00#8) = true := by decide
theorem test_L19_ldx_absolute_y : runs [0xBE#8, 0x00#8, 0x20#8] { base with y := 0x03#8, mem := [(0x2003, 0x07#8)] }
    (fun t => t.x == 0x07#8 && t.pc == 0x0603#16) = true := by decide
theorem test_L20_ldy_immediate : runs [0xA0#8, 0xFF#8] base
    (fun t => t.y == 0xFF#8 && !t.flagZ && t.flagN) = true := by decide
theorem test_L7_ldy_zero_page : runs [0xA4#8, 0x10#8] { base with mem := [(0x0010, 0x42#8)] }
    (fun t => t.y == 0x42#8 && t.a == 0x00#8) = true := by decide
theorem test_L21_ldy_zero_page_x : runs [0xB4#8, 0x20#8] { base with x := 0x04#8, y := 0x09#8 }
    (fun t => t.y == 0x00#8 && t.flagZ) = true := by decide
theorem test_L10_ldy_absolute : runs [0xAC#8, 0x34#8, 0x12#8] { base with mem := [(0x1234, 0x77#8)] }
    (fun t => t.y == 0x77#8 && t.pc == 0x0603#16) = true := by decide
theorem test_L22_ldy_absolute_x : runs [0xBC#8, 0x00#8, 0x30#8] { base with x := 0x01#8, mem := [(0x3001, 0x10#8)] }
    (fun t => t.y == 0x10#8) = true := by decide
theorem test_T2_sta_zero_page_writes_no_flag : runs [0x85#8, 0x10#8] { base with mem := [(0x0010, 0x77#8)] }
    (fun t => t.mem.read 0x10 == 0x00#8 && !t.flagZ && t.pc == 0x0602#16) = true := by decide
theorem test_T3_sta_zero_page_x_wraps : runs [0x95#8, 0xFF#8] { base with a := 0x11#8, x := 0x02#8 }
    (fun t => t.mem.read 0x01 == 0x11#8 && t.mem.read 0x101 == 0x00#8) = true := by decide
theorem test_T4_sta_absolute : runs [0x8D#8, 0x34#8, 0x12#8] { base with a := 0x22#8 }
    (fun t => t.mem.read 0x1234 == 0x22#8 && t.pc == 0x0603#16) = true := by decide
theorem test_T5_sta_absolute_x : runs [0x9D#8, 0xFF#8, 0x12#8] { base with a := 0x33#8, x := 0x01#8 }
    (fun t => t.mem.read 0x1300 == 0x33#8) = true := by decide
theorem test_T6_sta_absolute_y_out_of_range : runs [0x99#8, 0x01#8, 0xFF#8] { base with a := 0x44#8, y := 0xFF#8 }
    (fun t => outOfRange { base with a := 0x44#8 } 0x10000 t && t.mem.read 0x00 == 0x00#8) = true := by decide
theorem test_T7_sta_indexed_indirect : runs [0x81#8, 0x20#8] { base with a := 0x55#8, x := 0x04#8, mem := [(0x0025, 0x30#8)] }
    (fun t => t.mem.read 0x3000 == 0x55#8) = true := by decide
theorem test_T8_sta_indirect_indexed : runs [0x91#8, 0x40#8] { base with a := 0x66#8, y := 0x10#8, mem := [(0x0040, 0xF0#8), (0x0041, 0x2F#8)] }
    (fun t => t.mem.read 0x3000 == 0x66#8) = true := by decide
theorem test_G2_sec : runs [0x38#8] { base with flagC := true }
    (fun t => t.flagC && t.pc == 0x0601#16) = true := by decide
theorem test_G11_sec_at_the_top : runs [0x38#8] { base with pc := 0xFFFF#16 }
    (fun t => t.flagC && t.pc == 0x0000#16) = true := by decide
theorem test_G3_clc : runs [0x18#8] { base with flagC := true, flagI := true }
    (fun t => !t.flagC && t.flagI) = true := by decide
theorem test_S3_sei : runs [0x78#8] base
    (fun t => t.flagI && !t.flagC && !t.flagZ && !t.flagD && !t.flagB && !t.flagV && !t.flagN) = true := by decide
theorem test_S3_cli : runs [0x58#8] { base with flagI := true, flagD := true, flagV := true }
    (fun t => !t.flagI && t.flagD && t.flagV) = true := by decide
theorem test_G7_clv : runs [0xB8#8] { base with flagV := true, flagC := true }
    (fun t => !t.flagV && t.flagC) = true := by decide
theorem test_G9_sed : runs [0xF8#8] base
    (fun t => t.flagD && !t.flagI) = true := by decide
theorem test_G10_cld : runs [0xD8#8] { base with flagD := true, flagI := true }
    (fun t => !t.flagD && t.flagI) = true := by decide
theorem test_C2_cmp_immediate_below : runs [0xC9#8, 0x80#8] { base with a := 0x7F#8, flagZ := true, flagC := true }
    (fun t => !t.flagZ && !t.flagC && t.a == 0x7F#8) = true := by decide
theorem test_C8_cmp_immediate_above_keeps_n : runs [0xC9#8, 0x01#8] { base with a := 0x05#8, flagN := true }
    (fun t => !t.flagZ && t.flagC && t.flagN) = true := by decide
theorem test_C10_cmp_zero_page_equal : runs [0xC5#8, 0x10#8] { base with a := 0x42#8, mem := [(0x0010, 0x42#8)] }
    (fun t => t.flagZ && t.a == 0x42#8 && t.pc == 0x0602#16) = true := by decide
theorem test_C11_cmp_zero_page_x : runs [0xD5#8, 0x10#8] { base with a := 0x42#8, x := 0x01#8, mem := [(0x0011, 0x41#8)] }
    (fun t => !t.flagZ && t.flagC) = true := by decide
theorem test_C12_cmp_absolute : runs [0xCD#8, 0x00#8, 0x20#8] { base with a := 0x10#8, flagC := true, mem := [(0x2000, 0x11#8)] }
    (fun t => !t.flagZ && !t.flagC && t.pc == 0x0603#16) = true := by decide
theorem test_C13_cmp_absolute_x_out_of_range : runs [0xDD#8, 0x01#8, 0xFF#8] { base with x := 0xFF#8, flagC := true }
    (fun t => outOfRange { base with flagC := true } 0x10000 t) = true := by decide
theorem test_C3_cmp_absolute_y : runs [0xD9#8, 0x00#8, 0x20#8] { base with a := 0x80#8, y := 0x05#8, mem := [(0x2005, 0x7F#8)] }
    (fun t => !t.flagZ && t.flagC) = true := by decide
theorem test_I3_cmp_indexed_indirect : runs [0xC1#8, 0xF5#8] { base with a := 0xEF#8, x := 0x10#8, mem := [(0x0006, 0x40#8), (0x4000, 0xEE#8)] }
    (fun t => !t.flagZ && t.flagC && t.a == 0xEF#8) = true := by decide
theorem test_C14_cmp_indirect_indexed : runs [0xD1#8, 0x40#8] { base with a := 0x07#8, y := 0x01#8, mem := [(0x0041, 0x50#8), (0x5001, 0x07#8)] }
    (fun t => t.flagZ) = true := by decide
theorem test_C15_cpx_immediate : runs [0xE0#8, 0x05#8] { base with x := 0x10#8 }
    (fun t => !t.flagZ && t.flagC && t.x == 0x10#8) = true := by decide
theorem test_C17_cpx_zero_page : runs [0xE4#8, 0x30#8] { base with a := 0xFF#8, x := 0x05#8, flagC := true, mem := [(0x0030, 0x06#8)] }
    (fun t => !t.flagZ && !t.flagC) = true := by decide
theorem test_C18_cpx_absolute : runs [0xEC#8, 0x00#8, 0x10#8] { base with x := 0xFF#8, mem := [(0x1000, 0xFE#8)] }
    (fun t => !t.flagZ && t.flagC && t.pc == 0x0603#16) = true := by decide
theorem test_C19_cpy_immediate : runs [0xC0#8, 0x10#8] { base with y := 0x05#8, flagC := true }
    (fun t => !t.flagZ && !t.flagC) = true := by decide
theorem test_C20_cpy_zero_page : runs [0xC4#8, 0x30#8] { base with y := 0x80#8, mem := [(0x0030, 0x80#8)] }
    (fun t => t.flagZ && t.y == 0x80#8) = true := by decide
theorem test_C21_cpy_absolute : runs [0xCC#8, 0x00#8, 0x10#8] { base with y := 0x01#8 }
    (fun t => !t.flagZ && t.flagC) = true := by decide
theorem test_H2_asl_zero_page : runs [0x06#8, 0x20#8] { base with mem := [(0x0020, 0x80#8)] }
    (fun t => t.mem.read 0x20 == 0x00#8 && t.flagC && t.flagZ && !t.flagN) = true := by decide
theorem test_H5_asl_zero_page_ignores_old_carry : runs [0x06#8, 0x20#8] { base with flagC := true, mem := [(0x0020, 0x81#8)] }
    (fun t => t.mem.read 0x20 == 0x02#8 && t.flagC && !t.flagZ && !t.flagN) = true := by decide
theorem test_H7_asl_zero_page_x : runs [0x16#8, 0x20#8] { base with x := 0x03#8, mem := [(0x0023, 0x55#8)] }
    (fun t => t.mem.read 0x23 == 0xAA#8 && !t.flagC && t.flagN) = true := by decide
theorem test_H8_asl_absolute : runs [0x0E#8, 0x00#8, 0x30#8] { base with a := 0x77#8, mem := [(0x3000, 0xC0#8)] }
    (fun t => t.mem.read 0x3000 == 0x80#8 && t.flagC && t.flagN && t.a == 0x77#8) = true := by decide
theorem test_H9_asl_absolute_x : runs [0x1E#8, 0x00#8, 0x30#8] { base with x := 0x10#8, mem := [(0x3010, 0x01#8)] }
    (fun t => t.mem.read 0x3010 == 0x02#8 && !t.flagC && !t.flagZ && !t.flagN) = true := by decide
theorem test_H10_asl_absolute_x_out_of_range : runs [0x1E#8, 0xFF#8, 0xFF#8] { base with x := 0x01#8 }
    (fun t => outOfRange base 0x10000 t && t.mem.read 0x00 == 0x00#8) = true := by decide
theorem test_H13_asl_a : runs [0x0A#8] { base with a := 0xFF#8 }
    (fun t => t.a == 0xFE#8 && t.flagC && t.flagN && !t.flagZ) = true := by decide
theorem test_H14_asl_a_ignores_old_carry : runs [0x0A#8] { base with flagC := true }
    (fun t => t.a == 0x00#8 && !t.flagC && t.flagZ && t.pc == 0x0601#16) = true := by decide
theorem test_S7_bcc_taken : runs [0x90#8, 0xF9#8] base
    (fun t => t.pc == 0x05FB#16) = true := by decide
theorem test_B20_bcc_wraps_at_the_top : runs [0x90#8, 0x7F#8] { base with pc := 0xFFF0#16 }
    (fun t => t.pc == 0x0071#16) = true := by decide
theorem test_B3_bcs_taken : runs [0xB0#8, 0x02#8] { base with flagC := true }
    (fun t => t.pc == 0x0604#16 && t.flagC) = true := by decide
theorem test_B4_bcs_not_taken : runs [0xB0#8, 0x02#8] { base with flagZ := true, flagN := true, flagV := true }
    (fun t => t.pc == 0x0602#16) = true := by decide
theorem test_B5_bne_taken : runs [0xD0#8, 0x04#8] { base with pc := 0x0610#16 }
    (fun t => t.pc == 0x0616#16) = true := by decide
theorem test_B6_bne_not_taken : runs [0xD0#8, 0x04#8] { base with pc := 0x0610#16, flagZ := true }
    (fun t => t.pc == 0x0612#16) = true := by decide
theorem test_B7_beq_taken : runs [0xF0#8, 0x01#8] { base with pc := 0x061A#16, flagZ := true }
    (fun t => t.pc == 0x061D#16) = true := by decide
theorem test_B8_beq_not_taken : runs [0xF0#8, 0x01#8] { base with pc := 0x061A#16, flagC := true }
    (fun t => t.pc == 0x061C#16) = true := by decide
theorem test_B9_bmi_taken : runs [0x30#8, 0x10#8] { base with flagN := true }
    (fun t => t.pc == 0x0612#16) = true := by decide
theorem test_B10_bmi_not_taken : runs [0x30#8, 0x10#8] { base with flagV := true }
    (fun t => t.pc == 0x0602#16) = true := by decide
theorem test_B19_bpl_wraps_at_the_bottom : runs [0x10#8, 0x80#8] { base with pc := 0x0001#16 }
    (fun t => t.pc == 0xFF83#16) = true := by decide
theorem test_B12_bpl_not_taken : runs [0x10#8, 0x80#8] { base with flagN := true }
    (fun t => t.pc == 0x0602#16) = true := by decide
theorem test_B13_bvc_taken : runs [0x50#8, 0x7F#8] { base with flagC := true }
    (fun t => t.pc == 0x0681#16) = true := by decide
theorem test_B14_bvc_not_taken : runs [0x50#8, 0x7F#8] { base with flagV := true }
    (fun t => t.pc == 0x0602#16) = true := by decide
theorem test_B15_bvs_taken : runs [0x70#8, 0x05#8] { base with flagV := true }
    (fun t => t.pc == 0x0607#16) = true := by decide
theorem test_B16_bvs_not_taken : runs [0x70#8, 0x05#8] { base with flagN := true }
    (fun t => t.pc == 0x0602#16) = true := by decide

/-! ## Fetch and run control -/

theorem test_U1_unknown_opcode : runs [0x00#8] { base with a := 0x12#8, flagZ := true }
    (fun t => t.runState == .stopped && t.stopCause == .unknownOpcode && t.stopInfoOpcode == 0x00#8 &&
      t.stopInfoPc == 0x0600#16 && t.pc == 0x0600#16 && t.a == 0x12#8 && t.flagZ) = true := by decide
theorem test_U5_lda_across_the_top : runs [0xA9#8] { base with pc := 0xFFFF#16 }
    (fun t => outOfRange { base with pc := 0xFFFF#16 } 0x10000 t) = true := by decide
theorem test_U6_lda_absolute_across_the_top : runs [0xAD#8, 0x00#8] { base with pc := 0xFFFE#16 }
    (fun t => outOfRange { base with pc := 0xFFFE#16 } 0x10000 t) = true := by decide

/-- One step from `s`, and what is asked of the next state. -/
def steps (s : State) (ask : State → Bool) : Bool := runs [] s ask

theorem test_K1_stop_request_in_idle_rejected : steps { base with runState := .idle, turns := [.host .stopRequest] }
    (fun t => t.answer == some .rejected && t.runState == .idle) = true := by decide
theorem test_K2_second_start_rejected : steps { base with turns := [.host .start] }
    (fun t => t.answer == some .rejected && t.runState == .running) = true := by decide
theorem test_K5_start_in_stopped_rejected : steps { base with runState := .stopped, turns := [.host .start] }
    (fun t => t.answer == some .rejected && t.runState == .stopped) = true := by decide
theorem test_K7_reset_in_stopped : steps
    { base with runState := .stopped, stopCause := .stopRequested, a := 0x55#8, mem := [(0x10, 0x42#8)], turns := [.host .reset] }
    (fun t => t.runState == .idle && t.stopCause == .none && t.a == 0x00#8 && t.mem == [] && t.pc == 0x0600#16) = true := by
  decide
theorem test_S8_load_binaries : steps { base with runState := .idle, turns := [.host (.loadBinaries [0x38] 0x0600)] }
    (fun t => t.mem.read 0x0600 == 0x38#8 && t.pc == 0x0600#16 && t.runState == .idle) = true := by decide
theorem test_load_past_the_top_keeps_the_first_byte : steps
    { base with runState := .idle, turns := [.host (.loadBinaries [0x1AA, 0xBB] 0xFFFF)] }
    (fun t => t.mem.read 0xFFFF == 0xAA#8 && t.pc == 0x0600#16 && t.answer == some (.addressOutOfRange 0x10000)) = true := by
  decide
theorem test_S12_set_byte_masked : steps { base with runState := .idle, turns := [.host (.setByte 0x10 0x1FF)] }
    (fun t => t.mem.read 0x10 == 0xFF#8) = true := by decide
theorem test_R21_set_sp_masked : steps { base with runState := .idle, turns := [.host (.setReg .sp 0x1FF)] }
    (fun t => t.sp == 0xFF#8 && t.a == 0x00#8 && t.x == 0x00#8 && t.y == 0x00#8) = true := by decide
theorem test_R248_set_break : steps { base with runState := .stopped, turns := [.host (.setFlag .b true)] }
    (fun t => t.flagB && !t.flagV && !t.flagC && t.runState == .stopped) = true := by decide
theorem test_set_register_while_running_refused :
    step { base with turns := [.host (.setReg .a 1)] } = .refused .hostMoveOutsideContract := rfl
theorem test_word_placed_is_run : runs [] (base.withFetchWord 24 0x1234AD) (fun t => t.a == 0x00#8 && t.flagZ &&
    t.pc == 0x0603#16) = true := by decide

/-! ## Witnesses: states and operands that meet the hypotheses of each obligation -/

theorem witness_EncodeOfDecodeGivesTheBytesBack : decode [0xA9#8, 0x80#8, 0x00#8] = .ok (.ldaImmediate 0x80#8, [0x00#8]) := rfl

theorem witness_FirstByteAloneFixesModeAndLength :
    decode [0xAD#8, 0x34#8, 0x12#8] = .ok (.ldaAbsolute 0x1234#16, []) ∧
    decode [0xAD#8, 0x00#8, 0x00#8, 0xFF#8] = .ok (.ldaAbsolute 0x0000#16, [0xFF#8]) := ⟨rfl, rfl⟩

/-- The last address that exists, and the first one that does not. -/
theorem witness_MemReadGivesTheByteOrRaises : (65535 < 65536 ∧ memRead base 65535 = .ok 0x00#8) ∧
    65536 ≤ 65536 ∧ memRead base 65536 = .error (.addressOutOfRange 65536) := ⟨⟨by decide, rfl⟩, by decide, rfl⟩
theorem witness_MemWriteStoresOneByteOrRaises : base.mem.wf = true ∧ 65535 < 65536 ∧ 65536 ≤ 65536 ∧
    memWrite base 65536 0x01#8 = .error (.addressOutOfRange 65536) := ⟨rfl, by decide, by decide, rfl⟩

theorem witness_StoreIntoTheInstructionStreamIsFetchedNext :
    let s := { base with a := 0x38#8 }
    s.mem.wf = true ∧ s.runState = .running ∧ s.turns = [] ∧ 0x0603#16 = s.pc + 3#16 ∧ encode .sec = [s.a] := by decide

/-- A sum of 0xFFFF is an address, a sum of 0x10000 is not. -/
theorem witness_AbsoluteResolversDoNotWrap :
    ((word 0xFE#8 0xFF#8).toNat + 1 < 65536 ∧ effectiveAddress (.absoluteX (word 0xFE#8 0xFF#8)) { base with x := 1#8 } = .ok 0xFFFF) ∧
    ¬ (word 0xFF#8 0xFF#8).toNat + 1 < 65536 ∧
    readMemOperand (.absoluteX (word 0xFF#8 0xFF#8)) { base with x := 1#8 } = .error (.addressOutOfRange 0x10000) :=
  ⟨⟨by decide, rfl⟩, by decide, rfl⟩
theorem witness_IndirectResolversFollowThePointer :
    effectiveAddress (.indirectIndexed 0x40#8) { base with y := 1#8, mem := [(0x40, 0xFE#8), (0x41, 0xFF#8)] } = .ok 0xFFFF ∧
    effectiveAddress (.indirectIndexed 0x40#8) { base with y := 2#8, mem := [(0x40, 0xFE#8), (0x41, 0xFF#8)] } = .ok 0x10000 ∧
    effectiveAddress (.indirect 0xFFFE#16) base = .ok 0x0000 ∧
    effectiveAddress (.indirect 0xFFFF#16) base = .error (.addressOutOfRange 0x10000) ∧
    readMemOperand (.indirect 0xFFFE#16) { base with mem := [(0x1234, 0x5A#8), (0xFFFE, 0x34#8), (0xFFFF, 0x12#8)] } = .ok 0x5A#8 ∧
    readMemOperand (.indirect 0xFFFF#16) base = .error (.addressOutOfRange 0x10000) := ⟨rfl, rfl, rfl, rfl, rfl, rfl⟩
theorem witness_ResolversPresentNoAddressAbove100FE :
    effectiveAddress (.absoluteX 0xFFFF#16) { base with x := 0xFF#8 } = .ok 0x100FE := rfl

/-- The premises on the indexed modes of the results of LDA, LDX, LDY, STA, CMP and ASL, on both sides of the top of
memory. -/
theorem witness_indexed_modes_at_the_top : (0xFFFE#16).toNat + (0x01#8).toNat < 65536 ∧
    65536 ≤ (0xFFFF#16).toNat + (0x01#8).toNat := by decide
theorem witness_indirect_indexed_at_the_top :
    let s := { base with y := 0x01#8, mem := [(0x40, 0xFE#8), (0x41, 0xFF#8), (0x50, 0xFF#8), (0x51, 0xFF#8)] }
    (s.mem.read 0x41).toNat * 256 + (s.mem.read 0x40).toNat + s.y.toNat < 65536 ∧
    65536 ≤ (s.mem.read 0x51).toNat * 256 + (s.mem.read 0x50).toNat + s.y.toNat := by decide

/-- The premises of `OperandFetchRaises`, with one operand byte at 0x10000, and with two of which the second is. -/
theorem witness_OperandFetchRaises :
    (let s := { base with pc := 0xFFFF#16, mem := [(0xFFFF, 0xA9#8)] }
     s.coreTurn = some s ∧ s.runState = .running ∧ s.mem.read s.pc.toNat = 0xA9#8 ∧ 65536 < s.pc.toNat + 1 + 1) ∧
    (let s := { base with pc := 0xFFFE#16, mem := [(0xFFFE, 0xAD#8)] }
     s.coreTurn = some s ∧ s.runState = .running ∧ s.mem.read s.pc.toNat = 0xAD#8 ∧ 65536 < s.pc.toNat + 1 + 2) := by
  decide
theorem witness_StaStoresAccumulatorInEveryMode : base.mem.wf = true := rfl

theorem witness_CompareCarryIsTheUnsignedOrder :
    (0x7F#8).toNat < (0x80#8).toNat ∧ cmpCarry 0x80#8 0x7F#8 = true ∧ cmpCarry 0x7F#8 0x80#8 = false := by decide
theorem witness_ComparesWriteZeroAndCarryOnly :
    Instr.mnemonic (.cpxImmediate 0x05#8) = .cpx ∧ (∃ t, exec (.cpxImmediate 0x05#8) base = .next t) ∧
    ∃ t, exec (.cmpAbsoluteX 0xFFFF#16) { base with x := 1#8 } = .next t := ⟨rfl, ⟨_, rfl⟩, _, rfl⟩

/-- With no turn listed, and with the core's turn listed; the last byte of the instruction at 0xFFFF. -/
theorem witness_RunningStepRunsTheInstructionAtPc :
    (let s := { base with pc := 0xFFFE#16, mem := [(0xFFFE, 0xA9#8), (0xFFFF, 0x80#8)] }
     s.coreTurn = some s ∧ s.runState = .running ∧ s.HoldsAtPc (.ldaImmediate 0x80#8)) ∧
    ({ base with turns := [.core] } : State).coreTurn = some base := by
  refine ⟨⟨rfl, rfl, by decide, fun k hk => ?_⟩, rfl⟩
  have : k = 0 ∨ k = 1 := by
    have : k < 2 := hk
    omega
  rcases this with rfl | rfl <;> rfl
theorem witness_WordPlacedForTheFetchIsRunNext :
    let s := { base with pc := 0xFFFD#16 }
    s.mem.wf = true ∧ s.pc.toNat + 3 ≤ 65536 ∧ decodeTableWord 24 0x1234AD = some (.ldaAbsolute 0x1234#16) := by decide
theorem witness_UnknownOpcodeStopsTheCore :
    base.coreTurn = some base ∧ base.runState = .running ∧ lookupOpcode (base.mem.read base.pc.toNat) = none := by decide
/-- The last operand byte at 0xFFFF, and at 0x10000; and another state with the same bytes. -/
theorem witness_FetchReadsExactlyTheInstructionsBytes :
    (let s := { base with pc := 0xFFFD#16, mem := [(0xFFFD, 0xAD#8)] }
     lookupOpcode (s.mem.read s.pc.toNat) = some ⟨0xAD#8, .lda, .absolute⟩ ∧ s.pc.toNat + 1 + 2 ≤ 65536) ∧
    (let s := { base with pc := 0xFFFE#16, mem := [(0xFFFE, 0xAD#8)] }
     lookupOpcode (s.mem.read s.pc.toNat) = some ⟨0xAD#8, .lda, .absolute⟩ ∧ 65536 < s.pc.toNat + 1 + 2) ∧
    (let s := { base with mem := [(0x0600, 0x38#8)] }
     let t := { base with a := 0x01#8, mem := [(0x0600, 0x38#8), (0x0601, 0x38#8)] }
     t.pc = s.pc ∧ ∀ k, k ≤ Mode.implied.operandBytes → t.mem.read (s.pc.toNat + k) = s.mem.read (s.pc.toNat + k)) := by
  refine ⟨by decide, by decide, rfl, fun k hk => ?_⟩
  have : k = 0 := Nat.le_zero.1 hk
  subst this
  rfl
theorem witness_CompletedInstructionAdvancesPcByItsLength :
    (∃ t, exec .sec base = .next t ∧ t.runState = .running ∧ Instr.sec.mode ≠ .relative) ∧
    (∃ t, exec (.bcc 0xF9#8) base = .next t ∧ t.runState = .running ∧ Instr.operands (.bcc 0xF9#8) = [0xF9#8]) ∧
    ∃ t, exec (.bcs 0xF9#8) base = .next t ∧ t.runState = .running ∧ Instr.mode (.bcs 0xF9#8) = .relative :=
  ⟨⟨_, rfl, rfl, by decide⟩, ⟨_, rfl, rfl, rfl⟩, _, rfl, rfl, rfl⟩
theorem witness_AbortLeavesNothingButTheRunControlChanged :
    (∃ t, base.coreTurn = some base ∧ step base = .next t ∧ t.runState = .stopped ∧ t.stopCause = .unknownOpcode) ∧
    (let s := { base with pc := 0xFFFF#16, mem := [(0xFFFF, 0xA9#8)] }
     ∃ t, s.coreTurn = some s ∧ step s = .next t ∧ t.runState = .stopped ∧ t.stopCause = .addressOutOfRange) :=
  ⟨⟨_, rfl, rfl, rfl, rfl⟩, _, rfl, rfl, rfl, rfl⟩
/-- Both outcomes of the ABSOLUTE_X forms, at the boundary. -/
theorem witness_EveryInstructionCompletesOrRaisesOutOfRange :
    (∃ t, exec (.ldaAbsoluteX 0xFFFE#16) { base with x := 1#8 } = .next t ∧ t.runState = .running) ∧
    ∃ t, exec (.ldaAbsoluteX 0xFFFF#16) { base with x := 1#8 } = .next t ∧ t.runState = .stopped ∧ t.stopInfoAddress = 0x10000 :=
  ⟨⟨_, rfl, rfl⟩, _, rfl, rfl, rfl⟩
theorem witness_RegistersAreWrittenOnlyByTheirInstructions :
    ∃ t, exec (.ldxImmediate 0x05#8) base = .next t ∧ t.x ≠ base.x := ⟨_, rfl, by decide⟩
theorem witness_FlagsAreWrittenOnlyByTheirInstructions :
    (∃ t, exec .clv { base with flagV := true } = .next t ∧ t.flagV = false) ∧
    ∃ t, exec (.ldaImmediate 0x80#8) base = .next t ∧ t.flagN ≠ base.flagN := ⟨⟨_, rfl, rfl⟩, _, rfl, by decide⟩
theorem witness_MemoryIsWrittenOnlyAtTheStoredAddress :
    (∃ t, exec (.staZeroPage 0x10#8) base = .next t ∧ dataWrite (.staZeroPage 0x10#8) base = some 0x10) ∧
    ∃ t, exec (.ldaZeroPage 0x10#8) base = .next t ∧ dataWrite (.ldaZeroPage 0x10#8) base = none :=
  ⟨⟨_, rfl, rfl⟩, _, rfl, rfl⟩
theorem witness_StackPointerAndInertFlagsInfluenceNothing : ∃ t, exec .sei base = .next t ∧ t.flagI = true := ⟨_, rfl, rfl⟩
/-- Two memories that differ at the stored address and elsewhere, and agree on the pointer. -/
theorem witness_InstructionReadsOnlyItsDataAddresses :
    let s := { base with mem := [(0x40, 0x34#8), (0x41, 0x12#8)] }
    let m : Memory := [(0x40, 0x34#8), (0x41, 0x12#8), (0x1234, 0x99#8), (0x2000, 0x01#8)]
    s.mem.wf = true ∧ m.wf = true ∧ (∀ addr ∈ dataReads (.staIndirectIndexed 0x40#8) s, m.read addr = s.mem.read addr) ∧
      dataWrite (.staIndirectIndexed 0x40#8) s = some 0x1234 ∧ ∃ t, exec (.staIndirectIndexed 0x40#8) s = .next t :=
  ⟨rfl, rfl, by decide, rfl, _, rfl⟩

/-- The invariant of a state in Stopped with each cause, at the ends of the address range. -/
theorem witness_EveryStepKeepsTheInvariant :
    ({ base with runState := .stopped, stopCause := .addressOutOfRange, stopInfoAddress := 0x100FE } : State).Inv ∧
    ({ base with runState := .stopped, stopCause := .unknownOpcode, stopInfoOpcode := 0xEA#8 } : State).Inv ∧
    ∃ t, step base = .next t := by
  refine ⟨⟨rfl, by decide, by decide, fun h => ?_⟩, ⟨rfl, by decide, fun h => ?_, fun _ => rfl⟩, _, rfl⟩ <;> cases h
theorem witness_CoreMovesTheRunStateAsTheTableSays :
    (∀ r, ∃ u, ({ base with runState := r, turns := [.core] } : State).coreTurn = some u ∧ u.runState = r) ∧
    ∃ t, step { base with mem := [(0x0600, 0x38#8)] } = .next t ∧ t.runState = .running := ⟨fun _ => ⟨_, rfl, rfl⟩, _, rfl, rfl⟩
theorem witness_StoppingRunsAtMostOneMoreInstruction :
    let s := { base with runState := .stopping }
    s.coreTurn = some s ∧ s.runState = .stopping := by decide
theorem witness_StoppedIsFinalButForReset :
    let s := { base with runState := .stopped }
    (∃ t, step { s with turns := [.host (.setReg .a 1)] } = .next t ∧ t.a = 0x01#8) ∧ s.coreTurn = some s ∧
      ({ s with turns := [.host .start] } : State).hostTurn = some (.start, s) ∧
      ({ s with turns := [.host .reset] } : State).hostTurn = some (.reset, s) := ⟨⟨_, rfl, rfl⟩, rfl, rfl, rfl⟩
/-- In every run state, any move next and the state it is carried out in: the hypotheses of
StartMovesIdleToRunningOnly, StopRequestMovesRunningToStoppingOnly and ResetMoveGivesTheResetState, every clause. -/
theorem witness_host_moves (r : RunState) (m : HostMove) :
    ({ base with runState := r, turns := [.host m] } : State).hostTurn = some (m, { base with runState := r }) := rfl
theorem witness_RejectedRequestsChangeNothing :
    ({ base with turns := [.host .start] } : State).hostTurn = some (.start, base) ∧ base.runState ≠ .idle ∧
    ({ base with runState := .idle, turns := [.host .stopRequest] } : State).runState ≠ .running := by decide
/-- Loads that end at the last byte of memory, and one byte past it, and an empty one. -/
theorem witness_LoadBinariesWritesBytesAndSetsPc :
    let s := { base with runState := .idle }
    s.mem.wf = true ∧ 65535 + [(1 : Int)].length ≤ 65536 ∧ 65536 < 65535 + [(1 : Int), 2].length ∧
      ({ s with turns := [.host (.loadBinaries [1, 2] 65535)] } : State).hostTurn = some (.loadBinaries [1, 2] 65535, s) := by
  decide
/-- The load accepted in Idle and in Stopped, and reported out of range. -/
theorem witness_LoadAndExecuteLoadsThenStarts :
    let s := { base with runState := .idle }
    let load := fun (s : State) (a : Nat) => step { s with turns := [.host (.loadBinaries [0x38] a)] }
    (∃ w, load s 0x0600 = .next w ∧ w.answer = some .accepted ∧ w.runState = .idle) ∧
      (∃ w, load { base with runState := .stopped } 0x0600 = .next w ∧ w.answer = some .accepted ∧ w.runState = .stopped) ∧
      ∃ w, load s 65536 = .next w ∧ w.answer = some (.addressOutOfRange 65536) :=
  ⟨⟨_, rfl, rfl, rfl⟩, ⟨_, rfl, rfl, rfl⟩, _, rfl, rfl⟩
theorem witness_HostSetWritesOneFieldMasked :
    let s := { base with runState := .stopped }
    ({ s with turns := [.host (.setByte 65535 256)] } : State).hostTurn = some (.setByte 65535 256, s) ∧
      ({ s with turns := [.host (.setReg .sp 256)] } : State).hostTurn = some (.setReg .sp 256, s) ∧
      ({ s with turns := [.host (.setPc 65536)] } : State).hostTurn = some (.setPc 65536, s) ∧
      ({ s with turns := [.host (.setFlag .b true)] } : State).hostTurn = some (.setFlag .b true, s) ∧
      (s.runState = .idle ∨ s.runState = .stopped) ∧ 65535 < 65536 := by decide
theorem witness_HostGetIsCurrentAtRestAndAnyValueElse :
    ({ base with turns := [.host (.getByte 65535)] } : State).hostTurn = some (.getByte 65535, base) ∧ 65535 < 65536 := by
  decide
theorem witness_WaitEndsExactlyInStopped :
    ({ base with turns := [.host .waitStopped] } : State).hostTurn = some (.waitStopped, base) ∧ base.runState ≠ .stopped ∧
    ({ base with runState := .stopped } : State).runState = .stopped := by decide
theorem witness_OnlyHostWritesWhileRunningAreRefused :
    let s := { base with runState := .stopping, turns := [.host .reset] }
    s.runState = .stopping ∧ step s = .refused .hostMoveOutsideContract ∧ ∃ t, step { s with runState := .idle } = .next t :=
  ⟨rfl, rfl, _, rfl⟩

end Sys2Proof.Tests
end

/-! Family 00_scope.md: the results of the 8-bit path (R12) and of the 16-bit path (R13) as numbers. -/

namespace Sys2Proof.Machine

/-! ## The 8-bit path as numbers -/

theorem isZero_eq_decide (v : Byte) : isZero v = decide (v.toNat = 0) := by
  rw [Bool.eq_iff_iff, isZero_iff, decide_eq_true_iff]
  exact BitVec.toNat_inj.symm

theorem cmpEq_eq_decide (r m : Byte) : cmpEq r m = decide (r.toNat = m.toNat) := by
  rw [Bool.eq_iff_iff, decide_eq_true_iff, BitVec.toNat_inj]
  exact beq_iff_eq

/-- Settles O6. The outputs of SHL8 are PASS8's tests on the byte shifted. -/
theorem eightBitPathResults : Obligations.EightBitPathResults := by
  intro v r m a b
  refine ⟨⟨isZero_eq_decide v, bit7_eq_decide v⟩, ⟨shl8_toNat v, ?_, ?_⟩, ⟨cmpEq_eq_decide r m, rfl⟩, add8w_toNat a b⟩
  · rw [isZero_eq_decide, shl8_toNat]
  · rw [bit7_eq_decide, shl8_toNat]

/-! ## The 16-bit path as numbers -/

/-- PC takes any integer modulo 65536: the one place where an address sum wraps (00_scope.md R10). -/
theorem writePc_pc_toNat (s : State) (v : Int) : ((s.writePc v).pc.toNat : Int) = v % 65536 := by
  rw [State.writePc_pc, BitVec.toNat_ofInt]
  exact Int.toNat_of_nonneg (Int.emod_nonneg v (by decide))

/-- `NEXT`: the sum in the naturals, wrapped by the write to PC. -/
theorem advance_pc_toNat (s : State) (len : Nat) : (s.advance len).pc.toNat = (s.pc.toNat + len) % 65536 := by
  have h := writePc_pc_toNat s (s.pc.toNat + len : Nat)
  exact_mod_cast h

/-- Settles O7. WORD, IDX and REL are not reduced; only the write to PC wraps. -/
theorem sixteenBitPathResults : Obligations.SixteenBitPathResults := fun lo hi off _ _ pc len s =>
  ⟨word_toNat lo hi, rfl, rfl, writePc_pc_toNat s (rel pc off), advance_pc_toNat s len⟩

end Sys2Proof.Machine

/-! Family 10_state.md: a register write is masked to the register's width (R21), and the reset values (R45). -/

namespace Sys2Proof.Machine

/-! ## Writing a register -/

/-- A byte takes any integer modulo 256 (10_state.md R21, 20_memory.md R53). -/
theorem maskByte_toNat (v : Int) : ((maskByte v).toNat : Int) = v % 256 := by
  rw [maskByte, BitVec.toNat_ofInt]
  exact Int.toNat_of_nonneg (Int.emod_nonneg v (by decide))

@[simp] theorem State.reg_setReg_same (s : State) (r : Reg) (b : Byte) : (s.setReg r b).reg r = b := by
  cases r <;> rfl

/-- Settles O8. The byte stored is `maskByte v`; the word stored in PC is what `writePc` leaves there. -/
theorem registerWritesAreMasked : Obligations.RegisterWritesAreMasked := fun s v =>
  ⟨⟨maskByte v, maskByte_toNat v, rfl, rfl, rfl, rfl, fun r => s.reg_setReg_same r (maskByte v)⟩,
    (s.writePc v).pc, writePc_pc_toNat s v, rfl⟩

/-! ## The reset values -/

theorem State.reset_flag (f : Flag) : State.reset.flag f = false := by
  cases f <;> rfl

/-- Memory lists no byte after reset, so that every address reads as `MEM_INIT` (10_state.md R39). -/
theorem State.reset_mem_read (addr : Nat) : State.reset.mem.read addr = 0x00#8 :=
  Memory.read_eq_init_of_not_listed (m := State.reset.mem) (List.forall_mem_nil _)

/-- Settles O54. SP is compared with the open parameter, whose value no proof can see. -/
theorem resetStateIsTheSpecsTable : Obligations.ResetStateIsTheSpecsTable :=
  ⟨rfl, rfl, rfl, rfl, rfl, State.reset_flag, rfl, rfl, State.reset_mem_read⟩

end Sys2Proof.Machine

/-! Family 20_memory.md: what `MemRead` (R52) and `MemWrite` (R53) do on both sides of `MEM_SIZE`. -/

namespace Sys2Proof.Machine

/-- Settles O9. -/
theorem memReadGivesTheByteOrRaises : Obligations.MemReadGivesTheByteOrRaises := fun _ _ =>
  ⟨memRead_of_lt, memRead_of_ge⟩

/-- Settles O10. The state after a write below `MEM_SIZE` is the old one with `Memory.write` done to its memory, so
that each clause is a law of `Memory.write`. -/
theorem memWriteStoresOneByteOrRaises : Obligations.MemWriteStoresOneByteOrRaises := by
  intro s addr v hwf
  refine ⟨fun haddr => ?_, memWrite_of_ge⟩
  refine ⟨s.setMem (s.mem.write addr (maskByte v)), memWrite_of_lt haddr, ?_, ?_, rfl, ?_⟩
  · rw [State.setMem_mem, Memory.read_write_same hwf]
    exact maskByte_toNat v
  · exact fun _ hother => Memory.read_write_other hother
  · exact Memory.write_wf hwf haddr (maskByte v)

end Sys2Proof.Machine

/-! Family 30_encoding.md: what the first byte of an instruction fixes (R80, R82). -/

namespace Sys2Proof

theorem Mode.operandBytes_le_two (m : Mode) : m.operandBytes ≤ 2 := by
  cases m <;> decide

/-! ## What a decode that answers has read -/

/-- A row of the table gives an instruction of its own mnemonic and mode, whatever the operand bytes are, and hands the
later bytes on. -/
theorem Row.instr_ok {r : Row} (hr : r ∈ opcodeTable) {b1 b2 : Byte} {rest left : List Byte} {i : Instr}
    (h : r.instr b1 b2 rest = .ok (i, left)) : i.mnemonic = r.mnemonic ∧ i.mode = r.mode ∧ rest = left := by
  obtain ⟨j, hj, -, hmn, hmode⟩ := ofParts_of_mem hr b1 b2
  simp only [Row.instr, hj, Except.ok.injEq, Prod.mk.injEq] at h
  obtain ⟨rfl, hleft⟩ := h
  exact ⟨hmn, hmode, hleft⟩

/-- The bytes after the opcode are the operand bytes of the row's mode and the bytes left (30_encoding.md R83). -/
theorem decodeOperands_ok {r : Row} (hr : r ∈ opcodeTable) {rest left : List Byte} {i : Instr}
    (h : decodeOperands r rest = .ok (i, left)) :
    i.mnemonic = r.mnemonic ∧ i.mode = r.mode ∧ rest.length = r.mode.operandBytes + left.length := by
  unfold decodeOperands at h
  split at h
  case h_4 => cases h
  all_goals
    next hn =>
    obtain ⟨hmn, hmode, rfl⟩ := Row.instr_ok hr h
    refine ⟨hmn, hmode, ?_⟩
    simp only [List.length_cons, hn]
    omega

/-- A decode that answers has found the row of the first byte, and the mnemonic, the mode and the number of operand
bytes are that row's (30_encoding.md R80). -/
theorem decode_cons_ok {op : Byte} {rest left : List Byte} {i : Instr} (h : decode (op :: rest) = .ok (i, left)) :
    ∃ r, lookupOpcode op = some r ∧ i.mnemonic = r.mnemonic ∧ i.mode = r.mode ∧
      rest.length = r.mode.operandBytes + left.length := by
  cases hr : lookupOpcode op with
  | none => simp only [decode, hr, reduceCtorEq] at h
  | some r =>
    simp only [decode, hr] at h
    exact ⟨r, rfl, decodeOperands_ok (lookupOpcode_some hr).1 h⟩

/-- Settles O5. Both decodes look up the same byte and so find the same row; the number of bytes taken comes from the
first decode alone. -/
theorem firstByteAloneFixesModeAndLength : Obligations.FirstByteAloneFixesModeAndLength := by
  intro op rest rest' left left' i i' h h'
  obtain ⟨r, hr, hmn, hmode, htaken⟩ := decode_cons_ok h
  obtain ⟨r', hr', hmn', hmode', -⟩ := decode_cons_ok h'
  obtain rfl : r = r' := Option.some.inj (hr.symm.trans hr')
  have hsame : i.mode = i'.mode := hmode.trans hmode'.symm
  have hlen : i.length = 1 + i.mode.operandBytes := rfl
  have hle : i.mode.operandBytes ≤ 2 := i.mode.operandBytes_le_two
  refine ⟨hmn.trans hmn'.symm, hsame, congrArg Mode.length hsame, hlen, by omega, by omega, ?_⟩
  rw [List.length_cons, htaken, hlen, hmode]
  omega

end Sys2Proof

/-! Family 40_cycle_and_addressing.md: the address and the byte each resolver gives (R118 to R127), and the bytes the
fetch reads (R111). -/

namespace Sys2Proof

/-- The operand bytes of the instruction built from a mnemonic and a mode are the ones given, as many as the mode has,
in the order given (30_encoding.md R81, R84). -/
theorem ofParts_operands {mn : Mnemonic} {mode : Mode} {b1 b2 : Byte} {i : Instr}
    (h : Instr.ofParts mn mode b1 b2 = some i) : i.operands = [b1, b2].take mode.operandBytes := by
  unfold Instr.ofParts at h
  split at h <;> cases h <;> simp [Instr.operands, Mode.operandBytes]

/-- The mode alone fixes the length (30_encoding.md R82). -/
theorem Instr.length_of_mode {i : Instr} {mode : Mode} (h : i.mode = mode) : i.length = 1 + mode.operandBytes := by
  rw [Instr.length, h, Mode.length]

/-- Two bytes are an address that lies in memory. -/
theorem two_bytes_lt (lo hi : Byte) : hi.toNat * 256 + lo.toNat < 65536 := by
  omega

namespace Machine

variable {s t : State}

/-! ## The address and the byte of a resolver -/

/-- The two answers of a resolver whose address lies in memory. -/
theorem resolver_inside {m : MemOperand} {ea : Nat} (h : effectiveAddress m s = .ok ea) (hea : ea < 65536) :
    effectiveAddress m s = .ok ea ∧ readMemOperand m s = .ok (s.mem.read ea) :=
  ⟨h, readMemOperand_of_lt h hea⟩

/-- The two answers of a resolver that gives any address: only the access can raise (20_memory.md R54). -/
theorem resolver_unreduced {m : MemOperand} {ea : Nat} (h : effectiveAddress m s = .ok ea) :
    effectiveAddress m s = .ok ea ∧
      readMemOperand m s = if ea < 65536 then .ok (s.mem.read ea) else .error (.addressOutOfRange ea) := by
  refine ⟨h, ?_⟩
  split
  · next hea => exact readMemOperand_of_lt h hea
  · next hea => exact readMemOperand_of_ge h (Nat.not_lt.1 hea)

/-- INDIRECT of a pointer that lies across the top of memory (40_cycle_and_addressing.md R127). -/
theorem effectiveAddress_indirect_of_ge {w : Addr} (h : 65536 ≤ w.toNat + 1) :
    effectiveAddress (.indirect w) s = .error (.addressOutOfRange 65536) := by
  have hw : w = 0xFFFF#16 := BitVec.eq_of_toNat_eq (by simp; omega)
  rw [hw, effectiveAddress_indirect_top]

/-- Settles O12. A sum modulo 256 lies in memory, so that no access raises. -/
theorem zeroPageResolversStayInPageZero : Obligations.ZeroPageResolversStayInPageZero := fun zp _ =>
  ⟨resolver_inside (effectiveAddress_zeroPage zp) (by omega),
    resolver_inside (effectiveAddress_zeroPageX zp) (by omega),
    resolver_inside (effectiveAddress_zeroPageY zp) (by omega)⟩

/-- Settles O13. The operand alone lies in memory; a sum with X or Y need not. -/
theorem absoluteResolversDoNotWrap : Obligations.AbsoluteResolversDoNotWrap := by
  intro b1 b2 s
  simp only [← word_toNat]
  exact ⟨resolver_inside (effectiveAddress_absolute _) (word b1 b2).isLt,
    resolver_unreduced (effectiveAddress_absoluteX _), resolver_unreduced (effectiveAddress_absoluteY _)⟩

/-- Settles O14. A pointer is two bytes and lies in memory; the sum of it and Y need not; INDIRECT raises where the
address of the pointer's high byte does not lie in memory. -/
theorem indirectResolversFollowThePointer : Obligations.IndirectResolversFollowThePointer := by
  intro zp w s
  refine ⟨resolver_inside (effectiveAddress_indexedIndirect zp) (two_bytes_lt _ _),
    resolver_unreduced (effectiveAddress_indirectIndexed zp), ?_⟩
  by_cases h : w.toNat + 1 < 65536
  · simp only [if_pos h]
    exact resolver_inside (effectiveAddress_indirect_of_lt h) (two_bytes_lt _ _)
  · have hraise := effectiveAddress_indirect_of_ge (s := s) (Nat.not_lt.1 h)
    simp only [if_neg h, readMemOperand, hraise, and_self]

/-! ## The bytes the fetch reads -/

/-- An instruction stands at PC of any state with the same PC and the same bytes of that instruction. -/
theorem State.HoldsAtPc.congr {i : Instr} (h : s.HoldsAtPc i) (hpc : t.pc = s.pc)
    (hmem : ∀ k, k < i.length → t.mem.read (s.pc.toNat + k) = s.mem.read (s.pc.toNat + k)) : t.HoldsAtPc i := by
  obtain ⟨hlen, hbytes⟩ := h
  refine ⟨by rwa [hpc], fun k hk => ?_⟩
  rw [hpc, hmem k hk]
  exact hbytes k hk

/-- Where the byte at PC has a row and the bytes the row asks for lie in memory, an instruction of that row stands at
PC. -/
theorem holdsAtPc_of_row {r : Row} (hr : lookupOpcode (s.mem.read s.pc.toNat) = some r)
    (hlen : s.pc.toNat + r.mode.length ≤ 65536) : ∃ i, s.HoldsAtPc i ∧ i.mode = r.mode := by
  obtain ⟨hmem, hop⟩ := lookupOpcode_some hr
  obtain ⟨i, hi, hiop, -, himode⟩ := ofParts_of_mem hmem (s.mem.read (s.pc.toNat + 1)) (s.mem.read (s.pc.toNat + 2))
  have hilen : i.length = 1 + r.mode.operandBytes := Instr.length_of_mode himode
  refine ⟨i, ⟨by rwa [hilen], fun k hk => ?_⟩, himode⟩
  rw [encode, hiop, hop, ofParts_operands hi]
  have hle := r.mode.operandBytes_le_two
  match k with
  | 0 => rfl
  | 1 => rw [List.getElem?_cons_succ, List.getElem?_take_of_lt (by omega)]; rfl
  | 2 => rw [List.getElem?_cons_succ, List.getElem?_take_of_lt (by omega)]; rfl
  | k + 3 => omega

/-- Where the bytes of the row at PC do not all lie in memory, the fetch raises. -/
theorem fetch_of_row_outside {r : Row} (hr : lookupOpcode (s.mem.read s.pc.toNat) = some r)
    (hlen : 65536 < s.pc.toNat + r.mode.length) : fetch s = .error (.addressOutOfRange 0x10000) := by
  rw [fetch_of_row hr]
  rcases fetchOperands_cases (lookupOpcode_some hr).1 s with ⟨hle, -⟩ | ⟨-, he⟩
  · omega
  · exact he

/-- The fetch depends on PC and on the bytes of the instruction alone: on both sides of the top of memory the two states
give one answer. -/
theorem fetch_congr {r : Row} (hr : lookupOpcode (s.mem.read s.pc.toNat) = some r) (hpc : t.pc = s.pc)
    (hmem : ∀ k, k ≤ r.mode.operandBytes → t.mem.read (s.pc.toNat + k) = s.mem.read (s.pc.toNat + k)) :
    fetch t = fetch s := by
  by_cases hlen : s.pc.toNat + r.mode.length ≤ 65536
  · obtain ⟨i, hi, himode⟩ := holdsAtPc_of_row hr hlen
    have hilen := Instr.length_of_mode himode
    rw [fetch_of_holdsAtPc hi, fetch_of_holdsAtPc (hi.congr hpc fun k hk => hmem k (by omega))]
  · have hrt : lookupOpcode (t.mem.read t.pc.toNat) = some r := by
      rw [hpc, ← hr]
      exact congrArg lookupOpcode (hmem 0 (Nat.zero_le _))
    rw [fetch_of_row_outside hr (Nat.not_le.1 hlen), fetch_of_row_outside hrt (by rw [hpc]; exact Nat.not_le.1 hlen)]

/-- Settles O32. Inside memory the fetch finds the instruction that stands at PC, whose bytes are those of memory. -/
theorem fetchReadsExactlyTheInstructionsBytes : Obligations.FetchReadsExactlyTheInstructionsBytes := by
  intro s r hr
  refine ⟨memRead_of_lt s.pc.isLt, fun hlen => ?_, fun hlen => fetch_of_row_outside hr (by rw [Mode.length]; omega),
    fun t hpc hmem => fetch_congr hr hpc hmem⟩
  obtain ⟨i, hi, himode⟩ := holdsAtPc_of_row hr (by rw [Mode.length]; omega)
  obtain ⟨hop, hone, htwo⟩ := holdsAtPc_bytes hi
  refine ⟨i, fetch_of_holdsAtPc hi, hop.symm, himode, fun b1 hb => (hone b1 hb).symm, fun b1 b2 hb => ?_⟩
  obtain ⟨hb1, hb2⟩ := htwo b1 b2 hb
  exact ⟨hb1.symm, hb2.symm⟩

end Machine

end Sys2Proof

/-! Family 41_load_store.md: the loads (R140 to R142) and STA (R143). A load in any mode is one operation on its
operand's byte, and a store one operation on its effective address; an obligation takes that operation mode by mode, at
the address the mode's resolver gives. -/

namespace Sys2Proof.Machine

variable {s : State} {m : MemOperand} {ea : Nat}

/-! ## Where an instruction raises -/

theorem raisesOutOfRange_abort (s : State) (n : Nat) :
    RaisesOutOfRange s (finish s (.error (.addressOutOfRange n))) n :=
  ⟨_, rfl⟩

/-- Every opcode raises in its fetch where the operand bytes of its mode lie across the top of memory
(40_cycle_and_addressing.md R111). -/
theorem operandFetchRaises_opcode (i : Instr) : OperandFetchRaises i.opcode i.mode.operandBytes := by
  intro s u hturn hrun hop hlen
  obtain ⟨hrow, -, -⟩ := Laws.TableRow.all i
  rw [← hop] at hrow
  have hover : 65536 < u.pc.toNat + i.mode.length := by rw [Mode.length]; omega
  have hfetch := fetch_of_row_outside hrow hover
  rw [step_of_coreTurn hturn, coreStep_running hrun, runInstruction, hfetch]
  exact raisesOutOfRange_abort u 0x10000

/-! ## The whole state after a write -/

theorem State.advance_eq (s : State) (len : Nat) : s.advance len = { s with pc := s.pc + BitVec.ofNat 16 len } :=
  congrArg (fun w => { s with pc := w }) (s.advance_pc len)

theorem State.setZN_eq (s : State) (v : Byte) :
    s.setZN v = { s with flagZ := decide (v = 0#8), flagN := decide (128 ≤ v.toNat) } := by
  rw [← bit7_eq_decide]
  rfl

theorem byteStored_write (old : Memory) (hea : ea < 65536) (v : Byte) : ByteStored old (old.write ea v) ea v :=
  ⟨fun hwf => ⟨Memory.read_write_same hwf ea v, Memory.write_wf hwf hea v⟩,
    fun _ hother => Memory.read_write_other hother⟩

/-! ## A load, in any mode -/

/-- The state a load of the byte `v` into `r` leaves, for an instruction of `len` bytes (41_load_store.md R140 to
R142): `finish_loadReg` ties it to `loadReg`. -/
def State.loaded (s : State) (r : Reg) (v : Byte) (len : Nat) : State :=
  { s.setReg r v with
    flagZ := decide (v = 0#8), flagN := decide (128 ≤ v.toNat), pc := s.pc + BitVec.ofNat 16 len }

variable {r : Reg} {len : Nat}

theorem readOperand_immediate (v : Byte) : readOperand (.immediate v) s = .ok v := rfl

theorem finish_loadReg {o : Operand} {v : Byte} (h : readOperand o s = .ok v) :
    finish s (loadReg r o len s) = .next (s.loaded r v len) := by
  have hpc : (s.setReg r v).pc = s.pc := by cases r <;> rfl
  rw [loadReg, h, finish_ok, State.advance_eq, State.setZN_eq, State.loaded, hpc]

theorem finish_loadReg_inside (h : effectiveAddress m s = .ok ea) (hea : ea < 65536) :
    finish s (loadReg r (.memory m) len s) = .next (s.loaded r (s.mem.read ea) len) :=
  finish_loadReg (readMemOperand_of_lt h hea)

/-- A load at any address, on both sides of the top of memory. -/
theorem finish_loadReg_unreduced (h : effectiveAddress m s = .ok ea) :
    (ea < 65536 → finish s (loadReg r (.memory m) len s) = .next (s.loaded r (s.mem.read ea) len)) ∧
      (65536 ≤ ea → RaisesOutOfRange s (finish s (loadReg r (.memory m) len s)) ea) := by
  refine ⟨finish_loadReg_inside h, fun hea => ?_⟩
  rw [loadReg, readOperand, readMemOperand_of_ge h hea]
  exact raisesOutOfRange_abort s ea

/-- Settles O16. -/
theorem ldaLoadsAccumulatorInEveryMode : Obligations.LdaLoadsAccumulatorInEveryMode := by
  refine ⟨fun _ _ => ⟨rfl, rfl, rfl, rfl, rfl, rfl, rfl, rfl⟩,
    ⟨operandFetchRaises_opcode (.ldaImmediate 0#8), operandFetchRaises_opcode (.ldaZeroPage 0#8),
      operandFetchRaises_opcode (.ldaZeroPageX 0#8), operandFetchRaises_opcode (.ldaAbsolute 0#16),
      operandFetchRaises_opcode (.ldaAbsoluteX 0#16), operandFetchRaises_opcode (.ldaAbsoluteY 0#16),
      operandFetchRaises_opcode (.ldaIndexedIndirect 0#8), operandFetchRaises_opcode (.ldaIndirectIndexed 0#8)⟩,
    fun s => ⟨?_, ?_, ?_, ?_, ?_, ?_, ?_, ?_⟩⟩
  · exact fun v => finish_loadReg (readOperand_immediate v)
  · exact fun zp => finish_loadReg_inside (effectiveAddress_zeroPage zp) (by omega)
  · exact fun zp => finish_loadReg_inside (effectiveAddress_zeroPageX zp) (by omega)
  · exact fun w => finish_loadReg_inside (effectiveAddress_absolute w) w.isLt
  · exact fun w => finish_loadReg_unreduced (effectiveAddress_absoluteX w)
  · exact fun w => finish_loadReg_unreduced (effectiveAddress_absoluteY w)
  · exact fun zp => finish_loadReg_inside (effectiveAddress_indexedIndirect zp) (two_bytes_lt _ _)
  · exact fun zp => finish_loadReg_unreduced (effectiveAddress_indirectIndexed zp)

/-- Settles O17. The index is the old Y. -/
theorem ldxLoadsXInEveryMode : Obligations.LdxLoadsXInEveryMode := by
  refine ⟨fun _ _ => ⟨rfl, rfl, rfl, rfl, rfl⟩,
    ⟨operandFetchRaises_opcode (.ldxImmediate 0#8), operandFetchRaises_opcode (.ldxZeroPage 0#8),
      operandFetchRaises_opcode (.ldxZeroPageY 0#8), operandFetchRaises_opcode (.ldxAbsolute 0#16),
      operandFetchRaises_opcode (.ldxAbsoluteY 0#16)⟩,
    fun s => ⟨?_, ?_, ?_, ?_, ?_⟩⟩
  · exact fun v => finish_loadReg (readOperand_immediate v)
  · exact fun zp => finish_loadReg_inside (effectiveAddress_zeroPage zp) (by omega)
  · exact fun zp => finish_loadReg_inside (effectiveAddress_zeroPageY zp) (by omega)
  · exact fun w => finish_loadReg_inside (effectiveAddress_absolute w) w.isLt
  · exact fun w => finish_loadReg_unreduced (effectiveAddress_absoluteY w)

/-- Settles O18. The index is the old X. -/
theorem ldyLoadsYInEveryMode : Obligations.LdyLoadsYInEveryMode := by
  refine ⟨fun _ _ => ⟨rfl, rfl, rfl, rfl, rfl⟩,
    ⟨operandFetchRaises_opcode (.ldyImmediate 0#8), operandFetchRaises_opcode (.ldyZeroPage 0#8),
      operandFetchRaises_opcode (.ldyZeroPageX 0#8), operandFetchRaises_opcode (.ldyAbsolute 0#16),
      operandFetchRaises_opcode (.ldyAbsoluteX 0#16)⟩,
    fun s => ⟨?_, ?_, ?_, ?_, ?_⟩⟩
  · exact fun v => finish_loadReg (readOperand_immediate v)
  · exact fun zp => finish_loadReg_inside (effectiveAddress_zeroPage zp) (by omega)
  · exact fun zp => finish_loadReg_inside (effectiveAddress_zeroPageX zp) (by omega)
  · exact fun w => finish_loadReg_inside (effectiveAddress_absolute w) w.isLt
  · exact fun w => finish_loadReg_unreduced (effectiveAddress_absoluteX w)

/-! ## STA, in any mode -/

theorem finish_storeA_inside (h : effectiveAddress m s = .ok ea) (hea : ea < 65536) :
    ∃ new, finish s (storeA m len s) = .next { s with mem := new, pc := s.pc + BitVec.ofNat 16 len } ∧
      ByteStored s.mem new ea s.a := by
  refine ⟨s.mem.write ea s.a, ?_, byteStored_write s.mem hea s.a⟩
  rw [storeA, writeMemOperand_of_lt h hea, finish_ok, State.advance_eq]
  rfl

/-- A store at any address, on both sides of the top of memory. -/
theorem finish_storeA_unreduced (h : effectiveAddress m s = .ok ea) :
    (ea < 65536 → ∃ new, finish s (storeA m len s) = .next { s with mem := new, pc := s.pc + BitVec.ofNat 16 len } ∧
        ByteStored s.mem new ea s.a) ∧
      (65536 ≤ ea → RaisesOutOfRange s (finish s (storeA m len s)) ea) := by
  refine ⟨finish_storeA_inside h, fun hea => ?_⟩
  rw [storeA, writeMemOperand_of_ge h hea]
  exact raisesOutOfRange_abort s ea

/-- Settles O19. -/
theorem staStoresAccumulatorInEveryMode : Obligations.StaStoresAccumulatorInEveryMode := by
  refine ⟨fun _ _ => ⟨rfl, rfl, rfl, rfl, rfl, rfl, rfl⟩,
    ⟨operandFetchRaises_opcode (.staZeroPage 0#8), operandFetchRaises_opcode (.staZeroPageX 0#8),
      operandFetchRaises_opcode (.staAbsolute 0#16), operandFetchRaises_opcode (.staAbsoluteX 0#16),
      operandFetchRaises_opcode (.staAbsoluteY 0#16), operandFetchRaises_opcode (.staIndexedIndirect 0#8),
      operandFetchRaises_opcode (.staIndirectIndexed 0#8)⟩,
    fun s => ⟨?_, ?_, ?_, ?_, ?_, ?_, ?_⟩⟩
  · exact fun zp => finish_storeA_inside (effectiveAddress_zeroPage zp) (by omega)
  · exact fun zp => finish_storeA_inside (effectiveAddress_zeroPageX zp) (by omega)
  · exact fun w => finish_storeA_inside (effectiveAddress_absolute w) w.isLt
  · exact fun w => finish_storeA_unreduced (effectiveAddress_absoluteX w)
  · exact fun w => finish_storeA_unreduced (effectiveAddress_absoluteY w)
  · exact fun zp => finish_storeA_inside (effectiveAddress_indexedIndirect zp) (two_bytes_lt _ _)
  · exact fun zp => finish_storeA_unreduced (effectiveAddress_indirectIndexed zp)

end Sys2Proof.Machine

/-! Family 42_flag_ops.md: SEC, CLC, SEI, CLI, CLV, SED and CLD (R150 to R156) are one operation, `writeFlag`, at a flag
and a value. -/

namespace Sys2Proof.Machine

/-- A flag instruction always completes: it reads no operand, so that nothing in it can raise. -/
theorem finish_writeFlag (s : State) (f : Flag) (v : Bool) :
    finish s (writeFlag f v s) = .next { s.setFlag f v with pc := s.pc + 1#16 } := by
  rw [writeFlag, finish_ok, State.advance_eq, State.setFlag_pc]

/-- Settles O20. -/
theorem flagInstructionsWriteExactlyTheirFlag : Obligations.FlagInstructionsWriteExactlyTheirFlag :=
  ⟨⟨rfl, rfl, rfl, rfl, rfl, rfl, rfl⟩, fun s =>
    ⟨finish_writeFlag s .c true, finish_writeFlag s .c false, finish_writeFlag s .i true, finish_writeFlag s .i false,
      finish_writeFlag s .v false, finish_writeFlag s .d true, finish_writeFlag s .d false⟩⟩

end Sys2Proof.Machine

/-! Family 43_compare.md: the carry of a compare (R163), CMP, CPX and CPY (R160 to R162), and what they leave unchanged
(R164). A compare in any mode is one operation on its operand's byte, as a load is; an obligation takes it mode by
mode, at the address the mode's resolver gives. -/

namespace Sys2Proof.Machine

variable {s : State} {m : MemOperand} {ea : Nat} {r : Reg} {len : Nat}

/-! ## The carry of a compare -/

/-- Settles O24. Away from equality the parameter is not looked at; at equality `r ≥ m` is true and `r > m` false. -/
theorem compareCarryIsTheUnsignedOrder : Obligations.CompareCarryIsTheUnsignedOrder := by
  intro r m
  refine ⟨cmpCarry_of_gt, cmpCarry_of_lt, fun h => h ▸ cmpCarry_self r, fun hpar => ?_, fun hpar => ?_⟩
  all_goals rcases lt_trichotomy m.toNat r.toNat with hgt | heq | hlt
  · rw [cmpCarry_of_gt hgt, decide_eq_true hgt.le]
  · rw [BitVec.eq_of_toNat_eq heq, cmpCarry_self, hpar, decide_eq_true (Nat.le_refl _)]
  · rw [cmpCarry_of_lt hlt, decide_eq_false (Nat.not_le.2 hlt)]
  · rw [cmpCarry_of_gt hgt, decide_eq_true hgt]
  · rw [BitVec.eq_of_toNat_eq heq, cmpCarry_self, hpar, decide_eq_false (Nat.lt_irrefl _)]
  · rw [cmpCarry_of_lt hlt, decide_eq_false (Nat.lt_asymm hlt)]

/-- The three values of the carry (43_compare.md R163). -/
theorem cmpCarry_eq_ite (r m : Byte) : cmpCarry r m =
    if m.toNat < r.toNat then true else if r.toNat < m.toNat then false else Config.cmpCarryOnEqual := by
  split_ifs with hgt hlt
  · exact cmpCarry_of_gt hgt
  · exact cmpCarry_of_lt hlt
  · rw [BitVec.eq_of_toNat_eq (by omega : r.toNat = m.toNat), cmpCarry_self]

/-! ## A compare, in any mode -/

/-- The state a compare of `r` with the byte `v` leaves, for an instruction of `len` bytes (43_compare.md R160 to
R164): `finish_compareReg` ties it to `compareReg`. -/
def State.compared (s : State) (r : Reg) (v : Byte) (len : Nat) : State :=
  { s with
    flagZ := decide (s.reg r = v)
    flagC := if v.toNat < (s.reg r).toNat then true else if (s.reg r).toNat < v.toNat then false
      else Config.cmpCarryOnEqual
    pc := s.pc + BitVec.ofNat 16 len }

theorem State.advance_setCompare (s : State) (r : Reg) (v : Byte) (len : Nat) :
    (s.setCompare (s.reg r) v).advance len = s.compared r v len := by
  rw [State.advance_eq, State.compared, ← cmpCarry_eq_ite]
  rfl

theorem finish_compareReg {o : Operand} {v : Byte} (h : readOperand o s = .ok v) :
    finish s (compareReg r o len s) = .next (s.compared r v len) := by
  rw [compareReg, h, finish_ok, State.advance_setCompare]

theorem finish_compareReg_inside (h : effectiveAddress m s = .ok ea) (hea : ea < 65536) :
    finish s (compareReg r (.memory m) len s) = .next (s.compared r (s.mem.read ea) len) :=
  finish_compareReg (readMemOperand_of_lt h hea)

/-- A compare at any address, on both sides of the top of memory. -/
theorem finish_compareReg_unreduced (h : effectiveAddress m s = .ok ea) :
    (ea < 65536 → finish s (compareReg r (.memory m) len s) = .next (s.compared r (s.mem.read ea) len)) ∧
      (65536 ≤ ea → RaisesOutOfRange s (finish s (compareReg r (.memory m) len s)) ea) := by
  refine ⟨finish_compareReg_inside h, fun hea => ?_⟩
  rw [compareReg, readOperand, readMemOperand_of_ge h hea]
  exact raisesOutOfRange_abort s ea

/-- Settles O21. -/
theorem cmpComparesAccumulatorInEveryMode : Obligations.CmpComparesAccumulatorInEveryMode := by
  refine ⟨fun _ _ => ⟨rfl, rfl, rfl, rfl, rfl, rfl, rfl, rfl⟩,
    ⟨operandFetchRaises_opcode (.cmpImmediate 0#8), operandFetchRaises_opcode (.cmpZeroPage 0#8),
      operandFetchRaises_opcode (.cmpZeroPageX 0#8), operandFetchRaises_opcode (.cmpAbsolute 0#16),
      operandFetchRaises_opcode (.cmpAbsoluteX 0#16), operandFetchRaises_opcode (.cmpAbsoluteY 0#16),
      operandFetchRaises_opcode (.cmpIndexedIndirect 0#8), operandFetchRaises_opcode (.cmpIndirectIndexed 0#8)⟩,
    fun s => ⟨?_, ?_, ?_, ?_, ?_, ?_, ?_, ?_⟩⟩
  · exact fun v => finish_compareReg (readOperand_immediate v)
  · exact fun zp => finish_compareReg_inside (effectiveAddress_zeroPage zp) (by omega)
  · exact fun zp => finish_compareReg_inside (effectiveAddress_zeroPageX zp) (by omega)
  · exact fun w => finish_compareReg_inside (effectiveAddress_absolute w) w.isLt
  · exact fun w => finish_compareReg_unreduced (effectiveAddress_absoluteX w)
  · exact fun w => finish_compareReg_unreduced (effectiveAddress_absoluteY w)
  · exact fun zp => finish_compareReg_inside (effectiveAddress_indexedIndirect zp) (two_bytes_lt _ _)
  · exact fun zp => finish_compareReg_unreduced (effectiveAddress_indirectIndexed zp)

/-- Settles O22. No form is indexed, so that its address lies in memory. -/
theorem cpxComparesXInEveryMode : Obligations.CpxComparesXInEveryMode := by
  refine ⟨fun _ _ => ⟨rfl, rfl, rfl⟩,
    ⟨operandFetchRaises_opcode (.cpxImmediate 0#8), operandFetchRaises_opcode (.cpxZeroPage 0#8),
      operandFetchRaises_opcode (.cpxAbsolute 0#16)⟩,
    fun s => ⟨?_, ?_, ?_⟩⟩
  · exact fun v => finish_compareReg (readOperand_immediate v)
  · exact fun zp => finish_compareReg_inside (effectiveAddress_zeroPage zp) (by omega)
  · exact fun w => finish_compareReg_inside (effectiveAddress_absolute w) w.isLt

/-- Settles O23. No form is indexed, so that its address lies in memory. -/
theorem cpyComparesYInEveryMode : Obligations.CpyComparesYInEveryMode := by
  refine ⟨fun _ _ => ⟨rfl, rfl, rfl⟩,
    ⟨operandFetchRaises_opcode (.cpyImmediate 0#8), operandFetchRaises_opcode (.cpyZeroPage 0#8),
      operandFetchRaises_opcode (.cpyAbsolute 0#16)⟩,
    fun s => ⟨?_, ?_, ?_⟩⟩
  · exact fun v => finish_compareReg (readOperand_immediate v)
  · exact fun zp => finish_compareReg_inside (effectiveAddress_zeroPage zp) (by omega)
  · exact fun w => finish_compareReg_inside (effectiveAddress_absolute w) w.isLt

/-! ## What a compare leaves unchanged -/

/-- Every instruction named CMP, CPX or CPY is a compare of some register with some operand: of the seven shapes of a
meaning, the other six have other names. -/
theorem exec_eq_compareReg {i : Instr} (h : i.mnemonic = .cmp ∨ i.mnemonic = .cpx ∨ i.mnemonic = .cpy) (s : State) :
    ∃ r o, exec i s = finish s (compareReg r o i.length s) := by
  cases exec_shape i s with
  | compare r o _ _ heq => exact ⟨r, o, heq⟩
  | load _ _ kind => rcases kind with ⟨hmn, -⟩ | ⟨hmn, -⟩ | ⟨hmn, -⟩ <;> simp [hmn] at h
  | store _ hmn => simp [hmn] at h
  | shift _ hmn => simp [hmn] at h
  | shiftA hi => simp [hi, Instr.mnemonic] at h
  | flag _ _ kind =>
    rcases kind with ⟨hi, -⟩ | ⟨hi, -⟩ | ⟨hi, -⟩ | ⟨hi, -⟩ | ⟨hi, -⟩ | ⟨hi, -⟩ | ⟨hi, -⟩ <;>
      simp [hi, Instr.mnemonic] at h
  | branch _ _ hmode =>
    obtain ⟨-, -, hwf⟩ := Laws.TableRow.all i
    rw [Instr.wellFormed, hmode] at hwf
    rcases h with h | h | h <;> exact absurd (h ▸ hwf) (by decide)

/-- Settles O25. -/
theorem comparesWriteZeroAndCarryOnly : Obligations.ComparesWriteZeroAndCarryOnly := by
  intro i s t hi ht
  obtain ⟨r, o, heq⟩ := exec_eq_compareReg hi s
  rw [heq] at ht
  rcases compareReg_cases r o i.length s with ⟨v, hv, -⟩ | ⟨n, hraise, -⟩
  · rw [finish_compareReg hv] at ht
    cases ht
    exact .inl rfl
  · rw [hraise] at ht
    exact .inr ⟨n, ht ▸ raisesOutOfRange_abort s n⟩

end Sys2Proof.Machine

/-! Family 44_shift.md: ASL on memory (R170) and ASL A (R171). Both write C, Z, N and PC from the byte shifted; a shift
in any memory mode is one operation on its effective address, and an obligation takes it mode by mode, at the address
the mode's resolver gives. -/

namespace Sys2Proof.Machine

variable {s : State} {m : MemOperand} {ea len : Nat}

/-! ## The result of a shift and its flags -/

/-- The result as R170 and R171 write it: twice the byte, so that bit 0 is 0 whatever C was. -/
theorem shl8_eq_ofNat (v : Byte) : shl8 v = BitVec.ofNat 8 (v.toNat * 2) :=
  BitVec.eq_of_toNat_eq (by rw [shl8_toNat, BitVec.toNat_ofNat])

/-- The state with C, Z and N written from the byte `v` shifted and PC past an instruction of `len` bytes (44_shift.md
R170, R171): `State.advance_setShift` ties it to `setShift`. -/
def State.shifted (s : State) (v : Byte) (len : Nat) : State :=
  { s with
    flagC := decide (128 ≤ v.toNat)
    flagZ := decide (v.toNat * 2 % 256 = 0)
    flagN := decide (128 ≤ v.toNat * 2 % 256)
    pc := s.pc + BitVec.ofNat 16 len }

theorem State.advance_setShift (s : State) (v : Byte) (len : Nat) : (s.setShift v).advance len = s.shifted v len := by
  rw [State.advance_eq, State.shifted, ← shl8_toNat, ← isZero_eq_decide, ← bit7_eq_decide, ← bit7_eq_decide]
  rfl

/-! ## ASL, in any memory mode -/

theorem finish_shiftMemory_inside (h : effectiveAddress m s = .ok ea) (hea : ea < 65536) :
    ∃ new, finish s (shiftMemory m len s) = .next ((s.setMem new).shifted (s.mem.read ea) len) ∧
      ByteStored s.mem new ea (BitVec.ofNat 8 ((s.mem.read ea).toNat * 2)) := by
  rw [← shl8_eq_ofNat]
  refine ⟨s.mem.write ea (shl8 (s.mem.read ea)), ?_, byteStored_write s.mem hea _⟩
  simp only [shiftMemory, h, memRead_of_lt hea, memWrite_of_lt hea, finish_ok, State.advance_setShift]

/-- A shift at any address, on both sides of the top of memory: above it the read raises, before anything is stored. -/
theorem finish_shiftMemory_unreduced (h : effectiveAddress m s = .ok ea) :
    (ea < 65536 → ∃ new, finish s (shiftMemory m len s) = .next ((s.setMem new).shifted (s.mem.read ea) len) ∧
        ByteStored s.mem new ea (BitVec.ofNat 8 ((s.mem.read ea).toNat * 2))) ∧
      (65536 ≤ ea → RaisesOutOfRange s (finish s (shiftMemory m len s)) ea) := by
  refine ⟨finish_shiftMemory_inside h, fun hea => ?_⟩
  simp only [shiftMemory, h, memRead_of_ge hea]
  exact raisesOutOfRange_abort s ea

/-- Settles O26. -/
theorem aslShiftsMemoryInEveryMode : Obligations.AslShiftsMemoryInEveryMode := by
  refine ⟨fun _ _ => ⟨rfl, rfl, rfl, rfl⟩,
    ⟨operandFetchRaises_opcode (.aslZeroPage 0#8), operandFetchRaises_opcode (.aslZeroPageX 0#8),
      operandFetchRaises_opcode (.aslAbsolute 0#16), operandFetchRaises_opcode (.aslAbsoluteX 0#16)⟩,
    fun s => ⟨?_, ?_, ?_, ?_⟩⟩
  · exact fun zp => finish_shiftMemory_inside (effectiveAddress_zeroPage zp) (by omega)
  · exact fun zp => finish_shiftMemory_inside (effectiveAddress_zeroPageX zp) (by omega)
  · exact fun w => finish_shiftMemory_inside (effectiveAddress_absolute w) w.isLt
  · exact fun w => finish_shiftMemory_unreduced (effectiveAddress_absoluteX w)

/-! ## ASL A -/

/-- Settles O27. Nothing is read from memory, so that nothing can raise. -/
theorem aslAShiftsAccumulator : Obligations.AslAShiftsAccumulator := by
  refine ⟨rfl, fun s => ?_⟩
  rw [exec_aslA, finish_ok, State.advance_setShift, shl8_eq_ofNat]
  rfl

end Sys2Proof.Machine

/-! Family 45_branch.md: the eight branches (R180 to R188) are one operation, `branchIf`, at a condition on one flag. -/

namespace Sys2Proof.Machine

/-- A branch always completes, and PC is the one field it writes (45_branch.md R180): taken, the offset counts from the
position after the two bytes fetched. -/
theorem finish_branchIf (cond : Bool) (off : Byte) (s : State) :
    finish s (branchIf cond off s) = .next { s with
      pc := if cond then BitVec.ofInt 16 ((s.pc.toNat : Int) + 2 + sext8 off)
        else BitVec.ofInt 16 ((s.pc.toNat : Int) + 2) } := by
  have hbase : ((s.pc.toNat + 2 : Nat) : Int) = (s.pc.toNat : Int) + 2 := Int.natCast_add s.pc.toNat 2
  rw [branchIf, finish_ok, ← hbase]
  cases cond with
  | true => rfl
  | false => rfl

/-- Settles O28. The offset the statement writes out is `sext8` of the offset byte. -/
theorem branchesTakeTheirConditionAndWritePcOnly : Obligations.BranchesTakeTheirConditionAndWritePcOnly :=
  ⟨fun _ => ⟨rfl, rfl, rfl, rfl, rfl, rfl, rfl, rfl⟩,
    ⟨operandFetchRaises_opcode (.bcc 0#8), operandFetchRaises_opcode (.bne 0#8),
      operandFetchRaises_opcode (.bcs 0#8), operandFetchRaises_opcode (.beq 0#8),
      operandFetchRaises_opcode (.bmi 0#8), operandFetchRaises_opcode (.bpl 0#8),
      operandFetchRaises_opcode (.bvc 0#8), operandFetchRaises_opcode (.bvs 0#8)⟩,
    fun s b1 => ⟨finish_branchIf (!s.flagC) b1 s, finish_branchIf (!s.flagZ) b1 s, finish_branchIf s.flagC b1 s,
      finish_branchIf s.flagZ b1 s, finish_branchIf s.flagN b1 s, finish_branchIf (!s.flagN) b1 s,
      finish_branchIf (!s.flagV) b1 s, finish_branchIf s.flagV b1 s⟩⟩

end Sys2Proof.Machine

/-! Family 60_exceptions.md: the two requests of the host (R204, R211, R212), the unknown opcode (R201) and the core's
turn in Stopping (R214). -/

namespace Sys2Proof.Machine

variable {s u v : State}

/-! ## The start and the stop request -/

theorem hostStart_of_idle (h : s.runState = .idle) :
    hostStart s = ({ s with runState := .running }).reply .accepted := by
  simp only [hostStart, h]

theorem hostStart_of_ne_idle (h : s.runState ≠ .idle) : hostStart s = s.reply .rejected := by
  cases hr : s.runState with
  | idle => exact absurd hr h
  | running => simp only [hostStart, hr]
  | stopping => simp only [hostStart, hr]
  | stopped => simp only [hostStart, hr]

theorem hostStopRequest_of_running (h : s.runState = .running) :
    hostStopRequest s = ({ s with runState := .stopping }).reply .accepted := by
  simp only [hostStopRequest, h]

theorem hostStopRequest_of_ne_running (h : s.runState ≠ .running) : hostStopRequest s = s.reply .rejected := by
  cases hr : s.runState with
  | running => exact absurd hr h
  | idle => simp only [hostStopRequest, hr]
  | stopping => simp only [hostStopRequest, hr]
  | stopped => simp only [hostStopRequest, hr]

theorem step_of_startTurn (h : s.hostTurn = some (.start, u)) : step s = .next (hostStart u) :=
  step_of_hostTurn h

theorem step_of_stopRequestTurn (h : s.hostTurn = some (.stopRequest, u)) : step s = .next (hostStopRequest u) :=
  step_of_hostTurn h

/-- Settles O46, on both sides of the guard of `hostStart`. -/
theorem startMovesIdleToRunningOnly : Obligations.StartMovesIdleToRunningOnly := by
  intro s u hturn
  rw [step_of_startTurn hturn]
  exact ⟨fun h => congrArg _ (hostStart_of_idle h), fun h => congrArg _ (hostStart_of_ne_idle h)⟩

/-- Settles O47, on both sides of the guard of `hostStopRequest`. -/
theorem stopRequestMovesRunningToStoppingOnly : Obligations.StopRequestMovesRunningToStoppingOnly := by
  intro s u hturn
  rw [step_of_stopRequestTurn hturn]
  exact ⟨fun h => congrArg _ (hostStopRequest_of_running h), fun h => congrArg _ (hostStopRequest_of_ne_running h)⟩

/-- Settles O48. Either rejection is the bare answer, in a state that differs from the one before in its turns alone. -/
theorem rejectedRequestsChangeNothing : Obligations.RejectedRequestsChangeNothing := by
  intro s u m hturn hm
  obtain ⟨hu, -⟩ := hostTurn_eq hturn
  have hrun : u.runState = s.runState := by rw [hu, State.setTurns_runState]
  have hstep : step s = .next (u.reply .rejected) := by
    rcases hm with ⟨rfl, hne⟩ | ⟨rfl, hne⟩
    · rw [step_of_startTurn hturn, hostStart_of_ne_idle (hrun ▸ hne)]
    · rw [step_of_stopRequestTurn hturn, hostStopRequest_of_ne_running (hrun ▸ hne)]
  subst hu
  exact ⟨_, hstep, rfl, rfl, rfl, rfl, rfl⟩

/-! ## The unknown opcode -/

theorem runInstruction_of_unknown (h : lookupOpcode (s.mem.read s.pc.toNat) = none) :
    runInstruction s = .next (s.abort (.unknownOpcode (s.mem.read s.pc.toNat))) := by
  simp only [runInstruction, fetch_of_unknown h]

/-- Settles O31. The value left in STOP_INFO.address is the next free value (10_state.md R38). -/
theorem unknownOpcodeStopsTheCore : Obligations.UnknownOpcodeStopsTheCore := by
  intro s u hturn hrun hop
  rw [step_of_coreTurn hturn, coreStep_running hrun, runInstruction_of_unknown hop]
  exact ⟨Config.freeNat u.freeIndex, rfl⟩

/-! ## The core's turn in Stopping -/

theorem stoppedByRequest_observeStop (s : State) : StoppedByRequest s s.observeStop := ⟨_, _, rfl⟩

/-- The cause of an abort is an error's, never the request's (60_exceptions.md R206). -/
theorem State.abort_stopCause (s : State) (e : Abort) :
    (s.abort e).stopCause = .unknownOpcode ∨ (s.abort e).stopCause = .addressOutOfRange := by
  cases e with
  | unknownOpcode op => exact .inl rfl
  | addressOutOfRange n => exact .inr rfl

/-- The choice of log 5, on the free value drawn for it. -/
theorem coreStep_stopping (h : s.runState = .stopping) : coreStep s =
    if Config.stopSeenAtOnce s.freeIndex then .next s.drawFree.observeStop else runLastInstruction s.drawFree := by
  simp only [coreStep, h]

theorem runLastInstruction_of_next (h : runInstruction s = .next v) :
    runLastInstruction s = .next (stopAfter v) := by
  simp only [runLastInstruction, h]

theorem stopAfter_of_stopping (h : s.runState = .stopping) : stopAfter s = s.observeStop :=
  if_neg (by simp [h])

theorem stopAfter_abort (s : State) (e : Abort) : stopAfter (s.abort e) = s.abort e :=
  if_pos (State.abort_runState s e)

/-- The one more instruction in Stopping, with its own outcome: it completes and the request is then observed, or it
aborts and its abort is the end. -/
theorem runLastInstruction_cases (h : s.runState = .stopping) :
    (∃ v, runInstruction s = .next v ∧ v.runState = .stopping ∧ runLastInstruction s = .next v.observeStop) ∨
      ∃ e, runInstruction s = .next (s.abort e) ∧ runLastInstruction s = .next (s.abort e) := by
  rcases runInstruction_cases s with ⟨v, hv, hkept⟩ | ⟨e, he, -⟩
  · have hrun : v.runState = .stopping := hkept.runState.trans h
    exact .inl ⟨v, hv, hrun, by rw [runLastInstruction_of_next hv, stopAfter_of_stopping hrun]⟩
  · exact .inr ⟨e, he, by rw [runLastInstruction_of_next he, stopAfter_abort]⟩

/-- Settles O44. Both values of the choice are taken; the last instruction runs from the state after the draw. -/
theorem stoppingRunsAtMostOneMoreInstruction : Obligations.StoppingRunsAtMostOneMoreInstruction := by
  intro s u hturn hstopping
  rw [step_of_coreTurn hturn, coreStep_stopping hstopping]
  split
  · exact ⟨_, rfl, rfl, .inl (stoppedByRequest_observeStop u.drawFree)⟩
  · have hdrawn : u.drawFree.runState = .stopping := hstopping
    rcases runLastInstruction_cases hdrawn with ⟨v, hv, hrun, hlast⟩ | ⟨e, he, hlast⟩
    · exact ⟨_, hlast, rfl, .inr ⟨v, hv, .inl ⟨hrun, stoppedByRequest_observeStop v⟩⟩⟩
    · have hstopped := State.abort_runState u.drawFree e
      exact ⟨_, hlast, hstopped, .inr ⟨_, he, .inr ⟨hstopped, rfl, State.abort_stopCause _ e⟩⟩⟩

end Sys2Proof.Machine

/-! Decoding and encoding, both ways (30_encoding.md R80 to R86): the decoder takes its operand bytes by the row of the
opcode, the encoder writes them by the constructor, and `Instr.ofParts` and `Instr.operands` undo each other. -/

namespace Sys2Proof

/-! ## The operand bytes of an instruction -/

theorem Instr.operands_length (i : Instr) : i.operands.length = i.mode.operandBytes := by
  obtain ⟨-, hlen, -⟩ := Laws.TableRow.all i
  rw [encode, List.length_cons, Instr.length, Mode.length] at hlen
  omega

theorem Instr.length_le_three (i : Instr) : i.length ≤ 3 := by
  have hle := i.mode.operandBytes_le_two
  rw [Instr.length, Mode.length]
  omega

/-- The way back from `ofParts_operands`: an instruction is put together again from its mnemonic, its mode and the
operand bytes its mode has. -/
theorem ofParts_of_operands {i : Instr} {b1 b2 : Byte} (h : i.operands = [b1, b2].take i.mode.operandBytes) :
    Instr.ofParts i.mnemonic i.mode b1 b2 = some i := by
  cases i <;> simp only [Instr.operands, Instr.mode, Mode.operandBytes, List.take, List.cons.injEq, and_true] at h <;>
    simp [Instr.mnemonic, Instr.mode, Instr.ofParts, h]
  all_goals rw [← h.1, ← h.2, word_lowByte_highByte]

/-! ## Decode of encode -/

/-- A row that names an instruction answers it, with the bytes left. -/
theorem Row.instr_of_ofParts {r : Row} {b1 b2 : Byte} {i : Instr}
    (h : Instr.ofParts r.mnemonic r.mode b1 b2 = some i) (rest : List Byte) : r.instr b1 b2 rest = .ok (i, rest) := by
  rw [Row.instr, h]

/-- The operand bytes of an instruction are what the row of its opcode asks for, by their number. -/
theorem decodeOperands_operands (i : Instr) (rest : List Byte) :
    decodeOperands ⟨i.opcode, i.mnemonic, i.mode⟩ (i.operands ++ rest) = .ok (i, rest) := by
  have hlen := i.operands_length
  have hle := i.mode.operandBytes_le_two
  match hops : i.operands with
  | [] =>
    have hn : i.mode.operandBytes = 0 := by rw [← hlen, hops]; rfl
    simp only [decodeOperands, hn, List.nil_append]
    exact Row.instr_of_ofParts (ofParts_of_operands (by rw [hops, hn]; rfl)) rest
  | [b1] =>
    have hn : i.mode.operandBytes = 1 := by rw [← hlen, hops]; rfl
    simp only [decodeOperands, hn, List.cons_append, List.nil_append]
    exact Row.instr_of_ofParts (ofParts_of_operands (by rw [hops, hn]; rfl)) rest
  | [b1, b2] =>
    have hn : i.mode.operandBytes = 2 := by rw [← hlen, hops]; rfl
    simp only [decodeOperands, hn, List.cons_append, List.nil_append]
    exact Row.instr_of_ofParts (ofParts_of_operands (by rw [hops, hn]; rfl)) rest
  | _ :: _ :: _ :: _ =>
    simp only [hops, List.length_cons] at hlen
    omega

theorem decode_encode_append (i : Instr) (rest : List Byte) : decode (encode i ++ rest) = .ok (i, rest) := by
  obtain ⟨hrow, -, -⟩ := Laws.TableRow.all i
  simp only [encode, List.cons_append, decode, hrow]
  exact decodeOperands_operands i rest

/-- Settles O1. The row the lookup finds is the one the encoder's opcode was written for, and the row takes exactly the
operand bytes the encoder wrote. -/
theorem decodeOfEncodeGivesTheInstructionBack : Obligations.DecodeOfEncodeGivesTheInstructionBack := by
  intro i rest
  obtain ⟨-, hlen, -⟩ := Laws.TableRow.all i
  exact ⟨decode_encode_append i rest, hlen⟩

/-! ## Encode of decode -/

/-- What a row answers was put together from the row's mnemonic and mode, and the later bytes are handed on. -/
theorem Row.ofParts_of_instr {r : Row} {b1 b2 : Byte} {rest left : List Byte} {i : Instr}
    (h : r.instr b1 b2 rest = .ok (i, left)) : Instr.ofParts r.mnemonic r.mode b1 b2 = some i ∧ rest = left := by
  unfold Row.instr at h
  split at h
  · next j hj =>
    cases h
    exact ⟨hj, rfl⟩
  · cases h

theorem opcode_of_ofParts {r : Row} (hr : r ∈ opcodeTable) {b1 b2 : Byte} {i : Instr}
    (h : Instr.ofParts r.mnemonic r.mode b1 b2 = some i) : i.opcode = r.opcode := by
  obtain ⟨j, hj, hop, -, -⟩ := ofParts_of_mem hr b1 b2
  rwa [Option.some.inj (h.symm.trans hj)]

/-- The bytes a row takes are the operand bytes of the instruction it answers, and the instruction has the row's
opcode. -/
theorem decodeOperands_bytes {r : Row} (hr : r ∈ opcodeTable) {rest left : List Byte} {i : Instr}
    (h : decodeOperands r rest = .ok (i, left)) : i.opcode = r.opcode ∧ rest = i.operands ++ left := by
  unfold decodeOperands at h
  split at h
  case h_4 => cases h
  all_goals
    next hn =>
    obtain ⟨hparts, rfl⟩ := Row.ofParts_of_instr h
    exact ⟨opcode_of_ofParts hr hparts, by rw [ofParts_operands hparts, hn]; rfl⟩

/-- Settles O2. The first byte is the opcode of its row, and the row answers an instruction of that opcode. -/
theorem encodeOfDecodeGivesTheBytesBack : Obligations.EncodeOfDecodeGivesTheBytesBack := by
  intro bytes i rest h
  match bytes with
  | [] => cases h
  | op :: tail =>
    cases hrow : lookupOpcode op with
    | none => simp only [decode, hrow, reduceCtorEq] at h
    | some r =>
      simp only [decode, hrow] at h
      obtain ⟨hmem, hop⟩ := lookupOpcode_some hrow
      obtain ⟨hopi, htail⟩ := decodeOperands_bytes hmem h
      rw [encode, List.cons_append, hopi, hop, htail]

/-! ## The spec's own examples -/

/-- Settles O3. The words are the encodings of the instructions beside them. -/
theorem exampleWordsDecodeAsTheSpecWritesThem : Obligations.ExampleWordsDecodeAsTheSpecWritesThem :=
  ⟨decode_encode_append .sec [], decode_encode_append .aslA [], decode_encode_append (.ldaImmediate 0x80#8) [],
    decode_encode_append (.ldaZeroPage 0x10#8) [], decode_encode_append (.ldaZeroPageX 0x0F#8) [],
    decode_encode_append (.ldxZeroPageY 0x10#8) [], decode_encode_append (.staAbsolute 0x0605#16) [],
    decode_encode_append (.ldaAbsoluteX 0xFF80#16) [], decode_encode_append (.staAbsoluteY 0x1234#16) [],
    decode_encode_append (.ldaIndexedIndirect 0x40#8) [], decode_encode_append (.staIndirectIndexed 0x40#8) [],
    decode_encode_append (.bcc 0xFC#8) [], decode_encode_append (.cmpImmediate 0x80#8) [],
    decode_encode_append (.aslZeroPage 0x20#8) []⟩

/-! ## The bytes with a row and those without -/

/-- The bytes of 30_encoding.md section 3 by high nibble: `admittedBytes_perm` ties them to the opcode table. -/
def admittedBytes : List Nat :=
  [0x06, 0x0A, 0x0E, 0x10, 0x16, 0x18, 0x1E, 0x30, 0x38, 0x50, 0x58, 0x70, 0x78, 0x81, 0x85, 0x8D, 0x90, 0x91, 0x95,
    0x99, 0x9D, 0xA0, 0xA1, 0xA2, 0xA4, 0xA5, 0xA6, 0xA9, 0xAC, 0xAD, 0xAE, 0xB0, 0xB1, 0xB4, 0xB5, 0xB6, 0xB8, 0xB9,
    0xBC, 0xBD, 0xBE, 0xC0, 0xC1, 0xC4, 0xC5, 0xC9, 0xCC, 0xCD, 0xD0, 0xD1, 0xD5, 0xD8, 0xD9, 0xDD, 0xE0, 0xE4, 0xEC,
    0xF0, 0xF8]

theorem admittedBytes_perm : (opcodeTable.map fun r => r.opcode.toNat).Perm admittedBytes := by decide

/-- No two rows have one opcode. -/
theorem opcodes_nodup : (opcodeTable.map Row.opcode).Nodup := by decide

theorem mem_admittedBytes_iff (op : Byte) : op.toNat ∈ admittedBytes ↔ op ∈ opcodeTable.map Row.opcode := by
  simp only [← admittedBytes_perm.mem_iff, List.mem_map, BitVec.toNat_inj]

/-- The rows of a byte are its occurrences among the opcodes. -/
theorem rows_length_eq_count (op : Byte) :
    (opcodeTable.filter fun r => r.opcode == op).length = (opcodeTable.map Row.opcode).count op := by
  rw [List.count, List.countP_map, List.countP_eq_length_filter]
  rfl

theorem decode_of_not_admitted {op : Byte} (h : op ∉ opcodeTable.map Row.opcode) (rest : List Byte) :
    decode (op :: rest) = .error (.unknownOpcode op) := by
  have hnone : lookupOpcode op = none := by
    rw [lookupOpcode, List.find?_eq_none]
    exact fun r hr heq => h (List.mem_map.2 ⟨r, hr, beq_iff_eq.1 heq⟩)
  simp only [decode, hnone]

/-- Settles O4. A byte stands among the opcodes once or not at all. -/
theorem eachByteHasOneRowOrIsUnknown : Obligations.EachByteHasOneRowOrIsUnknown := by
  intro op
  by_cases h : op ∈ opcodeTable.map Row.opcode
  · refine .inl ⟨(mem_admittedBytes_iff op).2 h, ?_⟩
    rw [rows_length_eq_count, List.count_eq_one_of_mem opcodes_nodup h]
  · refine .inr ⟨fun hop => h ((mem_admittedBytes_iff op).1 hop), ?_, decode_of_not_admitted h⟩
    rw [rows_length_eq_count, List.count_eq_zero_of_not_mem h]

end Sys2Proof

/-! The effect of an instruction, as a function of the state it is applied to. What an instruction does is fixed by the
registers and flags it looks at and by the bytes of `dataReads`; every whole-machine frame, and every statement about
two runs, is a case analysis on this effect. -/

namespace Sys2Proof.Machine

variable {i : Instr} {s t s' : State} {f : State → State}

/-! ## The operation of an instruction, the same from every state -/

theorem sourceOf_immediate {v : Byte} (hmode : i.mode = .immediate) (hmem : i.memOperand = none)
    (hops : i.operands = [v]) : SourceOf i (.immediate v) :=
  .inl ⟨hmode, hmem, v, hops, rfl⟩

theorem sourceOf_memory {m : MemOperand} (hmem : i.memOperand = some m) : SourceOf i (.memory m) :=
  .inr ⟨m, hmem, rfl⟩

/-- `i` loads the register `r` (41_load_store.md R140 to R142). -/
def LoadsReg (i : Instr) (r : Reg) : Prop :=
  (i.mnemonic = .lda ∧ r = .a) ∨ (i.mnemonic = .ldx ∧ r = .x) ∨ (i.mnemonic = .ldy ∧ r = .y)

/-- `i` compares the register `r` (43_compare.md R160 to R162). -/
def ComparesReg (i : Instr) (r : Reg) : Prop :=
  (i.mnemonic = .cmp ∧ r = .a) ∨ (i.mnemonic = .cpx ∧ r = .x) ∨ (i.mnemonic = .cpy ∧ r = .y)

/-- `i` sets the flag `f` to `v` (42_flag_ops.md R150 to R156). -/
def WritesFlag (i : Instr) (f : Flag) (v : Bool) : Prop :=
  (i = .sec ∧ f = .c ∧ v = true) ∨ (i = .clc ∧ f = .c ∧ v = false) ∨ (i = .sei ∧ f = .i ∧ v = true) ∨
    (i = .cli ∧ f = .i ∧ v = false) ∨ (i = .clv ∧ f = .v ∧ v = false) ∨ (i = .sed ∧ f = .d ∧ v = true) ∨
    (i = .cld ∧ f = .d ∧ v = false)

/-- What is left of `Shape` when the state is taken out of it: the operation is the same from every state, and the
condition of a branch looks at C, Z, N and V alone. A statement about two runs of one instruction needs this form. -/
inductive UniformShape (i : Instr) : Prop where
  | load (r : Reg) (o : Operand) (kind : LoadsReg i r)
      (src : SourceOf i o) (eq : ∀ s, exec i s = finish s (loadReg r o i.length s))
  | compare (r : Reg) (o : Operand) (kind : ComparesReg i r)
      (src : SourceOf i o) (eq : ∀ s, exec i s = finish s (compareReg r o i.length s))
  | store (m : MemOperand) (kind : i.mnemonic = .sta) (src : i.memOperand = some m)
      (eq : ∀ s, exec i s = finish s (storeA m i.length s))
  | shift (m : MemOperand) (kind : i.mnemonic = .asl) (src : i.memOperand = some m)
      (eq : ∀ s, exec i s = finish s (shiftMemory m i.length s))
  | shiftA (kind : i = .aslA)
  | flag (f : Flag) (v : Bool) (kind : WritesFlag i f v)
      (len : i.length = 1) (eq : ∀ s, exec i s = finish s (writeFlag f v s))
  | branch (cond : State → Bool) (off : Byte) (kind : i.mode = .relative) (nomem : i.memOperand = none)
      (src : i.operands = [off])
      (flags : ∀ s t : State, t.flagC = s.flagC → t.flagZ = s.flagZ → t.flagN = s.flagN → t.flagV = s.flagV →
        cond t = cond s)
      (eq : ∀ s, exec i s = finish s (branchIf (cond s) off s))

theorem uniformShape (i : Instr) : UniformShape i := by
  cases i
  case ldaImmediate v =>
    exact .load .a (.immediate v) (.inl ⟨rfl, rfl⟩) (sourceOf_immediate rfl rfl rfl) fun _ => rfl
  case ldxImmediate v =>
    exact .load .x (.immediate v) (.inr (.inl ⟨rfl, rfl⟩)) (sourceOf_immediate rfl rfl rfl) fun _ => rfl
  case ldyImmediate v =>
    exact .load .y (.immediate v) (.inr (.inr ⟨rfl, rfl⟩)) (sourceOf_immediate rfl rfl rfl) fun _ => rfl
  case cmpImmediate v =>
    exact .compare .a (.immediate v) (.inl ⟨rfl, rfl⟩) (sourceOf_immediate rfl rfl rfl) fun _ => rfl
  case cpxImmediate v =>
    exact .compare .x (.immediate v) (.inr (.inl ⟨rfl, rfl⟩)) (sourceOf_immediate rfl rfl rfl) fun _ => rfl
  case cpyImmediate v =>
    exact .compare .y (.immediate v) (.inr (.inr ⟨rfl, rfl⟩)) (sourceOf_immediate rfl rfl rfl) fun _ => rfl
  case ldaZeroPage | ldaZeroPageX | ldaAbsolute | ldaAbsoluteX | ldaAbsoluteY | ldaIndexedIndirect
      | ldaIndirectIndexed =>
    exact .load .a _ (.inl ⟨rfl, rfl⟩) (sourceOf_memory rfl) fun _ => rfl
  case ldxZeroPage | ldxZeroPageY | ldxAbsolute | ldxAbsoluteY =>
    exact .load .x _ (.inr (.inl ⟨rfl, rfl⟩)) (sourceOf_memory rfl) fun _ => rfl
  case ldyZeroPage | ldyZeroPageX | ldyAbsolute | ldyAbsoluteX =>
    exact .load .y _ (.inr (.inr ⟨rfl, rfl⟩)) (sourceOf_memory rfl) fun _ => rfl
  case cmpZeroPage | cmpZeroPageX | cmpAbsolute | cmpAbsoluteX | cmpAbsoluteY | cmpIndexedIndirect
      | cmpIndirectIndexed =>
    exact .compare .a _ (.inl ⟨rfl, rfl⟩) (sourceOf_memory rfl) fun _ => rfl
  case cpxZeroPage | cpxAbsolute =>
    exact .compare .x _ (.inr (.inl ⟨rfl, rfl⟩)) (sourceOf_memory rfl) fun _ => rfl
  case cpyZeroPage | cpyAbsolute =>
    exact .compare .y _ (.inr (.inr ⟨rfl, rfl⟩)) (sourceOf_memory rfl) fun _ => rfl
  case staZeroPage | staZeroPageX | staAbsolute | staAbsoluteX | staAbsoluteY | staIndexedIndirect
      | staIndirectIndexed =>
    exact .store _ rfl rfl fun _ => rfl
  case aslZeroPage | aslZeroPageX | aslAbsolute | aslAbsoluteX => exact .shift _ rfl rfl fun _ => rfl
  case aslA => exact .shiftA rfl
  case sec => exact .flag .c true (by simp [WritesFlag]) rfl fun _ => rfl
  case clc => exact .flag .c false (by simp [WritesFlag]) rfl fun _ => rfl
  case sei => exact .flag .i true (by simp [WritesFlag]) rfl fun _ => rfl
  case cli => exact .flag .i false (by simp [WritesFlag]) rfl fun _ => rfl
  case clv => exact .flag .v false (by simp [WritesFlag]) rfl fun _ => rfl
  case sed => exact .flag .d true (by simp [WritesFlag]) rfl fun _ => rfl
  case cld => exact .flag .d false (by simp [WritesFlag]) rfl fun _ => rfl
  case bcc off => exact .branch (fun s => !s.flagC) off rfl rfl rfl (fun _ _ h _ _ _ => congrArg not h) fun _ => rfl
  case bne off => exact .branch (fun s => !s.flagZ) off rfl rfl rfl (fun _ _ _ h _ _ => congrArg not h) fun _ => rfl
  case bcs off => exact .branch (fun s => s.flagC) off rfl rfl rfl (fun _ _ h _ _ _ => h) fun _ => rfl
  case beq off => exact .branch (fun s => s.flagZ) off rfl rfl rfl (fun _ _ _ h _ _ => h) fun _ => rfl
  case bmi off => exact .branch (fun s => s.flagN) off rfl rfl rfl (fun _ _ _ _ h _ => h) fun _ => rfl
  case bpl off => exact .branch (fun s => !s.flagN) off rfl rfl rfl (fun _ _ _ _ h _ => congrArg not h) fun _ => rfl
  case bvc off => exact .branch (fun s => !s.flagV) off rfl rfl rfl (fun _ _ _ _ _ h => congrArg not h) fun _ => rfl
  case bvs off => exact .branch (fun s => s.flagV) off rfl rfl rfl (fun _ _ _ _ _ h => h) fun _ => rfl

/-! ## The memory operand of an instruction -/

theorem memOperand_ne_indirect (i : Instr) (w : Addr) : i.memOperand ≠ some (.indirect w) := by
  cases i <;> simp [Instr.memOperand]

/-- Settles O15. The resolvers are taken mode by mode in `effectiveAddress_cases`. -/
theorem resolversPresentNoAddressAbove100FE : Obligations.ResolversPresentNoAddressAbove100FE := by
  refine ⟨fun m s hm => ?_, fun _ => effectiveAddress_indirect_top, memOperand_ne_indirect⟩
  rcases effectiveAddress_cases m s with hea | ⟨hindirect, -⟩
  · exact hea
  · exact absurd hindirect hm

/-- An instruction's own resolver always gives an address: what raises is the access. -/
theorem effectiveAddress_of_memOperand {m : MemOperand} (hm : i.memOperand = some m) (s : State) :
    ∃ ea, effectiveAddress m s = .ok ea ∧ ea ≤ 0x100FE := by
  rcases effectiveAddress_cases m s with hea | ⟨rfl, -⟩
  · exact hea
  · exact absurd hm (memOperand_ne_indirect i _)

/-- Only three modes give an address outside memory (40_cycle_and_addressing.md R128). -/
theorem mode_of_outside {m : MemOperand} {ea : Nat} (hm : i.memOperand = some m) (h : effectiveAddress m s = .ok ea)
    (hea : 65536 ≤ ea) : i.mode = .absoluteX ∨ i.mode = .absoluteY ∨ i.mode = .indirectIndexed := by
  by_contra hmode
  simp only [not_or] at hmode
  obtain ⟨hx, hy, hind⟩ := hmode
  obtain ⟨ea', h', hlt⟩ := memOperand_in_memory hm s hx hy hind
  cases h.symm.trans h'
  omega

theorem dataWrite_of_no_memOperand (h : i.memOperand = none) (s : State) : dataWrite i s = none := by
  simp [dataWrite, h]

/-! ## The effect -/

/-- What `i` does from `s`, as a function `f` of the state it is applied to: `exec_effect` ties it to `exec`. The
address and the bytes read are those of `s`; PC, and everything the instruction leaves alone, are those of the state
`f` is applied to. -/
inductive Effect (i : Instr) (s : State) : (State → State) → Prop where
  | abort (n : Nat) (lo : 0x10000 ≤ n) (hi : n ≤ 0x100FE)
      (mode : i.mode = .absoluteX ∨ i.mode = .absoluteY ∨ i.mode = .indirectIndexed)
      (write : ∀ ea, dataWrite i s = some ea → 65536 ≤ ea) :
      Effect i s fun s' => s'.abort (.addressOutOfRange n)
  | load (r : Reg) (v : Byte) (kind : LoadsReg i r) :
      Effect i s fun s' => s'.loaded r v i.length
  | compare (r : Reg) (v : Byte) (kind : ComparesReg i r) :
      Effect i s fun s' => s'.compared r v i.length
  | store (ea : Nat) (v : Byte) (inside : ea < 65536) (kind : i.mnemonic = .sta) (write : dataWrite i s = some ea) :
      Effect i s fun s' => (s'.setMem (s'.mem.write ea v)).advance i.length
  | shift (ea : Nat) (v : Byte) (inside : ea < 65536) (kind : i.mnemonic = .asl) (write : dataWrite i s = some ea) :
      Effect i s fun s' => (s'.setMem (s'.mem.write ea (shl8 v))).shifted v i.length
  | shiftA (v : Byte) (kind : i = .aslA) : Effect i s fun s' => (s'.setReg .a (shl8 v)).shifted v i.length
  | flag (f : Flag) (v : Bool) (kind : WritesFlag i f v) : Effect i s fun s' => (s'.setFlag f v).advance i.length
  | skip (nomem : i.memOperand = none) : Effect i s fun s' => s'.advance i.length
  | jump (off : Byte) (kind : i.mode = .relative) (nomem : i.memOperand = none) (src : i.operands = [off]) :
      Effect i s fun s' => s'.writePc (rel (s'.pc.toNat + 2) off)

/-- `s'` is `s` as far as the instruction looks at it: A, X, Y, the four flags a branch can test, and the bytes of the
table of data accesses (20_memory.md R65). -/
structure Agrees (i : Instr) (s s' : State) : Prop where
  a : s'.a = s.a
  x : s'.x = s.x
  y : s'.y = s.y
  flagC : s'.flagC = s.flagC
  flagZ : s'.flagZ = s.flagZ
  flagN : s'.flagN = s.flagN
  flagV : s'.flagV = s.flagV
  reads : ∀ addr ∈ dataReads i s, s'.mem.read addr = s.mem.read addr

theorem Agrees.refl (i : Instr) (s : State) : Agrees i s s := ⟨rfl, rfl, rfl, rfl, rfl, rfl, rfl, fun _ _ => rfl⟩

theorem Agrees.effectiveAddress {m : MemOperand} (h : Agrees i s s') (hm : i.memOperand = some m) :
    effectiveAddress m s' = effectiveAddress m s :=
  effectiveAddress_congr h.x h.y fun a ha => h.reads a (pointerReads_subset_dataReads hm a ha)

theorem Agrees.target {m : MemOperand} {ea : Nat} (h : Agrees i s s') (hm : i.memOperand = some m)
    (hmn : i.mnemonic ≠ .sta) (hea : Machine.effectiveAddress m s = .ok ea) : s'.mem.read ea = s.mem.read ea :=
  h.reads ea (target_mem_dataReads hm (bne_iff_ne.2 hmn) hea)

/-- An operand that answers a byte in `s` answers the same byte from every state that agrees with `s`; one that does
not is the memory operand of an address outside memory, and raises with that address from every such state. -/
theorem readOperand_uniform {o : Operand} (hsrc : SourceOf i o) (hmn : i.mnemonic ≠ .sta) (s : State) :
    (∃ v, ∀ s', Agrees i s s' → readOperand o s' = .ok v) ∨
      ∃ m ea, i.memOperand = some m ∧ effectiveAddress m s = .ok ea ∧ 65536 ≤ ea ∧ ea ≤ 0x100FE ∧
        ∀ s', Agrees i s s' → readOperand o s' = .error (.addressOutOfRange ea) := by
  rcases hsrc with ⟨-, -, v, -, rfl⟩ | ⟨m, hm, rfl⟩
  · exact .inl ⟨v, fun _ _ => rfl⟩
  · obtain ⟨ea, hea, hle⟩ := effectiveAddress_of_memOperand hm s
    by_cases hlt : ea < 65536
    · refine .inl ⟨s.mem.read ea, fun s' h => ?_⟩
      rw [← h.target hm hmn hea]
      exact readMemOperand_of_lt ((h.effectiveAddress hm).trans hea) hlt
    · exact .inr ⟨m, ea, hm, hea, Nat.not_lt.1 hlt, hle, fun s' h =>
        readMemOperand_of_ge ((h.effectiveAddress hm).trans hea) (Nat.not_lt.1 hlt)⟩

theorem effect_abort {m : MemOperand} {ea : Nat} (hm : i.memOperand = some m) (hea : effectiveAddress m s = .ok ea)
    (lo : 65536 ≤ ea) (hi : ea ≤ 0x100FE) : Effect i s fun s' => s'.abort (.addressOutOfRange ea) := by
  refine .abort ea lo hi (mode_of_outside hm hea lo) fun ea' h => ?_
  by_cases hmn : i.mnemonic = .sta ∨ i.mnemonic = .asl
  · cases h.symm.trans (dataWrite_of_ok hmn hm hea)
    exact lo
  · obtain ⟨hsta, hasl⟩ := not_or.1 hmn
    cases h.symm.trans (dataWrite_eq_none hsta hasl s)

theorem LoadsReg.ne_sta {r : Reg} (h : LoadsReg i r) : i.mnemonic ≠ .sta := by
  rcases h with ⟨hmn, -⟩ | ⟨hmn, -⟩ | ⟨hmn, -⟩ <;> simp [hmn]

theorem LoadsReg.no_write {r : Reg} (h : LoadsReg i r) (s : State) : dataWrite i s = none := by
  rcases h with ⟨hmn, -⟩ | ⟨hmn, -⟩ | ⟨hmn, -⟩ <;> simp [dataWrite, hmn]

theorem ComparesReg.ne_sta {r : Reg} (h : ComparesReg i r) : i.mnemonic ≠ .sta := by
  rcases h with ⟨hmn, -⟩ | ⟨hmn, -⟩ | ⟨hmn, -⟩ <;> simp [hmn]

theorem ComparesReg.no_write {r : Reg} (h : ComparesReg i r) (s : State) : dataWrite i s = none := by
  rcases h with ⟨hmn, -⟩ | ⟨hmn, -⟩ | ⟨hmn, -⟩ <;> simp [dataWrite, hmn]

/-- Every instruction has an effect, and it is the same from every state that agrees with `s`. -/
theorem exec_effect (i : Instr) (s : State) :
    ∃ f, Effect i s f ∧ ∀ s', Agrees i s s' → exec i s' = .next (f s') := by
  cases uniformShape i with
  | load r o kind src eq =>
    rcases readOperand_uniform src kind.ne_sta s with ⟨v, hv⟩ | ⟨m, ea, hm, hea, lo, hi, hraise⟩
    · exact ⟨_, .load r v kind, fun s' h => by rw [eq, finish_loadReg (hv s' h)]⟩
    · exact ⟨_, effect_abort hm hea lo hi, fun s' h => by rw [eq, loadReg, hraise s' h, finish_error]⟩
  | compare r o kind src eq =>
    rcases readOperand_uniform src kind.ne_sta s with ⟨v, hv⟩ | ⟨m, ea, hm, hea, lo, hi, hraise⟩
    · exact ⟨_, .compare r v kind, fun s' h => by rw [eq, finish_compareReg (hv s' h)]⟩
    · exact ⟨_, effect_abort hm hea lo hi, fun s' h => by rw [eq, compareReg, hraise s' h, finish_error]⟩
  | store m kind src eq =>
    obtain ⟨ea, hea, hi⟩ := effectiveAddress_of_memOperand src s
    by_cases hlt : ea < 65536
    · refine ⟨_, .store ea s.a hlt kind (dataWrite_of_ok (.inl kind) src hea), fun s' h => ?_⟩
      rw [eq, storeA, writeMemOperand_of_lt ((h.effectiveAddress src).trans hea) hlt, h.a, finish_ok]
    · refine ⟨_, effect_abort src hea (Nat.not_lt.1 hlt) hi, fun s' h => ?_⟩
      rw [eq, storeA, writeMemOperand_of_ge ((h.effectiveAddress src).trans hea) (Nat.not_lt.1 hlt), finish_error]
  | shift m kind src eq =>
    have hsta : i.mnemonic ≠ .sta := by simp [kind]
    obtain ⟨ea, hea, hi⟩ := effectiveAddress_of_memOperand src s
    by_cases hlt : ea < 65536
    · refine ⟨_, .shift ea (s.mem.read ea) hlt kind (dataWrite_of_ok (.inr kind) src hea), fun s' h => ?_⟩
      simp only [eq, shiftMemory, (h.effectiveAddress src).trans hea, memRead_of_lt hlt, h.target src hsta hea,
        memWrite_of_lt hlt, State.advance_setShift, finish_ok]
    · refine ⟨_, effect_abort src hea (Nat.not_lt.1 hlt) hi, fun s' h => ?_⟩
      simp only [eq, shiftMemory, (h.effectiveAddress src).trans hea, memRead_of_ge (Nat.not_lt.1 hlt), finish_error]
  | shiftA kind =>
    refine ⟨_, .shiftA s.a kind, fun s' h => ?_⟩
    rw [kind, exec_aslA, finish_ok, State.advance_setShift, h.a]
    rfl
  | flag f v kind len eq =>
    refine ⟨_, .flag f v kind, fun s' _ => ?_⟩
    rw [eq, writeFlag, finish_ok, len]
  | branch cond off kind nomem src flags eq =>
    have hcond : ∀ s', Agrees i s s' → cond s' = cond s := fun s' h => flags s s' h.flagC h.flagZ h.flagN h.flagV
    cases hc : cond s with
    | true =>
      refine ⟨_, .jump off kind nomem src, fun s' h => ?_⟩
      rw [eq, hcond s' h, hc, branchIf, finish_ok, if_pos rfl]
    | false =>
      refine ⟨_, .skip nomem, fun s' h => ?_⟩
      rw [eq, hcond s' h, hc, branchIf, finish_ok, if_neg Bool.false_ne_true, Instr.length_of_mode kind]
      rfl

/-- The inversion of `exec` from one state. -/
theorem effect_of_exec (h : exec i s = .next t) : ∃ f, Effect i s f ∧ f s = t := by
  obtain ⟨f, heff, hexec⟩ := exec_effect i s
  exact ⟨f, heff, Host.Outcome.next.inj ((hexec s (.refl i s)).symm.trans h)⟩

/-! ## What an effect leaves unchanged -/

/-- The address a resolver gives in the state before is the one byte of memory an instruction can change: STA and ASL
write it where it lies in memory, and nothing else writes. -/
theorem Effect.mem (h : Effect i s f) :
    ((∀ ea, dataWrite i s = some ea → 65536 ≤ ea) ∧ ∀ s', (f s').mem = s'.mem) ∨
      ∃ ea v, dataWrite i s = some ea ∧ ea < 65536 ∧ ∀ s', (f s').mem = s'.mem.write ea v := by
  have hnone : dataWrite i s = none → ∀ ea, dataWrite i s = some ea → 65536 ≤ ea := by simp +contextual
  cases h with
  | abort n _ _ _ write => exact .inl ⟨write, fun s' => s'.abort_mem _⟩
  | load r v kind => exact .inl ⟨hnone (kind.no_write s), fun s' => by cases r <;> rfl⟩
  | compare r v kind => exact .inl ⟨hnone (kind.no_write s), fun _ => rfl⟩
  | store ea v inside _ write => exact .inr ⟨ea, v, write, inside, fun _ => rfl⟩
  | shift ea v inside _ write => exact .inr ⟨ea, shl8 v, write, inside, fun _ => rfl⟩
  | shiftA v kind => exact .inl ⟨hnone (dataWrite_of_no_memOperand (kind ▸ rfl) s), fun _ => rfl⟩
  | flag f v kind =>
    refine .inl ⟨hnone (dataWrite_of_no_memOperand ?_ s), fun s' => by cases f <;> rfl⟩
    rcases kind with ⟨rfl, -⟩ | ⟨rfl, -⟩ | ⟨rfl, -⟩ | ⟨rfl, -⟩ | ⟨rfl, -⟩ | ⟨rfl, -⟩ | ⟨rfl, -⟩ <;> rfl
  | skip nomem => exact .inl ⟨hnone (dataWrite_of_no_memOperand nomem s), fun _ => rfl⟩
  | jump off _ nomem => exact .inl ⟨hnone (dataWrite_of_no_memOperand nomem s), fun _ => rfl⟩

/-- Settles O38. Whether the effect writes is whether the table of data accesses lists an address inside memory. -/
theorem memoryIsWrittenOnlyAtTheStoredAddress : Obligations.MemoryIsWrittenOnlyAtTheStoredAddress := by
  intro i s t hexec
  obtain ⟨f, heff, rfl⟩ := effect_of_exec hexec
  have hkind : dataWrite i s ≠ none → i.mnemonic = .sta ∨ i.mnemonic = .asl := by
    intro hw
    by_contra hmn
    obtain ⟨hsta, hasl⟩ := not_or.1 hmn
    exact hw (dataWrite_eq_none hsta hasl s)
  rcases heff.mem with ⟨-, hsame⟩ | ⟨ea, v, hw, -, hwrite⟩
  · exact ⟨fun _ _ _ _ => by rw [hsame], fun _ _ => by rw [hsame], hkind⟩
  · refine ⟨fun ea' hw' addr hne => ?_, fun hw' => (by simp [hw] at hw'), hkind⟩
    cases hw.symm.trans hw'
    rw [hwrite]
    exact Memory.read_write_other hne

/-- Settles O36. A load's register is the one its mnemonic names. -/
theorem registersAreWrittenOnlyByTheirInstructions : Obligations.RegistersAreWrittenOnlyByTheirInstructions := by
  intro i s t hexec
  obtain ⟨f, heff, rfl⟩ := effect_of_exec hexec
  cases heff with
  | abort n => simp
  | load r v kind => rcases kind with ⟨hmn, rfl⟩ | ⟨hmn, rfl⟩ | ⟨hmn, rfl⟩ <;> simp [State.loaded, hmn]
  | compare r v => simp [State.compared]
  | store ea v => simp
  | shift ea v => simp [State.shifted]
  | shiftA v kind => simp [State.shifted, kind, Instr.mnemonic]
  | flag f v => cases f <;> simp
  | skip => simp
  | jump off => simp

/-- Settles O37. Each effect writes the flags of its family; of the flag instructions only CLV writes V. -/
theorem flagsAreWrittenOnlyByTheirInstructions : Obligations.FlagsAreWrittenOnlyByTheirInstructions := by
  intro i s t hexec
  obtain ⟨f, heff, rfl⟩ := effect_of_exec hexec
  cases heff with
  | abort n => simp
  | load r v kind => rcases kind with ⟨hmn, rfl⟩ | ⟨hmn, rfl⟩ | ⟨hmn, rfl⟩ <;> simp [State.loaded, hmn]
  | compare r v kind => rcases kind with ⟨hmn, -⟩ | ⟨hmn, -⟩ | ⟨hmn, -⟩ <;> simp [State.compared, hmn]
  | store ea v => simp
  | shift ea v inside kind => simp [State.shifted, kind]
  | shiftA v kind => simp [State.shifted, kind, Instr.mnemonic]
  | flag f v kind =>
    rcases kind with ⟨rfl, rfl, rfl⟩ | ⟨rfl, rfl, rfl⟩ | ⟨rfl, rfl, rfl⟩ | ⟨rfl, rfl, rfl⟩ | ⟨rfl, rfl, rfl⟩ |
      ⟨rfl, rfl, rfl⟩ | ⟨rfl, rfl, rfl⟩ <;> simp [Instr.mnemonic]
  | skip => simp
  | jump off => simp

/-- Settles O35. Every effect is a next state, and only an abort writes the run control. -/
theorem everyInstructionCompletesOrRaisesOutOfRange : Obligations.EveryInstructionCompletesOrRaisesOutOfRange := by
  intro i s
  obtain ⟨f, heff, hexec⟩ := exec_effect i s
  rw [hexec s (.refl i s)]
  cases heff with
  | abort n lo hi mode => exact .inr ⟨n, raisesOutOfRange_abort s n, lo, hi, mode⟩
  | load r v => exact .inl ⟨_, rfl, by cases r <;> rfl, by cases r <;> rfl⟩
  | compare r v => exact .inl ⟨_, rfl, rfl, rfl⟩
  | store ea v => exact .inl ⟨_, rfl, rfl, rfl⟩
  | shift ea v => exact .inl ⟨_, rfl, rfl, rfl⟩
  | shiftA v => exact .inl ⟨_, rfl, rfl, rfl⟩
  | flag f v => exact .inl ⟨_, rfl, by cases f <;> rfl, by cases f <;> rfl⟩
  | skip => exact .inl ⟨_, rfl, rfl, rfl⟩
  | jump off => exact .inl ⟨_, rfl, rfl, rfl⟩

/-! ## PC after an instruction -/

/-- PC after an effect: past the instruction, or where a branch goes, or at the instruction after an abort. -/
theorem Effect.pc (h : Effect i s f) (s' : State) :
    (f s').pc = s'.pc + BitVec.ofNat 16 i.length ∨ (f s').runState = .stopped ∨
      ∃ off, i.mode = .relative ∧ i.operands = [off] ∧
        (f s').pc = BitVec.ofInt 16 ((s'.pc.toNat : Int) + 2 + sext8 off) := by
  cases h with
  | abort n => exact .inr (.inl (s'.abort_runState _))
  | load r v => exact .inl rfl
  | compare r v => exact .inl rfl
  | store ea v => exact .inl (State.advance_pc _ _)
  | shift ea v => exact .inl rfl
  | shiftA v => exact .inl rfl
  | flag f v => exact .inl (by rw [State.advance_pc, State.setFlag_pc])
  | skip => exact .inl (State.advance_pc _ _)
  | jump off kind _ src =>
    refine .inr (.inr ⟨off, kind, src, ?_⟩)
    rw [State.writePc_pc, rel, Int.natCast_add]
    rfl

/-- Settles O33. A state that is still Running is not an abort's. -/
theorem completedInstructionAdvancesPcByItsLength : Obligations.CompletedInstructionAdvancesPcByItsLength := by
  intro i s t _ hexec hrun
  obtain ⟨f, heff, rfl⟩ := effect_of_exec hexec
  rcases heff.pc s with hpc | hstop | ⟨off, hmode, hops, hpc⟩
  · exact ⟨fun _ => hpc, fun _ _ _ => .inl hpc⟩
  · rw [hstop] at hrun
    cases hrun
  · refine ⟨fun h => absurd hmode h, fun b1 _ hb1 => .inr ?_⟩
    cases hops.symm.trans hb1
    exact hpc

/-! ## Two runs -/

/-- The four fields an effect passes on without a look at them: SP and B never change, I and D as the instruction
writes them. -/
theorem Effect.inert (h : Effect i s f) (s' : State) (sp' : Byte) (i' d' b' : Bool) :
    ∃ i'' d'', f { s' with sp := sp', flagI := i', flagD := d', flagB := b' } =
      { f s' with sp := sp', flagI := i'', flagD := d'', flagB := b' } := by
  cases h with
  | load r v kind => rcases kind with ⟨-, rfl⟩ | ⟨-, rfl⟩ | ⟨-, rfl⟩ <;> exact ⟨i', d', rfl⟩
  | compare r v kind => rcases kind with ⟨-, rfl⟩ | ⟨-, rfl⟩ | ⟨-, rfl⟩ <;> exact ⟨i', d', rfl⟩
  | flag f v kind =>
    rcases kind with ⟨-, rfl, -⟩ | ⟨-, rfl, -⟩ | ⟨-, rfl, -⟩ | ⟨-, rfl, -⟩ | ⟨-, rfl, -⟩ | ⟨-, rfl, -⟩ | ⟨-, rfl, -⟩
    all_goals exact ⟨_, _, rfl⟩
  | abort n => exact ⟨i', d', rfl⟩
  | store ea v => exact ⟨i', d', rfl⟩
  | shift ea v => exact ⟨i', d', rfl⟩
  | shiftA v => exact ⟨i', d', rfl⟩
  | skip => exact ⟨i', d', rfl⟩
  | jump off => exact ⟨i', d', rfl⟩

/-- Settles O39. A state with other SP, I, D and B agrees with the first in all that an instruction looks at. -/
theorem stackPointerAndInertFlagsInfluenceNothing : Obligations.StackPointerAndInertFlagsInfluenceNothing := by
  intro i s t sp' i' d' b' hexec
  obtain ⟨f, heff, hrun⟩ := exec_effect i s
  cases (hrun s (.refl i s)).symm.trans hexec
  obtain ⟨i'', d'', heq⟩ := heff.inert s sp' i' d' b'
  have hagrees : Agrees i s { s with sp := sp', flagI := i', flagD := d', flagB := b' } :=
    ⟨rfl, rfl, rfl, rfl, rfl, rfl, rfl, fun _ _ => rfl⟩
  exact ⟨i'', d'', (hrun _ hagrees).trans (congrArg _ heq)⟩

/-- Another memory changes the memory an effect leaves, and no other field. -/
theorem Effect.setMem (h : Effect i s f) (s' : State) (m : Memory) : ∃ m', f (s'.setMem m) = (f s').setMem m' := by
  cases h with
  | load r v => exact ⟨m, by cases r <;> rfl⟩
  | compare r v => exact ⟨m, by cases r <;> rfl⟩
  | flag f v => exact ⟨m, by cases f <;> rfl⟩
  | store ea v => exact ⟨_, rfl⟩
  | shift ea v => exact ⟨_, rfl⟩
  | abort n => exact ⟨m, rfl⟩
  | shiftA v => exact ⟨m, rfl⟩
  | skip => exact ⟨m, rfl⟩
  | jump off => exact ⟨m, rfl⟩

/-- Settles O40. Both runs have one effect; where it writes, it writes one byte to one address in either memory. -/
theorem instructionReadsOnlyItsDataAddresses : Obligations.InstructionReadsOnlyItsDataAddresses := by
  intro i s t m hwf hwf' hreads hexec
  obtain ⟨f, heff, hrun⟩ := exec_effect i s
  cases (hrun s (.refl i s)).symm.trans hexec
  have hagrees : Agrees i s (s.setMem m) := ⟨rfl, rfl, rfl, rfl, rfl, rfl, rfl, hreads⟩
  obtain ⟨m', heq⟩ := heff.setMem s m
  have hm' : m' = (f (s.setMem m)).mem := (congrArg State.mem heq).symm
  refine ⟨m', (hrun _ hagrees).trans (congrArg _ heq), ?_⟩
  rcases heff.mem with ⟨houtside, hsame⟩ | ⟨ea, v, hw, -, hwrite⟩
  · rw [hm', hsame]
    exact ⟨fun addr hw hlt => absurd hlt (Nat.not_lt.2 (houtside addr hw)), fun _ _ => rfl⟩
  · rw [hm', hwrite, hwrite, State.setMem_mem, hw]
    refine ⟨fun addr h _ => ?_, fun addr h => Memory.read_write_other fun e => h (congrArg some e.symm)⟩
    cases h
    rw [Memory.read_write_same hwf', Memory.read_write_same hwf]

end Sys2Proof.Machine

/-! Family 40_cycle_and_addressing.md: the step runs the instruction whose bytes stand at PC (R110 to R112), however
they came there: placed for the fetch, or stored by the instruction before. -/

namespace Sys2Proof.Machine

variable {s t u : State} {i : Instr}

theorem runInstruction_of_holdsAtPc (h : s.HoldsAtPc i) : runInstruction s = exec i s := by
  simp only [runInstruction, fetch_of_holdsAtPc h]

/-- With no turn listed it is the core's turn (70_reset_and_hazards.md R254). -/
theorem coreTurn_of_no_turns (h : s.turns = []) : s.coreTurn = some s := by
  simp only [State.coreTurn, h]

/-- Settles O29. The turns are no part of what the fetch reads. -/
theorem runningStepRunsTheInstructionAtPc : Obligations.RunningStepRunsTheInstructionAtPc := by
  intro s u i hturn hrun hat
  have hu : u = s.setTurns s.turns.tail := coreTurn_eq hturn
  refine ⟨?_, hu, fun h => Option.some.inj (hturn.symm.trans (coreTurn_of_no_turns h))⟩
  have hatu : u.HoldsAtPc i := hat.congr (hu ▸ rfl) fun _ _ => hu ▸ rfl
  rw [step_of_coreTurn hturn, coreStep_running (hu ▸ hrun), runInstruction_of_holdsAtPc hatu]

/-- The step of a running core with no turn listed. -/
theorem step_of_holdsAtPc (hturns : s.turns = []) (hrun : s.runState = .running) (hat : s.HoldsAtPc i) :
    step s = exec i s := by
  obtain ⟨hstep, -, -⟩ := runningStepRunsTheInstructionAtPc s s i (coreTurn_of_no_turns hturns) hrun hat
  exact hstep

/-! ## An instruction placed for the fetch -/

theorem storeBytes_read_below {m : Memory} {addr a : Nat} {bs : List Byte} (h : a < addr) :
    (storeBytes m addr bs).read a = m.read a := by
  induction bs generalizing m addr with
  | nil => rfl
  | cons b bs ih =>
    rw [storeBytes, ih (Nat.lt_succ_of_lt h)]
    split
    · exact Memory.read_write_other (Nat.ne_of_lt h)
    · rfl

/-- Bytes stored inside memory are read back, each at its address. -/
theorem storeBytes_read {m : Memory} (hm : m.wf = true) {addr : Nat} {bs : List Byte} {k : Nat} (hk : k < bs.length)
    (hlen : addr + bs.length ≤ 65536) : some ((storeBytes m addr bs).read (addr + k)) = bs[k]? := by
  induction bs generalizing m addr k with
  | nil => cases hk
  | cons b bs ih =>
    simp only [List.length_cons] at hk hlen
    have haddr : addr < Config.memSize := by rw [Config.memSize]; omega
    rw [storeBytes, if_pos haddr]
    cases k with
    | zero =>
      have hfirst := storeBytes_read_below (m := m.write addr b) (bs := bs) (Nat.lt_add_one addr)
      exact congrArg some (hfirst.trans (Memory.read_write_same hm addr b))
    | succ k =>
      have hnext : addr + (k + 1) = addr + 1 + k := by omega
      rw [List.getElem?_cons_succ, hnext]
      exact ih (Memory.write_wf hm haddr b) (by omega) (by omega)

/-- A word that decodes is the bytes of its instruction and the bytes left. -/
theorem tableBytes_of_decodeTableWord {nbits w : Nat} (h : decodeTableWord nbits w = some i) :
    ∃ rest, tableBytes nbits w = encode i ++ rest := by
  unfold decodeTableWord at h
  split at h
  · next j rest hdecode =>
    cases h
    exact ⟨rest, encodeOfDecodeGivesTheBytesBack _ _ _ hdecode⟩
  · cases h

/-- Settles O30. The bytes of the instruction are the first ones of the word. -/
theorem wordPlacedForTheFetchIsRunNext : Obligations.WordPlacedForTheFetchIsRunNext := by
  intro s nbits w i hwf hroom hdecode
  obtain ⟨rest, hbytes⟩ := tableBytes_of_decodeTableWord hdecode
  obtain ⟨-, hlen, -⟩ := Laws.TableRow.all i
  have hthree : (tableBytes nbits w).length = 3 := rfl
  have hle := i.length_le_three
  refine step_of_holdsAtPc rfl rfl ⟨(by omega : s.pc.toNat + i.length ≤ 65536), fun k hk => ?_⟩
  rw [← List.getElem?_append_left (l₂ := rest) (hlen ▸ hk), ← hbytes]
  exact storeBytes_read hwf (by omega) (by omega)

/-! ## An instruction stored by the one before -/

/-- An instruction of one byte stands at PC where its byte does. -/
theorem holdsAtPc_of_one_byte {b : Byte} (h : encode i = [b]) (hread : s.mem.read s.pc.toNat = b) :
    s.HoldsAtPc i := by
  obtain ⟨-, hlen, -⟩ := Laws.TableRow.all i
  rw [h] at hlen
  refine ⟨by rw [← hlen]; exact s.pc.isLt, fun k hk => ?_⟩
  obtain rfl : k = 0 := by rw [← hlen, List.length_singleton] at hk; omega
  rw [h, Nat.add_zero, hread]
  rfl

/-- Settles O11. After the store PC is the stored address, so that the byte stored is the instruction at PC. -/
theorem storeIntoTheInstructionStreamIsFetchedNext : Obligations.StoreIntoTheInstructionStreamIsFetchedNext := by
  intro s w i hwf hrun hturns hw hbyte
  obtain ⟨new, hexec, hstored, -⟩ := finish_storeA_inside (s := s) (len := 3) (effectiveAddress_absolute w) w.isLt
  obtain ⟨hread, -⟩ := hstored hwf
  subst hw
  exact ⟨_, hexec, step_of_holdsAtPc hturns hrun (holdsAtPc_of_one_byte hbyte hread)⟩

end Sys2Proof.Machine

/-! Family 70_reset_and_hazards.md: the host's moves, one by one (R240, R246 to R249), and the wait of
60_exceptions.md R217. -/

namespace Sys2Proof.Machine

variable {s u t : State} {m : HostMove}

/-- A move that has a meaning at rest only, carried out at rest. -/
theorem step_of_hostWrite (hturn : s.hostTurn = some (m, u)) (hmove : hostMove m u = whenAtRest u t)
    (hrest : u.runState = .idle ∨ u.runState = .stopped) : step s = .next t := by
  rw [step_of_hostTurn hturn, hmove, whenAtRest_of_atRest (atRest_iff.2 hrest)]

/-! ## Loads -/

theorem hostLoad_of_fits {bytes : List Int} {addr : Nat} (h : (loadBytes s.mem addr bytes).2 = none) :
    hostLoad bytes addr s = ((s.setMem (loadBytes s.mem addr bytes).1).writePc addr).reply .accepted := by
  unfold hostLoad
  split
  · next hload => rw [hload]
  · next hload =>
    rw [hload] at h
    cases h

theorem hostLoad_of_bad {bytes : List Int} {addr bad : Nat} (h : (loadBytes s.mem addr bytes).2 = some bad) :
    hostLoad bytes addr s = (s.setMem (loadBytes s.mem addr bytes).1).reply (.addressOutOfRange bad) := by
  unfold hostLoad
  split
  · next hload =>
    rw [hload] at h
    cases h
  · next hload =>
    rw [hload] at h ⊢
    cases h
    rfl

/-- The first address a load that does not fit cannot write, from anywhere. -/
theorem loadBytes_bad {mem : Memory} {addr : Nat} {bytes : List Int} (hne : bytes ≠ [])
    (h : 65536 < addr + bytes.length) : (loadBytes mem addr bytes).2 = some (max 65536 addr) := by
  by_cases ha : addr ≤ 65536
  · rw [loadBytes_snd_some ha h, Nat.max_eq_left ha]
  · have hge : 65536 ≤ addr := Nat.le_of_not_le ha
    obtain ⟨v, vs, rfl⟩ := List.exists_cons_of_ne_nil hne
    rw [loadBytes_of_ge hge, Nat.max_eq_right hge]

/-- Settles O49. Either way memory is what `loadBytes` leaves; whether the load fits decides PC and the answer. -/
theorem loadBinariesWritesBytesAndSetsPc : Obligations.LoadBinariesWritesBytesAndSetsPc := by
  intro s u bytes addr hturn hwf hrest
  have hstep : step s = .next (hostLoad bytes addr u) := step_of_hostWrite hturn rfl hrest
  refine ⟨(loadBytes u.mem addr bytes).1, fun a => ?_, fun hfits => ?_, fun ⟨hne, hover⟩ => ?_⟩
  · rw [loadBytes_read hwf]
    split
    · exact maskByte_toNat _
    · rfl
  · rw [hstep, hostLoad_of_fits (loadBytes_snd_none_iff.2 hfits), State.writePc, BitVec.ofInt_natCast]
    rfl
  · rw [hstep, hostLoad_of_bad (loadBytes_bad hne hover)]
    rfl

/-- A load with a start is the load, and the start where the load was accepted (70_reset_and_hazards.md R247). -/
theorem hostLoadAndExecute_cases (bytes : List Int) (addr : Nat) (u : State) :
    (∃ loaded : State, hostLoad bytes addr u = loaded.reply .accepted ∧
        hostLoadAndExecute bytes addr u = hostStart loaded) ∨
      ∃ (loaded : State) (bad : Nat), hostLoad bytes addr u = loaded.reply (.addressOutOfRange bad) ∧
        hostLoadAndExecute bytes addr u = hostLoad bytes addr u := by
  unfold hostLoadAndExecute hostLoad
  split
  · exact .inl ⟨_, rfl, rfl⟩
  · exact .inr ⟨_, _, rfl, rfl⟩

/-- Settles O50. The start is `hostStart` from the state the load leaves, before the load's own answer. -/
theorem loadAndExecuteLoadsThenStarts : Obligations.LoadAndExecuteLoadsThenStarts := by
  intro s u v w bytes addr hturn hload hw
  rw [step_of_hostTurn hload] at hw
  obtain ⟨hrest, rfl⟩ := whenAtRest_next_iff.1 hw
  have hstep : step s = .next (hostLoadAndExecute bytes addr u) :=
    step_of_hostWrite hturn rfl (atRest_iff.1 hrest)
  rw [hstep]
  rcases hostLoadAndExecute_cases bytes addr u with ⟨loaded, hl, hle⟩ | ⟨loaded, bad, hl, hle⟩
  · rw [hl, hle]
    refine ⟨fun _ hidle => congrArg _ (hostStart_of_idle hidle), fun _ hstopped => ?_, fun ⟨bad, hbad⟩ => ?_⟩
    · exact congrArg _ (hostStart_of_ne_idle (by rw [← State.reply_runState, hstopped]; decide))
    · cases hbad
  · rw [hle, hl]
    exact ⟨fun hacc => (by cases hacc), fun hacc => (by cases hacc), fun _ => rfl⟩

/-! ## HOST.set -/

theorem State.flag_setFlag_same (s : State) (f : Flag) (v : Bool) : (s.setFlag f v).flag f = v := by
  cases f <;> rfl

theorem hostSetByte_of_lt {addr : Nat} (h : addr < 65536) (v : Int) (s : State) :
    hostSetByte addr v s = (s.setMem (s.mem.write addr (maskByte v))).reply .accepted := by
  rw [hostSetByte, memWrite_of_lt h]

/-- Settles O51. Each write is `setReg`, `writePc`, `setFlag` or `Memory.write` of the masked value, and the answer. -/
theorem hostSetWritesOneFieldMasked : Obligations.HostSetWritesOneFieldMasked := by
  intro s u hrest
  refine ⟨fun v => ⟨maskByte v, rfl, maskByte_toNat v, ?_, ?_, ?_, ?_, fun r h => ?_⟩, fun v h => ?_,
    fun v => ⟨?_, ?_, ?_, ?_, ?_, ?_, ?_, fun f h => ?_⟩, fun addr v h haddr => ?_⟩
  case refine_1 | refine_2 | refine_3 | refine_4 => exact fun h => step_of_hostWrite h rfl hrest
  case refine_5 => exact ⟨_, step_of_hostWrite h rfl hrest, u.reg_setReg_same r (maskByte v)⟩
  case refine_6 => exact ⟨_, step_of_hostWrite h rfl hrest, writePc_pc_toNat u v⟩
  case refine_7 | refine_8 | refine_9 | refine_10 | refine_11 | refine_12 | refine_13 =>
    exact fun h => step_of_hostWrite h rfl hrest
  case refine_14 => exact ⟨_, step_of_hostWrite h rfl hrest, u.flag_setFlag_same f v⟩
  case refine_15 =>
    refine ⟨u.mem.write addr (maskByte v), ?_, byteStored_write u.mem haddr _⟩
    exact step_of_hostWrite h (congrArg (whenAtRest u) (hostSetByte_of_lt haddr v u)) hrest

/-! ## HOST.get -/

/-- A read of a value answers the current one at rest and a free one of the same width otherwise; only a free value
moves the index (70_reset_and_hazards.md R249). -/
theorem hostGet_answer {α : Type} (mk : α → Answer) (current free : α) (u : State) :
    ∃ v k, hostGet u (mk current) (mk free) = { u with answer := some (mk v), freeIndex := k } ∧
      (u.runState = .idle ∨ u.runState = .stopped → v = current ∧ k = u.freeIndex) := by
  by_cases h : u.atRest = true
  · exact ⟨current, u.freeIndex, if_pos h, fun _ => ⟨rfl, rfl⟩⟩
  · exact ⟨free, u.freeIndex + 1, if_neg h, fun hrest => absurd (atRest_iff.2 hrest) h⟩

/-- The step of such a read. -/
theorem step_of_hostGet {α : Type} {mk : α → Answer} {current free : α} (hturn : s.hostTurn = some (m, u))
    (hmove : hostMove m u = .next (hostGet u (mk current) (mk free))) :
    ∃ v k, step s = .next { u with answer := some (mk v), freeIndex := k } ∧
      (u.runState = .idle ∨ u.runState = .stopped → v = current ∧ k = u.freeIndex) := by
  obtain ⟨v, k, hget, hcurrent⟩ := hostGet_answer mk current free u
  exact ⟨v, k, by rw [step_of_hostTurn hturn, hmove, hget], hcurrent⟩

theorem hostGetByte_of_lt {addr : Nat} (h : addr < 65536) (u : State) :
    hostGetByte addr u = hostGet u (.byte (u.mem.read addr)) (.byte (Config.freeByte u.freeIndex)) := by
  rw [hostGetByte, memRead_of_lt h]

/-- Settles O52. The two status reads answer whatever the run state is; the others are `hostGet`. -/
theorem hostGetIsCurrentAtRestAndAnyValueElse : Obligations.HostGetIsCurrentAtRestAndAnyValueElse := by
  intro s u
  refine ⟨fun h => step_of_hostTurn h, fun h => step_of_hostTurn h, fun r h => step_of_hostGet h rfl,
    fun h => step_of_hostGet h rfl, fun f h => step_of_hostGet h rfl, fun addr h haddr => ?_⟩
  exact step_of_hostGet h (congrArg _ (hostGetByte_of_lt haddr u))

/-! ## The wait and RESET -/

/-- The state before the host's turn is the state after it with the turn put back. -/
theorem setTurns_of_hostTurn (h : s.hostTurn = some (m, u)) : u.setTurns (.host m :: u.turns) = s := by
  obtain ⟨rfl, hhead⟩ := hostTurn_eq h
  rw [State.setTurns_turns, List.cons_head?_tail hhead]
  rfl

theorem runState_of_hostTurn (h : s.hostTurn = some (m, u)) : u.runState = s.runState := by
  obtain ⟨rfl, -⟩ := hostTurn_eq h
  rfl

/-- Settles O53. The state the core steps from is the state before the turn, with the wait put back. -/
theorem waitEndsExactlyInStopped : Obligations.WaitEndsExactlyInStopped := by
  intro s u hturn
  have hrun := runState_of_hostTurn hturn
  rw [step_of_hostTurn hturn, hostMove]
  refine ⟨fun h => if_pos (hrun.trans h), fun h => ?_⟩
  rw [if_neg (hrun ▸ h), setTurns_of_hostTurn hturn]

/-- Settles O55. Every field but those the statement sets aside is taken from `State.reset`. -/
theorem resetMoveGivesTheResetState : Obligations.ResetMoveGivesTheResetState := by
  intro s u hturn
  refine ⟨fun hrest => ⟨hostReset u, step_of_hostWrite hturn rfl hrest, rfl⟩, fun hbusy => ?_⟩
  rw [step_of_hostTurn hturn, hostMove, whenAtRest_of_busy]
  rcases hbusy with h | h <;> simp [State.atRest, h]

end Sys2Proof.Machine

/-! The run control over every step (60_exceptions.md R205, R210, R215; 70_reset_and_hazards.md R250, R251): what the
core's turn and any host move can do to RUN_STATE and to the record of the stop, and, from that, the invariant. -/

namespace Sys2Proof.Machine

variable {s t u v : State} {m : HostMove} {e : Abort}

/-! ## Steps that keep the record of the stop -/

/-- What the invariant speaks of is kept: the record of the stop is the same, the state is in Stopped exactly if it was,
and memory stays in canonical form. Every move but RESET and every completed instruction does this. -/
structure KeepsRecord (s t : State) : Prop where
  stopCause : t.stopCause = s.stopCause
  stopInfoOpcode : t.stopInfoOpcode = s.stopInfoOpcode
  stopInfoAddress : t.stopInfoAddress = s.stopInfoAddress
  stopped : t.runState = .stopped ↔ s.runState = .stopped
  mem_wf : s.mem.wf = true → t.mem.wf = true

theorem KeepsRecord.trans (h : KeepsRecord s t) (h' : KeepsRecord t u) : KeepsRecord s u :=
  ⟨h'.stopCause.trans h.stopCause, h'.stopInfoOpcode.trans h.stopInfoOpcode,
    h'.stopInfoAddress.trans h.stopInfoAddress, h'.stopped.trans h.stopped, fun hwf => h'.mem_wf (h.mem_wf hwf)⟩

theorem keepsRecord_setTurns (s : State) (ts : List Turn) : KeepsRecord s (s.setTurns ts) :=
  ⟨rfl, rfl, rfl, Iff.rfl, id⟩

theorem keepsRecord_drawFree (s : State) : KeepsRecord s s.drawFree := ⟨rfl, rfl, rfl, Iff.rfl, id⟩

theorem keepsRecord_reply (s : State) (ans : Answer) : KeepsRecord s (s.reply ans) := ⟨rfl, rfl, rfl, Iff.rfl, id⟩

theorem keepsRecord_writePc (s : State) (w : Int) : KeepsRecord s (s.writePc w) := ⟨rfl, rfl, rfl, Iff.rfl, id⟩

theorem keepsRecord_setReg (s : State) (r : Reg) (b : Byte) : KeepsRecord s (s.setReg r b) := by
  cases r <;> exact ⟨rfl, rfl, rfl, Iff.rfl, id⟩

theorem keepsRecord_setFlag (s : State) (f : Flag) (b : Bool) : KeepsRecord s (s.setFlag f b) := by
  cases f <;> exact ⟨rfl, rfl, rfl, Iff.rfl, id⟩

theorem keepsRecord_setMem {mem : Memory} (h : s.mem.wf = true → mem.wf = true) : KeepsRecord s (s.setMem mem) :=
  ⟨rfl, rfl, rfl, Iff.rfl, h⟩

theorem keepsRecord_setRunState {r : RunState} (hs : s.runState ≠ .stopped) (hr : r ≠ .stopped) :
    KeepsRecord s { s with runState := r } :=
  ⟨rfl, rfl, rfl, iff_of_false hr hs, id⟩

theorem Kept.keepsRecord (h : Kept s t) : KeepsRecord s t := by
  refine ⟨h.stopCause, h.stopInfoOpcode, h.stopInfoAddress, by rw [h.runState], fun hwf => ?_⟩
  rcases h.mem with hm | ⟨a, b, ha, hm⟩
  · rwa [hm]
  · rw [hm]
    exact Memory.write_wf hwf ha b

theorem State.Inv.of_keepsRecord (h : s.Inv) (hk : KeepsRecord s t) : t.Inv where
  mem_wf := hk.mem_wf h.mem_wf
  cause_iff_stopped := by rw [hk.stopCause, hk.stopped, h.cause_iff_stopped]
  address_range := by rw [hk.stopCause, hk.stopInfoAddress]; exact h.address_range
  opcode_unknown := by rw [hk.stopCause, hk.stopInfoOpcode]; exact h.opcode_unknown

/-! ## The host's moves -/

theorem keepsRecord_hostStart (s : State) : KeepsRecord s (hostStart s) := by
  by_cases h : s.runState = .idle
  · rw [hostStart_of_idle h]
    exact (keepsRecord_setRunState (by simp [h]) (by decide)).trans (keepsRecord_reply _ _)
  · rw [hostStart_of_ne_idle h]
    exact keepsRecord_reply s _

theorem keepsRecord_hostStopRequest (s : State) : KeepsRecord s (hostStopRequest s) := by
  by_cases h : s.runState = .running
  · rw [hostStopRequest_of_running h]
    exact (keepsRecord_setRunState (by simp [h]) (by decide)).trans (keepsRecord_reply _ _)
  · rw [hostStopRequest_of_ne_running h]
    exact keepsRecord_reply s _

theorem keepsRecord_loadBytes (s : State) (addr : Nat) (bytes : List Int) :
    KeepsRecord s (s.setMem (loadBytes s.mem addr bytes).1) :=
  keepsRecord_setMem fun hwf => loadBytes_wf hwf addr bytes

theorem keepsRecord_hostLoad (bytes : List Int) (addr : Nat) (s : State) : KeepsRecord s (hostLoad bytes addr s) := by
  cases h : (loadBytes s.mem addr bytes).2 with
  | none =>
    rw [hostLoad_of_fits h]
    exact ((keepsRecord_loadBytes s addr bytes).trans (keepsRecord_writePc _ _)).trans (keepsRecord_reply _ _)
  | some bad =>
    rw [hostLoad_of_bad h]
    exact (keepsRecord_loadBytes s addr bytes).trans (keepsRecord_reply _ _)

theorem keepsRecord_hostLoadAndExecute (bytes : List Int) (addr : Nat) (s : State) :
    KeepsRecord s (hostLoadAndExecute bytes addr s) := by
  have hload := keepsRecord_hostLoad bytes addr s
  rcases hostLoadAndExecute_cases bytes addr s with ⟨loaded, hl, hle⟩ | ⟨loaded, bad, hl, hle⟩
  · rw [hl] at hload
    have hloaded : KeepsRecord s loaded :=
      ⟨hload.stopCause, hload.stopInfoOpcode, hload.stopInfoAddress, hload.stopped, hload.mem_wf⟩
    rw [hle]
    exact hloaded.trans (keepsRecord_hostStart loaded)
  · rwa [hle]

theorem keepsRecord_hostSetByte (addr : Nat) (w : Int) (s : State) : KeepsRecord s (hostSetByte addr w s) := by
  by_cases h : addr < 65536
  · rw [hostSetByte_of_lt h]
    exact (keepsRecord_setMem fun hwf => Memory.write_wf hwf h _).trans (keepsRecord_reply _ _)
  · rw [hostSetByte, memWrite_of_ge (Nat.not_lt.1 h)]
    exact keepsRecord_reply s _

theorem keepsRecord_hostGet (s : State) (current free : Answer) : KeepsRecord s (hostGet s current free) := by
  unfold hostGet
  split
  · exact keepsRecord_reply s _
  · exact (keepsRecord_drawFree s).trans (keepsRecord_reply _ _)

theorem keepsRecord_hostGetByte (addr : Nat) (s : State) : KeepsRecord s (hostGetByte addr s) := by
  by_cases h : addr < 65536
  · rw [hostGetByte_of_lt h]
    exact keepsRecord_hostGet s _ _
  · rw [hostGetByte, memRead_of_ge (Nat.not_lt.1 h)]
    exact keepsRecord_reply s _

/-- The inversion of `hostMove`: a move keeps the record of the stop, or it is RESET, or it is a wait that has not ended
and the step is the core's. -/
theorem hostMove_cases (h : hostMove m s = .next t) :
    KeepsRecord s t ∨ (m = .reset ∧ t = hostReset s) ∨
      s.runState ≠ .stopped ∧ coreStep (s.setTurns (.host .waitStopped :: s.turns)) = .next t := by
  cases m with
  | reset => exact .inr (.inl ⟨rfl, (whenAtRest_next_iff.1 h).2⟩)
  | setReg r w =>
    obtain ⟨-, rfl⟩ := whenAtRest_next_iff.1 h
    exact .inl ((keepsRecord_setReg s r _).trans (keepsRecord_reply _ _))
  | setPc w =>
    obtain ⟨-, rfl⟩ := whenAtRest_next_iff.1 h
    exact .inl ((keepsRecord_writePc s w).trans (keepsRecord_reply _ _))
  | setFlag f w =>
    obtain ⟨-, rfl⟩ := whenAtRest_next_iff.1 h
    exact .inl ((keepsRecord_setFlag s f w).trans (keepsRecord_reply _ _))
  | setByte addr w =>
    obtain ⟨-, rfl⟩ := whenAtRest_next_iff.1 h
    exact .inl (keepsRecord_hostSetByte addr w s)
  | loadBinaries bytes addr =>
    obtain ⟨-, rfl⟩ := whenAtRest_next_iff.1 h
    exact .inl (keepsRecord_hostLoad bytes addr s)
  | loadAndExecute bytes addr =>
    obtain ⟨-, rfl⟩ := whenAtRest_next_iff.1 h
    exact .inl (keepsRecord_hostLoadAndExecute bytes addr s)
  | start => cases h; exact .inl (keepsRecord_hostStart s)
  | stopRequest => cases h; exact .inl (keepsRecord_hostStopRequest s)
  | getRunState => cases h; exact .inl (keepsRecord_reply s _)
  | getStopCause => cases h; exact .inl (keepsRecord_reply s _)
  | getReg r => cases h; exact .inl (keepsRecord_hostGet s _ _)
  | getPc => cases h; exact .inl (keepsRecord_hostGet s _ _)
  | getFlag f => cases h; exact .inl (keepsRecord_hostGet s _ _)
  | getByte addr => cases h; exact .inl (keepsRecord_hostGetByte addr s)
  | waitStopped =>
    rw [hostMove] at h
    split at h
    · cases h; exact .inl (keepsRecord_reply s _)
    · next hrun => exact .inr (.inr ⟨hrun, h⟩)

/-! ## The core's turn -/

/-- The index of the free values is no part of why an instruction aborts. -/
theorem RaisedBy.withFreeIndex (h : RaisedBy s e) (k : Nat) : RaisedBy { s with freeIndex := k } e := by
  cases h with
  | unknownOpcode h => exact .unknownOpcode h
  | addressOutOfRange n lo hi => exact .addressOutOfRange n lo hi

/-- The three ends of the core's turn in Running and Stopping: an instruction completed, the request observed, or an
instruction aborted, where in Stopping the choice has moved the index of the free values. -/
inductive CoreTurnEnd (u : State) : State → Prop where
  | completed {t : State} (running : u.runState = .running) (kept : Kept u t) : CoreTurnEnd u t
  | observed {v : State} (stopping : u.runState = .stopping) (kept : KeepsRecord u v) : CoreTurnEnd u v.observeStop
  | aborted (k : Nat) (e : Abort) (raised : RaisedBy u e) : CoreTurnEnd u (({ u with freeIndex := k } : State).abort e)

theorem coreStep_cases (h : u.runState = .running ∨ u.runState = .stopping) :
    ∃ t, coreStep u = .next t ∧ CoreTurnEnd u t := by
  rcases h with hrun | hstopping
  · rw [coreStep_running hrun]
    rcases runInstruction_cases u with ⟨t, ht, hkept⟩ | ⟨e, he, hraised⟩
    · exact ⟨t, ht, .completed hrun hkept⟩
    · exact ⟨_, he, .aborted u.freeIndex e hraised⟩
  · rcases coreStep_stopping_cases hstopping with heq | ⟨v, -, hkept, heq⟩ | ⟨e, hraised, heq⟩
    · exact ⟨_, heq, .observed hstopping (keepsRecord_drawFree u)⟩
    · exact ⟨_, heq, .observed hstopping ((keepsRecord_drawFree u).trans hkept.keepsRecord)⟩
    · exact ⟨_, heq, .aborted (u.freeIndex + 1) e hraised⟩

/-- Settles O34. Of the ends of a turn only an abort has an error for its cause. -/
theorem abortLeavesNothingButTheRunControlChanged : Obligations.AbortLeavesNothingButTheRunControlChanged := by
  intro s u t hturn hactive hstep hstopped hcause
  obtain ⟨t', ht', hend⟩ := coreStep_cases hactive
  rw [step_of_coreTurn hturn, ht'] at hstep
  cases hstep
  cases hend with
  | completed hrun hkept =>
    rw [hkept.runState, hrun] at hstopped
    cases hstopped
  | observed => rcases hcause with hc | hc <;> cases hc
  | aborted k e hraised =>
    cases hraised with
    | unknownOpcode hnone => exact ⟨rfl, fun _ => ⟨rfl, hnone⟩⟩
    | addressOutOfRange n => exact ⟨rfl, fun hc => by cases hc⟩

/-- Settles O43, by the run state and, in Running and Stopping, by the end of the turn. -/
theorem coreMovesTheRunStateAsTheTableSays : Obligations.CoreMovesTheRunStateAsTheTableSays := by
  intro s u hturn
  rw [step_of_coreTurn hturn]
  cases hu : u.runState with
  | idle => exact ⟨u, coreStep_idle hu, by simp⟩
  | stopped => exact ⟨u, coreStep_stopped hu, by simp⟩
  | running =>
    obtain ⟨t, ht, hend⟩ := coreStep_cases (.inl hu)
    refine ⟨t, ht, by simp, by simp, fun _ => ?_, by simp⟩
    cases hend with
    | completed _ hkept => exact .inl ⟨hkept.runState.trans hu, hkept.stopCause⟩
    | observed hstopping => simp [hu] at hstopping
    | aborted k e => exact .inr ⟨State.abort_runState _ e, State.abort_stopCause _ e⟩
  | stopping =>
    obtain ⟨t, ht, hend⟩ := coreStep_cases (.inr hu)
    refine ⟨t, ht, by simp, by simp, by simp, fun _ => ?_⟩
    cases hend with
    | completed hrun => simp [hu] at hrun
    | observed => exact ⟨rfl, .inl rfl⟩
    | aborted k e => exact ⟨State.abort_runState _ e, .inr (State.abort_stopCause _ e)⟩

/-! ## The invariant -/

theorem inv_observeStop (h : s.mem.wf = true) : s.observeStop.Inv where
  mem_wf := h
  cause_iff_stopped := by simp
  address_range := by simp
  opcode_unknown := by simp

/-- What an abort records is what raised it. -/
theorem RaisedBy.inv (h : RaisedBy s e) (hwf : s.mem.wf = true) : (s.abort e).Inv := by
  cases h with
  | unknownOpcode hnone => exact ⟨hwf, by simp, by simp, fun _ => hnone⟩
  | addressOutOfRange n lo hi => exact ⟨hwf, by simp, fun _ => ⟨lo, hi⟩, by simp⟩

theorem CoreTurnEnd.inv (hend : CoreTurnEnd u t) (h : u.Inv) : t.Inv := by
  cases hend with
  | completed _ hkept => exact h.of_keepsRecord hkept.keepsRecord
  | observed _ hkept => exact inv_observeStop (hkept.mem_wf h.mem_wf)
  | aborted k e hraised => exact (hraised.withFreeIndex k).inv h.mem_wf

theorem coreStep_keeps_inv (h : u.Inv) (ht : coreStep u = .next t) : t.Inv := by
  have hactive (hr : u.runState = .running ∨ u.runState = .stopping) : t.Inv := by
    obtain ⟨t', ht', hend⟩ := coreStep_cases hr
    cases ht'.symm.trans ht
    exact hend.inv h
  cases hu : u.runState with
  | idle => cases (coreStep_idle hu).symm.trans ht; exact h
  | stopped => cases (coreStep_stopped hu).symm.trans ht; exact h
  | running => exact hactive (.inl hu)
  | stopping => exact hactive (.inr hu)

theorem inv_hostReset (s : State) : (hostReset s).Inv where
  mem_wf := rfl
  cause_iff_stopped := by simp [hostReset, State.reset]
  address_range := by simp [hostReset, State.reset]
  opcode_unknown := by simp [hostReset, State.reset]

/-- Settles O41. -/
theorem invariantHoldsAtReset : Obligations.InvariantHoldsAtReset where
  mem_wf := rfl
  cause_iff_stopped := by simp [State.reset]
  address_range := by simp [State.reset]
  opcode_unknown := by simp [State.reset]

/-- Settles O42. A turn is the core's or the host's; a host move keeps the record of the stop, or is RESET, or is a wait
that leaves the step to the core. -/
theorem everyStepKeepsTheInvariant : Obligations.EveryStepKeepsTheInvariant := by
  intro s t hinv hstep
  rcases turn_cases s with ⟨u, hturn⟩ | ⟨m, u, hturn⟩
  · rw [step_of_coreTurn hturn] at hstep
    rw [coreTurn_eq hturn] at hstep
    exact coreStep_keeps_inv (hinv.of_keepsRecord (keepsRecord_setTurns s _)) hstep
  · obtain ⟨rfl, -⟩ := hostTurn_eq hturn
    have hu := hinv.of_keepsRecord (keepsRecord_setTurns s s.turns.tail)
    rw [step_of_hostTurn hturn] at hstep
    rcases hostMove_cases hstep with hkept | ⟨-, rfl⟩ | ⟨-, hcore⟩
    · exact hu.of_keepsRecord hkept
    · exact inv_hostReset _
    · exact coreStep_keeps_inv (hu.of_keepsRecord (keepsRecord_setTurns _ _)) hcore

/-! ## Stopped is final -/

/-- Settles O45. A host move keeps the record of the stop, and with it Stopped, but for RESET. -/
theorem stoppedIsFinalButForReset : Obligations.StoppedIsFinalButForReset := by
  intro s hs
  have hhost : ∀ {m u}, s.hostTurn = some (m, u) → u.runState = .stopped := fun h => (runState_of_hostTurn h).trans hs
  have hcore : ∀ u, s.coreTurn = some u → step s = .next u ∧ u = { s with turns := s.turns.tail } := by
    intro u hturn
    have hu : u = s.setTurns s.turns.tail := coreTurn_eq hturn
    exact ⟨by rw [step_of_coreTurn hturn, coreStep_stopped (hu ▸ hs)], hu⟩
  refine ⟨fun t hstep hreset => ?_, hcore, fun u hturn => ?_, fun u hturn => ?_⟩
  · rcases turn_cases s with ⟨u, hturn⟩ | ⟨m, u, hturn⟩
    · obtain ⟨hnext, rfl⟩ := hcore u hturn
      cases hnext.symm.trans hstep
      exact hs
    · rw [step_of_hostTurn hturn] at hstep
      rcases hostMove_cases hstep with hkept | ⟨rfl, -⟩ | ⟨hne, -⟩
      · exact hkept.stopped.2 (hhost hturn)
      · exact absurd (hostTurn_eq hturn).2 hreset
      · exact absurd (hhost hturn) hne
  · rcases hturn with hturn | hturn
    · exact (startMovesIdleToRunningOnly s u hturn).2 (by simp [hhost hturn])
    · exact (stopRequestMovesRunningToStoppingOnly s u hturn).2 (by simp [hhost hturn])
  · exact ⟨hostReset u, step_of_hostWrite hturn rfl (.inr (hhost hturn)), rfl⟩

/-! ## What is refused -/

/-- The moves without a meaning in Running and Stopping (70_reset_and_hazards.md R251): the ones that write. -/
def HostMove.Writes (m : HostMove) : Prop :=
  m = .reset ∨ (∃ r v, m = .setReg r v) ∨ (∃ v, m = .setPc v) ∨ (∃ f v, m = .setFlag f v) ∨
    (∃ addr v, m = .setByte addr v) ∨ (∃ bytes addr, m = .loadBinaries bytes addr) ∨
    ∃ bytes addr, m = .loadAndExecute bytes addr

theorem whenAtRest_refused_iff : whenAtRest s t = .refused .hostMoveOutsideContract ↔ s.atRest = false := by
  cases h : s.atRest with
  | true => simp [whenAtRest_of_atRest h]
  | false => simp [whenAtRest_of_busy h]

theorem atRest_eq_false_iff : s.atRest = false ↔ s.runState = .running ∨ s.runState = .stopping := by
  cases h : s.runState <;> simp [State.atRest, h]

theorem coreStep_ne_refused (s : State) (r : Refusal) : coreStep s ≠ .refused r := by
  obtain ⟨t, ht⟩ := coreStep_next s
  simp [ht]

theorem hostMove_refused_iff (m : HostMove) (s : State) :
    hostMove m s = .refused .hostMoveOutsideContract ↔ s.atRest = false ∧ m.Writes := by
  cases m with
  | waitStopped =>
    rw [hostMove]
    split <;> simp [HostMove.Writes, coreStep_ne_refused]
  | _ => simp [hostMove, whenAtRest_refused_iff, HostMove.Writes]

/-- Settles O56. The core's step always answers, and a move is refused by `whenAtRest` alone. -/
theorem onlyHostWritesWhileRunningAreRefused : Obligations.OnlyHostWritesWhileRunningAreRefused := by
  intro s
  refine ⟨step_answers s, fun hrefused => ?_, fun ⟨hbusy, m, u, hturn, hm⟩ => ?_⟩
  · rcases turn_cases s with ⟨u, hturn⟩ | ⟨m, u, hturn⟩
    · rw [step_of_coreTurn hturn] at hrefused
      exact absurd hrefused (coreStep_ne_refused u _)
    · rw [step_of_hostTurn hturn, hostMove_refused_iff, atRest_eq_false_iff, runState_of_hostTurn hturn] at hrefused
      obtain ⟨hbusy, hm⟩ := hrefused
      exact ⟨hbusy, m, u, hturn, hm⟩
  · rw [step_of_hostTurn hturn, hostMove_refused_iff, atRest_eq_false_iff, runState_of_hostTurn hturn]
    exact ⟨hbusy, hm⟩

end Sys2Proof.Machine
